-- ==== Sys2Proof/Word.lean ====
section
/-! DEFINITION. Words, bytes and packets (00_scope.md R11, R13; 30_encoding.md R57). -/

namespace Sys2Proof

/-- A 32-bit word: a packet word, a register, an address, a binary32 pattern (R11: `WORD`, `AW`, `NW`). -/
abbrev Word := BitVec 32

/-- The addressable unit, 8 bits (R11: `BYTE`). -/
abbrev Byte := BitVec 8

/-- A packet as the `CMD` port delivers it: a finite list of words, first word first; its length is known to the
decoder (R57). -/
abbrev Packet := List Word

end Sys2Proof
end

