-- ==== Sys2Proof/Machine/Float.lean ====
section
/-! DEFINITION. IEEE 754 binary32 as the block computes it (40_numerics.md R73 to R83, R86): classification of a pattern,
the one rounding, and the primitives. Exact arithmetic is done in integers: every finite binary32 is an integer multiple of
2^-149, so a finite value is a sign and a natural number of such units. -/

namespace Sys2Proof.Machine

/-! ## Format -/

/-- The value of a pattern (R74): `fin neg mag` is (-1)^neg * mag * 2^-149, so the two zeros are `fin false 0` and
`fin true 0`. Every NaN is alike. -/
inductive FVal where
  | nan
  | inf (neg : Bool)
  | fin (neg : Bool) (mag : Nat)
deriving DecidableEq, Repr

/-- The sign bit `w[31]` (R73). -/
def fSign (w : Word) : Bool := w.getLsbD 31

/-- The biased exponent `w[30:23]` (R73). -/
def fExp (w : Word) : Nat := (w.extractLsb' 23 8).toNat

/-- The fraction `w[22:0]` (R73). -/
def fFrac (w : Word) : Nat := (w.extractLsb' 0 23).toNat

/-- The magnitude of a finite pattern in units of 2^-149: f for exponent 0, (2^23 + f) * 2^(e-1) otherwise (R74). -/
def fMag (w : Word) : Nat :=
  if fExp w = 0 then fFrac w else (2 ^ 23 + fFrac w) * 2 ^ (fExp w - 1)

/-- The value of a pattern (R74). -/
def classify (w : Word) : FVal :=
  if fExp w = 255 then (if fFrac w = 0 then .inf (fSign w) else .nan)
  else .fin (fSign w) (fMag w)

/-- The signed magnitude of a finite value, in units of 2^-149. -/
def signed (neg : Bool) (mag : Nat) : Int := if neg then -(mag : Int) else (mag : Int)

/-! ## Patterns built from values -/

/-- The one NaN the datapath produces (R86). -/
def qnan : Word := 0x7FC00000#32

/-- The sign bit put above a magnitude pattern. -/
def withSign (neg : Bool) (magPattern : Nat) : Word :=
  BitVec.ofNat 32 ((if neg then 2 ^ 31 else 0) + magPattern)

/-- The infinity of a sign. -/
def infinity (neg : Bool) : Word := withSign neg 0x7F800000

/-- The zero of a sign. -/
def zero (neg : Bool) : Word := withSign neg 0

/-- The exact value num/den rounded to an integer, to nearest with ties to even. -/
def roundEven (num den : Nat) : Nat :=
  if 2 * (num % den) > den || (2 * (num % den) == den && num / den % 2 == 1) then num / den + 1 else num / den

/-- How many places the last bit kept of num/den lies above 2^-149: what leaves at most 24 bits, and none below 2^-149. -/
def roundShift (num den : Nat) : Nat := Nat.log2 (num / den) - 23

/-- roundTiesToEven (R75): the magnitude pattern nearest to num/den units of 2^-149. With the last bit kept at 2^k, the
rounded integer t and the exponent make the pattern k * 2^23 + t, subnormals (k = 0, t < 2^23) and a carry out of the
fraction (t = 2^24) included; past the largest finite pattern it is the infinity's. -/
def roundMag (num den : Nat) : Nat :=
  min 0x7F800000 (roundShift num den * 2 ^ 23 + roundEven num (den * 2 ^ roundShift num den))

/-- The binary32 nearest to (-1)^neg * num/den units of 2^-149; a zero keeps the sign (R75). -/
def packRound (neg : Bool) (num den : Nat) : Word := withSign neg (roundMag num den)

/-! ## Primitives -/

/-- `neg`: the sign bit flipped (R78). -/
def fneg (a : Word) : Word := a ^^^ 0x80000000#32

/-- The sum of two finite values: exact, then rounded once. An exact sum of zero is +0, except (-0) + (-0) = -0 (R78). -/
def addFin (na : Bool) (ma : Nat) (nb : Bool) (mb : Nat) : Word :=
  let z := signed na ma + signed nb mb
  if z = 0 then zero (na && nb) else packRound (z < 0) z.natAbs 1

/-- `fadd` (R78). -/
def fadd (a b : Word) : Word :=
  match classify a, classify b with
  | .nan, _ => qnan
  | _, .nan => qnan
  | .inf na, .inf nb => if na = nb then infinity na else qnan
  | .inf na, .fin _ _ => infinity na
  | .fin _ _, .inf nb => infinity nb
  | .fin na ma, .fin nb mb => addFin na ma nb mb

/-- `fsub(a, b) = fadd(a, neg(b))` (R78). -/
def fsub (a b : Word) : Word := fadd a (fneg b)

/-- `fmul` (R79). The product of two finite values counts units of 2^-298. -/
def fmul (a b : Word) : Word :=
  match classify a, classify b with
  | .nan, _ => qnan
  | _, .nan => qnan
  | .inf na, .inf nb => infinity (na != nb)
  | .inf na, .fin nb mb => if mb = 0 then qnan else infinity (na != nb)
  | .fin na ma, .inf nb => if ma = 0 then qnan else infinity (na != nb)
  | .fin na ma, .fin nb mb => packRound (na != nb) (ma * mb) (2 ^ 149)

/-- `fdiv` (R80). The quotient ma/mb is ma * 2^149 / mb units of 2^-149. -/
def fdiv (a b : Word) : Word :=
  match classify a, classify b with
  | .nan, _ => qnan
  | _, .nan => qnan
  | .inf _, .inf _ => qnan
  | .inf na, .fin nb _ => infinity (na != nb)
  | .fin na _, .inf nb => zero (na != nb)
  | .fin na ma, .fin nb mb =>
    if mb = 0 then (if ma = 0 then qnan else infinity (na != nb))
    else packRound (na != nb) (ma * 2 ^ 149) mb

/-- The integer square root below `r + 2^k`, one bit at a time from bit k - 1 down. -/
def isqrtFrom (n : Nat) : Nat → Nat → Nat
  | 0, r => r
  | k + 1, r => if (r + 2 ^ k) * (r + 2 ^ k) ≤ n then isqrtFrom n k (r + 2 ^ k) else isqrtFrom n k r

/-- The largest natural whose square is at most n. -/
def isqrt (n : Nat) : Nat := isqrtFrom n (Nat.log2 n / 2 + 1) 0

/-- The square root of a positive finite value: the square root of mag * 2^149, in units of 2^-149, rounded once. It has at
least 75 bits before the point, so where it is not an integer r it rounds as r + 1/2 does. -/
def sqrtFin (mag : Nat) : Word :=
  let n := mag * 2 ^ 149
  let r := isqrt n
  if r * r = n then packRound false r 1 else packRound false (2 * r + 1) 2

/-- `fsqrt` (R81). -/
def fsqrt (a : Word) : Word :=
  match classify a with
  | .nan => qnan
  | .inf true => qnan
  | .inf false => infinity false
  | .fin neg mag => if mag = 0 then zero neg else if neg then qnan else sqrtFin mag

/-- The order of two values, no NaN among them (R82). -/
def leVal : FVal → FVal → Bool
  | .nan, _ => false
  | _, .nan => false
  | .inf true, _ => true
  | _, .inf false => true
  | .inf false, _ => false
  | _, .inf true => false
  | .fin na ma, .fin nb mb => signed na ma ≤ signed nb mb

/-- `fle` (R82): false whenever an operand is NaN; -0 equals +0. -/
def fle (a b : Word) : Bool := leVal (classify a) (classify b)

/-- `fcvt_u8` (R83): a sample 0..255 widened to the binary32 of the same value. -/
def fcvtU8 (n : Byte) : Word := packRound false (n.toNat * 2 ^ 149) 1

/-- The binary32 nearest to a decimal (-1)^neg * num/den, ties to even (R77). -/
def nearest (neg : Bool) (num den : Nat) : Word := packRound neg (num * 2 ^ 149) den

end Sys2Proof.Machine
end

