-- ==== Sys2Proof/Machine/Literals.lean ====
section
/-! DEFINITION. The binary32 constants of the datapath, the patterns of the table of 40_numerics.md R77. Each name says the
decimal it holds (`l0_299` is 0.299). -/

namespace Sys2Proof.Machine.Lit

/-! TOYCBCR (41_toycbcr.md R90). -/
def l0_299 : Word := 0x3E991687#32
def l0_587 : Word := 0x3F1645A2#32
def l0_114 : Word := 0x3DE978D5#32
def l128 : Word := 0x43000000#32
def l0_168736 : Word := 0x3E2CC921#32
def l0_331264 : Word := 0x3EA99B6F#32
def l0_5 : Word := 0x3F000000#32
def l0_418688 : Word := 0x3ED65E46#32
def l0_081312 : Word := 0x3DA686E8#32

/-! Normalising and scaling. -/
def l255 : Word := 0x437F0000#32

/-! gammaForward (42_gamma.md R97). -/
def l0_2 : Word := 0x3E4CCCCD#32
def l0_6 : Word := 0x3F19999A#32
def l0_125 : Word := 0x3E000000#32
def l0_025 : Word := 0x3CCCCCCD#32

/-! gammaReverse (42_gamma.md R100). -/
def l0_04 : Word := 0x3D23D70A#32
def l0_31 : Word := 0x3E9EB852#32
def l6400 : Word := 0x45C80000#32
def l135 : Word := 0x43070000#32
def l5 : Word := 0x40A00000#32
def l80 : Word := 0x42A00000#32
def l256 : Word := 0x43800000#32
def l33 : Word := 0x42040000#32
def l1 : Word := 0x3F800000#32
def l16 : Word := 0x41800000#32

/-! The fixed XYZ to RGB matrix (44_torgbfromxyz.md R113). A negative coefficient is the table's with the sign bit set. -/
def l3_2406 : Word := 0x404F65FE#32
def l1_5372 : Word := 0x3FC4C2F8#32
def l0_4986 : Word := 0x3EFF4880#32
def ln0_9689 : Word := 0xBF7809D5#32
def l1_8758 : Word := 0x3FF01A37#32
def l0_0415 : Word := 0x3D29FBE7#32
def l0_0557 : Word := 0x3D6425AF#32
def l0_2040 : Word := 0x3E50E560#32
def l1_0570 : Word := 0x3F874BC7#32

end Sys2Proof.Machine.Lit
end

