-- ==== Sys2Proof/Machine/Gamma.lean ====
section
/-! DEFINITION. The gamma helper functions (42_gamma.md R96 to R103): datapath functions that no command exposes. -/

namespace Sys2Proof.Machine

/-- Branch A of gammaForward: v*v (R97). -/
def gammaForwardA (v : Word) : Word := fmul v v

/-- Branch B of gammaForward: ((v*v) - (0.125f*v)) + 0.025f (R97). -/
def gammaForwardB (v : Word) : Word := fadd (fsub (fmul v v) (fmul Lit.l0_125 v)) Lit.l0_025

/-- Branch C of gammaForward: ((v*v) + (0.125f*v)) - 0.125f (R97). -/
def gammaForwardC (v : Word) : Word := fsub (fadd (fmul v v) (fmul Lit.l0_125 v)) Lit.l0_125

/-- `gammaForward` (R97): NaN takes branch C. -/
def gammaForward (v : Word) : Word :=
  if fle v Lit.l0_2 then gammaForwardA v
  else if fle v Lit.l0_6 then gammaForwardB v
  else gammaForwardC v

/-- Branch A of gammaReverse: fsqrt(v) (R100). -/
def gammaReverseA (v : Word) : Word := fsqrt v

/-- Branch B of gammaReverse: (fsqrt((6400f*v) - 135f) + 5f) / 80f (R100). -/
def gammaReverseB (v : Word) : Word :=
  fdiv (fadd (fsqrt (fsub (fmul Lit.l6400 v) Lit.l135)) Lit.l5) Lit.l80

/-- Branch C of gammaReverse: (fsqrt((256f*v) + 33f) - 1f) / 16f (R100). At v = 0x3F800001 it gives exactly 1.0, where R102
infers a value above 1 for every v > 1 (DEDUCED, log entry 28). -/
def gammaReverseC (v : Word) : Word :=
  fdiv (fsub (fsqrt (fadd (fmul Lit.l256 v) Lit.l33)) Lit.l1) Lit.l16

/-- `gammaReverse` (R100): NaN takes branch C. -/
def gammaReverse (v : Word) : Word :=
  if fle v Lit.l0_04 then gammaReverseA v
  else if fle v Lit.l0_31 then gammaReverseB v
  else gammaReverseC v

end Sys2Proof.Machine
end

