-- ==== Sys2Proof/Config.lean ====
section
/-! DEFINITION. The free values: what the spec leaves at "any value" (93_implementation_defined.md U8 to U11). They are
constants without a body, so that no proof can know one of them. Every other parameter of 00_scope.md R11 has the value
the spec gives it and stands where it is used. -/

namespace Sys2Proof

/-- The value register number `slot` holds after draw number `draw`, where the spec says the register holds no defined
value: after a reset (R30, R138), in `IDLE` (R15, U9), and for a register the accepted format does not supply (R21, U11).
Log entry 5. -/
opaque Config.freeReg (draw slot : Nat) : BitVec 32

/-- The byte at address `addr` after draw number `draw`, where the spec says the byte holds any value: the write footprint of
a command abandoned by a reset (R139, U10) and a freshly allocated region (R52, U8). Log entry 6. -/
opaque Config.freeByte (draw addr : Nat) : BitVec 8

end Sys2Proof
end

