-- ==== Sys2Proof/Syntax.lean ====
section
/-! DEFINITION. The commands of CSC-1 (00_scope.md R3; 30_encoding.md R59 to R61), one constructor per row of
opcode_table.json. -/

namespace Sys2Proof

/-- The nine matrix coefficients `M[0]` to `M[8]`, binary32 patterns, row-major: `M[3*r + c]` is row r (X, Y, Z), column c
(R, G, B) (R60, R63). -/
structure Coeffs where
  m0 : Word
  m1 : Word
  m2 : Word
  m3 : Word
  m4 : Word
  m5 : Word
  m6 : Word
  m7 : Word
  m8 : Word
deriving DecidableEq, Repr

/-- A command with its operands, in packet order. -/
inductive Instr where
  /-- Format U (R59): RGB to Y'CbCr in place over bytes. -/
  | toycbcr (buf npix : Word)
  /-- Format M (R60): RGB to XYZ in place over binary32 elements, with the matrix of the packet. -/
  | toxyz (buf npix : Word) (mat : Coeffs)
  /-- Format D (R61): XYZ (binary32) at `inp` to RGB bytes at `out`. -/
  | torgbfromxyz (inp out npix : Word)
deriving DecidableEq, Repr

end Sys2Proof
end

