-- ==== Sys2Proof/WellFormed.lean ====
section
/-! DEFINITION. Which packets are legal (30_encoding.md R65) and which commands are well formed (R62, R63). -/

namespace Sys2Proof

/-- A legal packet: one row of the table of R65, which looks at `W0` (all 32 bits) and the length alone. -/
def Packet.legal (p : Packet) : Bool :=
  match p with
  | [] => false
  | w0 :: _ =>
    (w0 == 0x00000001#32 && p.length == 3) ||
    (w0 == 0x00000002#32 && p.length == 12) ||
    (w0 == 0x00000003#32 && p.length == 4)

/-- No operand value makes a command ill formed: every address and count decodes (R62) and so does every coefficient
pattern (R63). What can be ill formed is a packet (`Packet.legal`). -/
def Instr.wellFormed : Instr → Bool
  | .toycbcr _ _ => true
  | .toxyz _ _ _ => true
  | .torgbfromxyz _ _ _ => true

end Sys2Proof
end

