-- ==== Sys2Proof/Decode.lean ====
section
/-! DEFINITION. The decoder, total on any list of words and rejecting by name, and the encoder (30_encoding.md R57 to R66). -/

namespace Sys2Proof

/-- Why a packet is illegal (R66). All four are the one violation `IllegalCommand`; the names are the decoder's. -/
inductive Illegal where
  /-- No word at all. -/
  | empty
  /-- `MBZ`, bits 31:8 of the header, is not zero. -/
  | mbzNonZero (mbz : BitVec 24)
  /-- `OPC` is 0x00 or 0x04 to 0xFF. -/
  | reservedOpcode (opc : BitVec 8)
  /-- The length does not match the format's. -/
  | wrongLength (got want : Nat)
deriving DecidableEq, Repr

/-- `OPC`, bits 7:0 of the header (R58). -/
def headerOpc (w0 : Word) : BitVec 8 := w0.extractLsb' 0 8

/-- `MBZ`, bits 31:8 of the header (R58). -/
def headerMbz (w0 : Word) : BitVec 24 := w0.extractLsb' 8 24

/-- Format U (R59): `W1` is `BUF`, `W2` is `NPIX`. -/
def decodeU : List Word → Except Illegal Instr
  | [buf, npix] => .ok (.toycbcr buf npix)
  | ws => .error (.wrongLength (ws.length + 1) 3)

/-- Format M (R60): `W1` is `BUF`, `W2` is `NPIX`, `W3` to `W11` are `MAT0` to `MAT8`. -/
def decodeM : List Word → Except Illegal Instr
  | [buf, npix, m0, m1, m2, m3, m4, m5, m6, m7, m8] =>
    .ok (.toxyz buf npix ⟨m0, m1, m2, m3, m4, m5, m6, m7, m8⟩)
  | ws => .error (.wrongLength (ws.length + 1) 12)

/-- Format D (R61): `W1` is `IN`, `W2` is `OUT`, `W3` is `NPIX`. -/
def decodeD : List Word → Except Illegal Instr
  | [inp, out, npix] => .ok (.torgbfromxyz inp out npix)
  | ws => .error (.wrongLength (ws.length + 1) 4)

/-- The decoder (R64, R65): the header's `MBZ` must be zero, its `OPC` selects the format, the length must be the
format's. It depends on no state of the block (R67). -/
def decode : Packet → Except Illegal Instr
  | [] => .error .empty
  | w0 :: ws =>
    if headerMbz w0 ≠ 0#24 then .error (.mbzNonZero (headerMbz w0))
    else if headerOpc w0 = 0x01#8 then decodeU ws
    else if headerOpc w0 = 0x02#8 then decodeM ws
    else if headerOpc w0 = 0x03#8 then decodeD ws
    else .error (.reservedOpcode (headerOpc w0))

/-- `OPC` of a command (R64). -/
def Instr.opcode : Instr → BitVec 8
  | .toycbcr _ _ => 0x01#8
  | .toxyz _ _ _ => 0x02#8
  | .torgbfromxyz _ _ _ => 0x03#8

/-- The header word of a command: `MBZ` zero above `OPC` (R58, R64). -/
def Instr.header : Instr → Word
  | .toycbcr _ _ => 0x00000001#32
  | .toxyz _ _ _ => 0x00000002#32
  | .torgbfromxyz _ _ _ => 0x00000003#32

/-- The encoder: the packet of a command (R59 to R61). -/
def encode (i : Instr) : Packet :=
  match i with
  | .toycbcr buf npix => [i.header, buf, npix]
  | .toxyz buf npix m => [i.header, buf, npix, m.m0, m.m1, m.m2, m.m3, m.m4, m.m5, m.m6, m.m7, m.m8]
  | .torgbfromxyz inp out npix => [i.header, inp, out, npix]

/-- How many words the format named by a header has (R64); 1 for a header that names none. -/
def formatLength (w0 : Word) : Nat :=
  if w0 = 0x00000001#32 then 3
  else if w0 = 0x00000002#32 then 12
  else if w0 = 0x00000003#32 then 4
  else 1

/-- `n` words of a number, the least significant first. -/
def wordsOfNat : Nat → Nat → List Word
  | 0, _ => []
  | n + 1, w => BitVec.ofNat 32 w :: wordsOfNat n (w / 2 ^ 32)

/-- The packet whose bits are `w`, numbered as opcode_table.json numbers them (bit 0 is the least significant bit of `W0`, a
later word's bits count on): as many words as the header's format has (every bit above `nbits` zero), or as `nbits` fill
if those are more. The port delivers the length beside the words (R57); log entry 2. -/
def tablePacket (nbits w : Nat) : Packet :=
  wordsOfNat (max (formatLength (BitVec.ofNat 32 w)) ((nbits + 31) / 32)) w

/-- What the decoder reads from the packet whose bits are `w`. -/
def decodeTableWord (nbits w : Nat) : Option Instr :=
  (decode (tablePacket nbits w)).toOption

end Sys2Proof
end

