-- ==== Sys2Proof/Machine/State.lean ====
section
/-! DEFINITION. The state of the block, its ports, the memory it shares with the host, and what the host and the other
agents are about to do (10_state.md R12, R15 to R32). Plain data throughout. -/

namespace Sys2Proof.Machine

/-- `PHASE` (R20). -/
inductive Phase where
  | idle
  | busy
deriving DecidableEq, Repr

/-- The snapshot registers `S[0]`, `S[1]`, `S[2]` (R22). -/
structure Snapshot where
  s0 : Word
  s1 : Word
  s2 : Word
deriving DecidableEq, Repr

/-- The operand registers (R21), the snapshot registers (R22) and the pixel index (R23): everything whose value is dead
in `IDLE` (R15). -/
structure Regs where
  /-- `OP`: opcode of the latched command. -/
  op : BitVec 8
  /-- `A0`: address of the in-place buffer or of the input buffer. -/
  a0 : Word
  /-- `A1`: address of the output buffer. -/
  a1 : Word
  /-- `N`: pixel count. -/
  n : Word
  /-- `M[0]` to `M[8]`. -/
  m : Coeffs
  /-- `S[0]` to `S[2]`. -/
  snap : Snapshot
  /-- `PIX`: index of the next pixel. -/
  pix : Word
deriving DecidableEq, Repr

/-- A byte region the host owns (20_memory.md R40(a), R52): `[base, base + size)`. -/
structure Region where
  base : Nat
  size : Nat
deriving DecidableEq, Repr

/-- The agents beside the block (R12). -/
inductive Agent where
  | host
  | other
deriving DecidableEq, Repr

/-- What the world outside the block does, one at a time (60_exceptions.md R131). -/
inductive Input where
  /-- The block takes its next step before the following input lands. -/
  | block
  /-- `Present(p)` on `CMD` (R16). -/
  | present (p : Packet)
  /-- `Reset` on `RST` (R16, R137). -/
  | reset
  /-- `ReadStatus()` on `STS` (R25). -/
  | readStatus
  /-- An agent reads the byte at an address. -/
  | read (who : Agent) (addr : Word)
  /-- An agent writes the byte at an address. -/
  | write (who : Agent) (addr : Word) (v : Byte)
  /-- The host's allocator has given out a region (R52); its contents are unspecified. -/
  | allocated (base : Word) (size : Nat)
  /-- The host gives a region back (R53). -/
  | deallocate (base : Word) (size : Nat)
deriving DecidableEq, Repr

/-- What the host is given (R131, column "host gets back"). -/
inductive Reply where
  /-- The completion token, without payload (R18). -/
  | done
  /-- The result of `ReadStatus()` (R25). -/
  | status (w : Word)
  /-- The byte a host read returned. -/
  | data (addr : Word) (v : Byte)
deriving DecidableEq, Repr

/-- The whole state. -/
structure State where
  /-- `PHASE` (R20). -/
  phase : Phase
  /-- `OP`, `A0`, `A1`, `N`, `M[0..8]`, `S[0..2]`, `PIX` (R21 to R23). -/
  regs : Regs
  /-- The packet held at `CMD`, if one is (R17, R32). -/
  cmd : Option Packet
  /-- Whether `RST` carries `Reset` (R30). -/
  rst : Bool
  /-- The bytes that differ from what an unlisted address reads as, addresses strictly rising (R33). -/
  mem : List Host.Cell
  /-- The regions the host owns (R40(a), R52 to R54). -/
  owned : List Region
  /-- The regions the host has given back (R53). -/
  released : List Region
  /-- What the host and the other agents will do, the next input first. The model's own field: log entry 7. -/
  env : List Input
  /-- What the host has been given on `RSP`, `STS` and from memory, newest first (R18, R25, R131). -/
  replies : List Reply
  /-- How many packets the host has presented on `CMD` (R132). The model's own field: log entry 23. -/
  presented : Nat
  /-- How many times free values have been drawn. The model's own field: log entry 5. -/
  draws : Nat
deriving DecidableEq, Repr

/-- Why the machine stops. The hardware reports none of these; the spec gives the rest of the run no meaning (R121, R122), so
every one of them is safe. -/
inductive Fault where
  /-- A footprint interval is not wholly inside one owned region, or passes 2^32 (R40, R121). Raised by a packet's presentation,
  by a command's acceptance and later steps, and by a `deallocate` under a held packet or a running command. Safe. -/
  | bufferRange
  /-- A float buffer's base is not a multiple of 4 while N > 0 (R42). Raised as `bufferRange`. Safe. -/
  | misaligned
  /-- TORGBFROMXYZ's two buffers meet while N > 0 (R56). Raised as `bufferRange`. Safe. -/
  | overlap
  /-- Another agent touched the write footprint, or wrote the read footprint, of the command that runs (R47) or of the packet
  held at `CMD` (R131; log entry 25). Raised by the inputs `read` and `write`. Safe. -/
  | concurrentAccess
  /-- The packet accepted is not legal (R66). Raised by the accept step. Safe. -/
  | illegalCommand
  /-- `BUSY`, and neither R28 nor R29 enables a step: PIX > N, or PIX < N with a reserved `OP`. No run reaches such a state
  (R23, R27). Raised by the block's step. Safe; log entry 17. -/
  | noEnabledStep
deriving DecidableEq, Repr

/-- What the model gives no meaning. -/
inductive Refusal where
  /-- An instruction without a meaning yet, by its mnemonic; raised by exec alone. Safe. -/
  | notModelled (mnemonic : String)
  /-- The host frees what is not an owned region with its original size, or an agent reads or writes a byte of a region given
  back (R53, `AllocatorMisuse` of R121). Raised by the inputs `deallocate`, `read` and `write`. The allocator is outside the
  hardware (R8); treatment "refuse" (U6). Safe; log entry 26. -/
  | allocatorMisuse
  /-- An allocation outcome that the allocator's contract (R52) excludes: past 2^32, or over a region somebody owns. Raised
  by the input `allocated`. Safe. -/
  | allocatorOutcome
deriving DecidableEq, Repr

/-- The machine right after reset (R32): `IDLE`, nothing held, nothing pending. The registers' values are unspecified there;
zero is the model's choice (log entry 3). -/
def State.reset : State where
  phase := .idle
  regs :=
    { op := 0#8, a0 := 0#32, a1 := 0#32, n := 0#32,
      m := ⟨0#32, 0#32, 0#32, 0#32, 0#32, 0#32, 0#32, 0#32, 0#32⟩,
      snap := ⟨0#32, 0#32, 0#32⟩, pix := 0#32 }
  cmd := none
  rst := false
  mem := []
  owned := []
  released := []
  env := []
  replies := []
  presented := 0
  draws := 0

end Sys2Proof.Machine
end

