-- ==== Sys2Proof/Machine/Ops.lean ====
section
/-! DEFINITION. Memory as plain data in one canonical form, element accesses and their byte order (20_memory.md R33, R36,
R43, R44), and the named updates of the registers and the memory. -/

namespace Sys2Proof.Machine

/-! ## Memory -/

/-- What an address that nothing has written reads as. DESIGN CHOICE, log entry 4. -/
def unlistedByte : Byte := 0x00#8

/-- The byte at an address: `MemRead(addr, 1)` (R14, R44). -/
def readByte : List Host.Cell → Nat → Byte
  | [], _ => unlistedByte
  | c :: t, a => if c.1 = a then c.2 else readByte t a

/-- A cell put in front of the first higher address. -/
def insertCell (a : Nat) (v : Byte) : List Host.Cell → List Host.Cell
  | [] => [(a, v)]
  | c :: t => if a < c.1 then (a, v) :: c :: t else c :: insertCell a v t

/-- The memory without an entry for an address. -/
def eraseCell (a : Nat) : List Host.Cell → List Host.Cell
  | [] => []
  | c :: t => if c.1 = a then eraseCell a t else c :: eraseCell a t

/-- The memory with one byte written: `MemWrite(addr, 1, v)` (R14, R44). Writing what an unlisted address reads as removes the
entry, so the form stays canonical. -/
def writeByte (mem : List Host.Cell) (a : Nat) (v : Byte) : List Host.Cell :=
  if v = unlistedByte then eraseCell a mem else insertCell a v (eraseCell a mem)

/-- The canonical form: addresses strictly rising, and no entry equal to what an unlisted address reads as. -/
def memWf : List Host.Cell → Bool
  | [] => true
  | c :: t => c.2 != unlistedByte && t.all (fun d => c.1 < d.1) && memWf t

/-- Every listed address exists (R33). -/
def memBounded (mem : List Host.Cell) : Bool := mem.all (fun c => c.1 < 2 ^ 32)

/-- `MemRead(addr, 4)`: little-endian (R36). -/
def read32 (mem : List Host.Cell) (a : Nat) : Word :=
  readByte mem (a + 3) ++ readByte mem (a + 2) ++ readByte mem (a + 1) ++ readByte mem a

/-- `MemWrite(addr, 4, v)`: `v[7:0]` at the address, the higher bytes above it (R36). -/
def write32 (mem : List Host.Cell) (a : Nat) (v : Word) : List Host.Cell :=
  writeByte (writeByte (writeByte (writeByte mem
    a (v.extractLsb' 0 8)) (a + 1) (v.extractLsb' 8 8)) (a + 2) (v.extractLsb' 16 8)) (a + 3) (v.extractLsb' 24 8)

/-- Every byte of `[base, base + len)` given a free value of one draw (R139, R52). -/
def fillFree (draw base : Nat) : Nat → List Host.Cell → List Host.Cell
  | 0, mem => mem
  | len + 1, mem => writeByte (fillFree draw base len mem) (base + len) (Config.freeByte draw (base + len))

/-! ## Registers -/

/-- Registers that hold no defined value: every one a free value of one draw (R15, R138, U9). -/
def Regs.free (draw : Nat) : Regs where
  op := (Config.freeReg draw 0).setWidth 8
  a0 := Config.freeReg draw 1
  a1 := Config.freeReg draw 2
  n := Config.freeReg draw 3
  m :=
    { m0 := Config.freeReg draw 4, m1 := Config.freeReg draw 5, m2 := Config.freeReg draw 6,
      m3 := Config.freeReg draw 7, m4 := Config.freeReg draw 8, m5 := Config.freeReg draw 9,
      m6 := Config.freeReg draw 10, m7 := Config.freeReg draw 11, m8 := Config.freeReg draw 12 }
  snap := ⟨Config.freeReg draw 13, Config.freeReg draw 14, Config.freeReg draw 15⟩
  pix := Config.freeReg draw 16

/-- The registers an accepted command is latched into (R27, R59 to R61): `OP`, the operands its format supplies, and
`PIX` zero; the others hold no defined value (R21), which `r` stands for. -/
def Regs.latch (i : Instr) (r : Regs) : Regs :=
  match i with
  | .toycbcr buf npix => { r with op := i.opcode, a0 := buf, n := npix, pix := 0#32 }
  | .toxyz buf npix mat => { r with op := i.opcode, a0 := buf, n := npix, m := mat, pix := 0#32 }
  | .torgbfromxyz inp out npix => { r with op := i.opcode, a0 := inp, a1 := out, n := npix, pix := 0#32 }

/-- The latched command, read back from `OP` and the operand registers (R21, R28); none for a reserved `OP`. -/
def Regs.latched (r : Regs) : Option Instr :=
  if r.op = 0x01#8 then some (.toycbcr r.a0 r.n)
  else if r.op = 0x02#8 then some (.toxyz r.a0 r.n r.m)
  else if r.op = 0x03#8 then some (.torgbfromxyz r.a0 r.a1 r.n)
  else none

/-- The snapshot registers loaded and three output elements stored by one pixel step (R28): the snapshot, then the memory. -/
def State.pixelDone (s : State) (snap : Snapshot) (mem : List Host.Cell) : State :=
  { s with regs := { s.regs with snap := snap }, mem := mem }

/-- `PIX <- PIX + 1` (R23, R28). -/
def State.nextPixel (s : State) : State :=
  { s with regs := { s.regs with pix := s.regs.pix + 1#32 } }

/-- A command accepted (R27): latched, `PIX` zero, `BUSY`. No memory access. -/
def State.accept (s : State) (i : Instr) : State :=
  { s with phase := .busy, regs := (Regs.free s.draws).latch i, draws := s.draws + 1 }

/-- A command completed (R29): one `DONE`, `IDLE`. The registers are dead from here on (R15, R21). -/
def State.complete (s : State) : State :=
  { s with phase := .idle, regs := Regs.free s.draws, replies := .done :: s.replies, draws := s.draws + 1 }

/-- The packet at `CMD` consumed (R27). -/
def State.takePacket (s : State) : State := { s with cmd := none }

end Sys2Proof.Machine
end

