-- ==== Sys2Proof/Machine/Operands.lean ====
section
/-! DEFINITION. Element addresses, footprints and the caller's preconditions of every command (20_memory.md R37 to R42,
R47, R55, R56; 60_exceptions.md R121), and the three reads and three writes of a pixel step (R43, R49). -/

namespace Sys2Proof.Machine

/-! ## Element addresses: exact sums of naturals (R13, R88) -/

/-- Channel c of pixel i in a byte-encoded buffer at b (R37). -/
def ea8 (b i c : Nat) : Nat := b + 3 * i + c

/-- Channel c of pixel i in a float-encoded buffer at b (R38). -/
def ea32 (b i c : Nat) : Nat := b + 4 * (3 * i + c)

/-! ## Footprints -/

/-- The interval `[base, base + len)`. -/
structure Span where
  base : Nat
  len : Nat
deriving DecidableEq, Repr

/-- Whether an address lies in a span. -/
def Span.has (p : Span) (a : Nat) : Bool := p.base ≤ a && a < p.base + p.len

/-- Whether two spans have an address in common. -/
def Span.meets (p q : Span) : Bool :=
  p.len != 0 && q.len != 0 && p.base < q.base + q.len && q.base < p.base + p.len

/-- The read footprint (R39). -/
def readSpan : Instr → Span
  | .toycbcr buf npix => ⟨buf.toNat, 3 * npix.toNat⟩
  | .toxyz buf npix _ => ⟨buf.toNat, 12 * npix.toNat⟩
  | .torgbfromxyz inp _ npix => ⟨inp.toNat, 12 * npix.toNat⟩

/-- The write footprint (R39). -/
def writeSpan : Instr → Span
  | .toycbcr buf npix => ⟨buf.toNat, 3 * npix.toNat⟩
  | .toxyz buf npix _ => ⟨buf.toNat, 12 * npix.toNat⟩
  | .torgbfromxyz _ out npix => ⟨out.toNat, 3 * npix.toNat⟩

/-! ## Preconditions -/

/-- Whether a footprint interval lies inside one owned region and does not pass 2^32 (R40). An empty footprint asks nothing
(R29, R39; 95_test_vectors.md V-Y12). -/
def covered (owned : List Region) (p : Span) : Bool :=
  p.len == 0 ||
    (p.base + p.len ≤ 2 ^ 32 && owned.any (fun r => r.base ≤ p.base && p.base + p.len ≤ r.base + r.size))

/-- Alignment of a float buffer's base (R41): a multiple of 4, asked only when N > 0. -/
def aligned (base npix : Word) : Bool := npix == 0#32 || base.extractLsb' 0 2 == 0#2

/-- The contract violation a command's operands commit, if any (R40, R42, R56, R121). Where several hold, the first of this
order is recorded (R126, U12; log entry 10). -/
def breach (owned : List Region) (i : Instr) : Option Fault :=
  match i with
  | .toycbcr _ _ => if covered owned (readSpan i) then none else some .bufferRange
  | .toxyz buf npix _ =>
    if !covered owned (readSpan i) then some .bufferRange
    else if !aligned buf npix then some .misaligned
    else none
  | .torgbfromxyz inp _ npix =>
    if !(covered owned (readSpan i) && covered owned (writeSpan i)) then some .bufferRange
    else if !aligned inp npix then some .misaligned
    else if (readSpan i).meets (writeSpan i) then some .overlap
    else none

/-- The command that runs: the latched one while `BUSY` (R21, R47). -/
def State.runningCmd (s : State) : Option Instr :=
  match s.phase with
  | .idle => none
  | .busy => s.regs.latched

/-- The command of a legal packet held at `CMD` (R17), whose footprint the host handed over by presenting it (R131). -/
def State.heldCmd (s : State) : Option Instr := s.cmd.bind (fun p => (decode p).toOption)

/-- Whether an access touches what a command holds exclusively (R47): any access to its write footprint, a write to its read
footprint. -/
def touches (write : Bool) (a : Nat) (i : Instr) : Bool := (writeSpan i).has a || (write && (readSpan i).has a)

/-- Whether an agent's access to an address breaks the exclusivity of the running command (R47), or of the held one, whose
footprint is handed over from presentation on (R131; DEDUCED, log entry 25). -/
def intrudes (s : State) (write : Bool) (a : Nat) : Bool :=
  s.runningCmd.any (touches write a) || s.heldCmd.any (touches write a)

/-- Whether an address lies in one of some regions. -/
def regionsHave (rs : List Region) (a : Nat) : Bool := rs.any (fun r => Span.has ⟨r.base, r.size⟩ a)

/-- Whether an address lies in a region given back and in none owned since (R53). -/
def releasedAt (s : State) (a : Nat) : Bool := regionsHave s.released a && !regionsHave s.owned a

/-! ## The reads and writes of a pixel step -/

/-- The three samples of pixel i of a byte-encoded buffer, channel order 0, 1, 2, each widened with zeros (R22, R91). -/
def snapshot8 (mem : List Host.Cell) (b i : Nat) : Snapshot :=
  ⟨(readByte mem (ea8 b i 0)).setWidth 32, (readByte mem (ea8 b i 1)).setWidth 32,
    (readByte mem (ea8 b i 2)).setWidth 32⟩

/-- The three elements of pixel i of a float-encoded buffer, channel order 0, 1, 2 (R22, R106, R114). -/
def snapshot32 (mem : List Host.Cell) (b i : Nat) : Snapshot :=
  ⟨read32 mem (ea32 b i 0), read32 mem (ea32 b i 1), read32 mem (ea32 b i 2)⟩

/-- The three byte outputs of a pixel. -/
structure Out8 where
  c0 : Byte
  c1 : Byte
  c2 : Byte
deriving DecidableEq, Repr

/-- The three float outputs of a pixel, as patterns. -/
structure Out32 where
  c0 : Word
  c1 : Word
  c2 : Word
deriving DecidableEq, Repr

/-- Three byte writes to pixel i of a buffer, channel order 0, 1, 2 (R49). -/
def storePixel8 (mem : List Host.Cell) (b i : Nat) (o : Out8) : List Host.Cell :=
  writeByte (writeByte (writeByte mem (ea8 b i 0) o.c0) (ea8 b i 1) o.c1) (ea8 b i 2) o.c2

/-- Three float writes to pixel i of a buffer, channel order 0, 1, 2 (R49). -/
def storePixel32 (mem : List Host.Cell) (b i : Nat) (o : Out32) : List Host.Cell :=
  write32 (write32 (write32 mem (ea32 b i 0) o.c0) (ea32 b i 1) o.c1) (ea32 b i 2) o.c2

/-! ## The steps every command runs through -/

/-- The block's step for a `BUSY` state (R28, R29): the pixel rule while `PIX < N`, then `PIX <- PIX + 1`; completion when
`PIX = N`. `PIX > N` occurs in no run (R23). -/
def advance (pixel : State → State) (s : State) : Host.Outcome State Fault Refusal :=
  if s.regs.pix < s.regs.n then .next (pixel s).nextPixel
  else if s.regs.pix = s.regs.n then .next s.complete
  else .fault .noEnabledStep

/-- One step of the block on behalf of command `i`, whose pixel rule is `pixel` (R27 to R29). In `IDLE` the command is
accepted. In `BUSY`, if it is the latched command, its pixel step or its completion is taken; if another command is latched,
it is held and nothing changes (R17). A command that breaks its contract faults, at acceptance and at every later step
(R121, R122; log entries 1, 10, 18). -/
def commandStep (i : Instr) (pixel : State → State) (s : State) : Host.Outcome State Fault Refusal :=
  match s.phase with
  | .idle =>
    match breach s.owned i with
    | some f => .fault f
    | none => .next (s.accept i)
  | .busy =>
    if s.regs.latched = some i then
      match breach s.owned i with
      | some f => .fault f
      | none => advance pixel s
    else .next s

end Sys2Proof.Machine
end

