-- ==== Sys2Proof/Machine/Quantizer.lean ====
section
/-! DEFINITION. The quantizer Q8, the source's rounding and clamp helper (40_numerics.md R84, R85). -/

namespace Sys2Proof.Machine

/-- floor(|x| + 1/2) for a magnitude in units of 2^-149, on the exact value (R84). -/
def roundHalfUp (mag : Nat) : Nat := (mag + 2 ^ 148) / 2 ^ 149

/-- `RHA` (R84): round to the nearest integer, ties away from zero. -/
def rha (neg : Bool) (mag : Nat) : Int := signed neg (roundHalfUp mag)

/-- An integer saturated into 0..255 and narrowed (R84). -/
def saturate (r : Int) : Byte :=
  if r < 0 then 0#8 else if r > 255 then 255#8 else BitVec.ofNat 8 r.toNat

/-- `Q8` (R84). -/
def q8 (x : Word) : Byte :=
  match classify x with
  | .nan => 0#8
  | .inf false => 255#8
  | .inf true => 0#8
  | .fin neg mag => saturate (rha neg mag)

end Sys2Proof.Machine
end

