-- ==== Sys2Proof/Machine/Torgbfromxyz.lean ====
section
/-! DEFINITION. TORGBFROMXYZ, CIE XYZ (floats) to 8-bit RGB, buffer to buffer (44_torgbfromxyz.md R111 to R118). -/

namespace Sys2Proof.Machine

/-- rlin (R114): ((3.2406f*x) - (1.5372f*y)) - (0.4986f*z). -/
def linR (x y z : Word) : Word :=
  fsub (fsub (fmul Lit.l3_2406 x) (fmul Lit.l1_5372 y)) (fmul Lit.l0_4986 z)

/-- glin (R114): (((-0.9689f)*x) + (1.8758f*y)) + (0.0415f*z). -/
def linG (x y z : Word) : Word :=
  fadd (fadd (fmul Lit.ln0_9689 x) (fmul Lit.l1_8758 y)) (fmul Lit.l0_0415 z)

/-- blin (R114): ((0.0557f*x) - (0.2040f*y)) + (1.0570f*z). -/
def linB (x y z : Word) : Word :=
  fadd (fsub (fmul Lit.l0_0557 x) (fmul Lit.l0_2040 y)) (fmul Lit.l1_0570 z)

/-- A linear value gamma-encoded, scaled by 255 and quantized (R114). -/
def encode8 (v : Word) : Byte := q8 (fmul (gammaReverse v) Lit.l255)

/-- The three output bytes R, G, B from the snapshot alone (R114). -/
def torgbOut (p : Snapshot) : Out8 :=
  ⟨encode8 (linR p.s0 p.s1 p.s2), encode8 (linG p.s0 p.s1 p.s2), encode8 (linB p.s0 p.s1 p.s2)⟩

/-- The pixel rule (R114) for i = PIX: three element reads at A0 into `S`, then three byte writes at A1. -/
def pixelTorgbfromxyz (s : State) : State :=
  let snap := snapshot32 s.mem s.regs.a0.toNat s.regs.pix.toNat
  s.pixelDone snap (storePixel8 s.mem s.regs.a1.toNat s.regs.pix.toNat (torgbOut snap))

/-- TORGBFROMXYZ (R111): one step of the block on behalf of it. -/
def execTorgbfromxyz (inp out npix : Word) (s : State) : Host.Outcome State Fault Refusal :=
  commandStep (.torgbfromxyz inp out npix) pixelTorgbfromxyz s

end Sys2Proof.Machine
end

