-- ==== Sys2Proof/Machine/Toxyz.lean ====
section
/-! DEFINITION. TOXYZ, RGB (0 to 255, as floats) to CIE XYZ in place (43_toxyz.md R104 to R110). -/

namespace Sys2Proof.Machine

/-- A sample normalised by a true division by 255 and linearised (R106). -/
def linearise (v : Word) : Word := gammaForward (fdiv v Lit.l255)

/-- One row of a matrix applied to three channels: ((a*x) + (b*y)) + (c*z) (R106). For a black pixel a row of three coefficients
with the sign bit set gives -0 by R78 and R79, where R110 infers +0 (DEDUCED, log entry 19). -/
def matrixRow (a b c x y z : Word) : Word := fadd (fadd (fmul a x) (fmul b y)) (fmul c z)

/-- The three output patterns X, Y, Z from the snapshot and the coefficients alone (R106). -/
def toxyzOut (m : Coeffs) (p : Snapshot) : Out32 :=
  let rl := linearise p.s0
  let gl := linearise p.s1
  let bl := linearise p.s2
  ⟨matrixRow m.m0 m.m1 m.m2 rl gl bl, matrixRow m.m3 m.m4 m.m5 rl gl bl, matrixRow m.m6 m.m7 m.m8 rl gl bl⟩

/-- The pixel rule (R106) for i = PIX: three element reads into `S`, then three element writes to the same slots. -/
def pixelToxyz (s : State) : State :=
  let snap := snapshot32 s.mem s.regs.a0.toNat s.regs.pix.toNat
  s.pixelDone snap (storePixel32 s.mem s.regs.a0.toNat s.regs.pix.toNat (toxyzOut s.regs.m snap))

/-- TOXYZ (R104): one step of the block on behalf of it. -/
def execToxyz (buf npix : Word) (mat : Coeffs) (s : State) : Host.Outcome State Fault Refusal :=
  commandStep (.toxyz buf npix mat) pixelToxyz s

end Sys2Proof.Machine
end

