-- ==== Sys2Proof/Machine/Toycbcr.lean ====
section
/-! DEFINITION. TOYCBCR, RGB to Y'CbCr in place (41_toycbcr.md R89 to R95). -/

namespace Sys2Proof.Machine

/-- accY (R91): ((0.299f*r) + (0.587f*g)) + (0.114f*b). -/
def accY (r g b : Word) : Word := fadd (fadd (fmul Lit.l0_299 r) (fmul Lit.l0_587 g)) (fmul Lit.l0_114 b)

/-- accCb (R91): ((128f - (0.168736f*r)) - (0.331264f*g)) + (0.5f*b). -/
def accCb (r g b : Word) : Word :=
  fadd (fsub (fsub Lit.l128 (fmul Lit.l0_168736 r)) (fmul Lit.l0_331264 g)) (fmul Lit.l0_5 b)

/-- accCr (R91): ((128f + (0.5f*r)) - (0.418688f*g)) - (0.081312f*b). -/
def accCr (r g b : Word) : Word :=
  fsub (fsub (fadd Lit.l128 (fmul Lit.l0_5 r)) (fmul Lit.l0_418688 g)) (fmul Lit.l0_081312 b)

/-- The three output bytes Y', Cb, Cr from the snapshot alone (R91, R92). -/
def toycbcrOut (p : Snapshot) : Out8 :=
  let r := fcvtU8 (p.s0.setWidth 8)
  let g := fcvtU8 (p.s1.setWidth 8)
  let b := fcvtU8 (p.s2.setWidth 8)
  ⟨q8 (accY r g b), q8 (accCb r g b), q8 (accCr r g b)⟩

/-- The pixel rule (R91) for i = PIX: three byte reads into `S`, then three byte writes to the same bytes. -/
def pixelToycbcr (s : State) : State :=
  let snap := snapshot8 s.mem s.regs.a0.toNat s.regs.pix.toNat
  s.pixelDone snap (storePixel8 s.mem s.regs.a0.toNat s.regs.pix.toNat (toycbcrOut snap))

/-- TOYCBCR (R89): one step of the block on behalf of it. -/
def execToycbcr (buf npix : Word) (s : State) : Host.Outcome State Fault Refusal :=
  commandStep (.toycbcr buf npix) pixelToycbcr s

end Sys2Proof.Machine
end

