-- ==== Sys2Proof/Machine/Dispatch.lean ====
section
/-! DEFINITION. One arm per command: the block's step on behalf of it. -/

namespace Sys2Proof.Machine

def exec (i : Instr) (s : State) : Host.Outcome State Fault Refusal :=
  match i with
  | .toycbcr buf npix => Sys2Proof.Machine.execToycbcr buf npix s
  | .toxyz buf npix mat => Sys2Proof.Machine.execToxyz buf npix mat s
  | .torgbfromxyz inp out npix => Sys2Proof.Machine.execTorgbfromxyz inp out npix s

end Sys2Proof.Machine
end

