-- ==== Sys2Proof/Machine/Flags.lean ====
section
/-! DEFINITION. `STATUS`, the block's only control and status register (10_state.md R25). The block has no flags, condition
codes or predicates (R26), and the datapath keeps no floating-point exception flags (40_numerics.md R76), so no instruction
computes one. -/

namespace Sys2Proof.Machine

/-- `STATUS` (R25): bit 0 is `BUSY`, bits 31:1 read as 0. It follows `PHASE` and is read-only. -/
def State.status (s : State) : Word :=
  match s.phase with
  | .idle => 0x00000000#32
  | .busy => 0x00000001#32

end Sys2Proof.Machine
end

