-- ==== Sys2Proof/Machine/Block.lean ====
section
/-! DEFINITION. What a step of the whole system is made of: the block's step (10_state.md R27 to R29), the reset (R30;
70_reset_and_hazards.md R137 to R140), and the inputs from the host and the other agents (60_exceptions.md R131). -/

namespace Sys2Proof.Machine

/-! ## The block -/

/-- The block's step in `IDLE` (R27): a packet held at `CMD` is decoded; a legal one is consumed and accepted, an illegal one is
the violation `IllegalCommand` (R66). With no packet the block does nothing (R135). -/
def idleStep (s : State) : Host.Outcome State Fault Refusal :=
  match s.cmd with
  | none => .next s
  | some p =>
    match decode p with
    | .error _ => .fault .illegalCommand
    | .ok i => exec i s.takePacket

/-- The block's step in `BUSY` (R28, R29): the latched command's. With a reserved `OP`, which no acceptance latches, only
completion (R29) is enabled. -/
def busyStep (s : State) : Host.Outcome State Fault Refusal :=
  match s.regs.latched with
  | some i => exec i s
  | none => if s.regs.pix = s.regs.n then .next s.complete else .fault .noEnabledStep

/-- The block's step. -/
def blockStep (s : State) : Host.Outcome State Fault Refusal :=
  match s.phase with
  | .idle => idleStep s
  | .busy => busyStep s

/-! ## Reset -/

/-- Memory after a reset (R139): in `BUSY` every byte of the abandoned command's write footprint holds any value, everything
else is unchanged; in `IDLE` nothing changes. -/
def resetMem (s : State) : List Host.Cell :=
  match s.phase with
  | .idle => s.mem
  | .busy =>
    match s.regs.latched with
    | none => s.mem
    | some i => fillFree s.draws (writeSpan i).base (writeSpan i).len s.mem

/-- The reset step (R30, R138): `IDLE`, every other register any value, the held packet discarded, no `DONE`. -/
def resetStep (s : State) : State :=
  { s with
    phase := .idle, regs := Regs.free s.draws, cmd := none, rst := false, mem := resetMem s, draws := s.draws + 1 }

/-! ## Inputs -/

/-- A memory read by another agent (R47, R131): a violation inside the write footprint of the running or the held command, the
allocator's misuse in a region given back (R53, U6; log entry 26); otherwise memory is unchanged and the host is given what it
read. -/
def agentRead (who : Agent) (addr : Word) (s : State) : Host.Outcome State Fault Refusal :=
  if intrudes s false addr.toNat then .fault .concurrentAccess
  else if releasedAt s addr.toNat then .refused .allocatorMisuse
  else
    match who with
    | .host => .next { s with replies := .data addr (readByte s.mem addr.toNat) :: s.replies }
    | .other => .next s

/-- A memory write by another agent (R47, R131): a violation inside a footprint of the running or the held command, the
allocator's misuse in a region given back (R53, U6; log entry 26); otherwise the byte is stored. So no write to a footprint
falls between presentation and acceptance, where R48 promises nothing (log entry 25). -/
def agentWrite (_who : Agent) (addr : Word) (v : Byte) (s : State) : Host.Outcome State Fault Refusal :=
  if intrudes s true addr.toNat then .fault .concurrentAccess
  else if releasedAt s addr.toNat then .refused .allocatorMisuse
  else .next { s with mem := writeByte s.mem addr.toNat v }

/-- Whether a region can be the outcome of an allocation (R52): it exists whole and nobody owns a byte of it. A region of size
0, on which the spec is silent (91_not_in_source.md N10), is one at every base: DESIGN CHOICE, log entry 24. -/
def allocatable (owned : List Region) (base size : Nat) : Bool :=
  base + size ≤ 2 ^ 32 && owned.all (fun r => !(Span.meets ⟨base, size⟩ ⟨r.base, r.size⟩))

/-- The host obtains a region with unspecified contents (R52, U8). A footprint's region must have been obtained when the packet
is presented (R142; log entry 27). -/
def obtainRegion (base : Word) (size : Nat) (s : State) : Host.Outcome State Fault Refusal :=
  if allocatable s.owned base.toNat size then
    .next { s with
      owned := ⟨base.toNat, size⟩ :: s.owned, mem := fillFree s.draws base.toNat size s.mem, draws := s.draws + 1 }
  else .refused .allocatorOutcome

/-- The violation that the running command commits with the regions the host owns now, if any. -/
def runningBreach (s : State) : Option Fault := s.runningCmd.bind (breach s.owned)

/-- The violation that the command of the held packet commits with the regions the host owns now, if any. The host keeps every
precondition from presentation on (R131, R142; DEDUCED, log entry 27). -/
def heldBreach (s : State) : Option Fault := s.heldCmd.bind (breach s.owned)

/-- The violation that a command the host has presented and not seen completed commits with the regions owned now: the running
one's, else the held one's (R40(a), R131). -/
def standingBreach (s : State) : Option Fault := (runningBreach s).or (heldBreach s)

/-- `Present(p)` on an empty `CMD` (R16, R17): the packet is held. The host has handed its footprint over (R131), so a legal
packet whose contract is not kept is a violation here already (log entry 27); an illegal one is held until its acceptance
(R66). -/
def presentPacket (p : Packet) (s : State) : Host.Outcome State Fault Refusal :=
  match heldBreach { s with cmd := some p } with
  | some f => .fault f
  | none => .next { s with cmd := some p, presented := s.presented + 1 }

/-- The host frees a region with its original size (R53); anything else is the allocator's misuse (U6). Freeing what the
footprint of the running or the held command needs is `BufferRange`: the region is not owned for the whole command (R40, R121),
from presentation on (R131; log entry 27). -/
def freeRegion (base : Word) (size : Nat) (s : State) : Host.Outcome State Fault Refusal :=
  if s.owned.contains ⟨base.toNat, size⟩ then
    match standingBreach { s with owned := s.owned.erase ⟨base.toNat, size⟩ } with
    | some f => .fault f
    | none =>
      .next { s with owned := s.owned.erase ⟨base.toNat, size⟩, released := ⟨base.toNat, size⟩ :: s.released }
  else .refused .allocatorMisuse

/-- One input, the head of `env`, with `rest` after it. A packet presented while one is held waits, the block stepping
meanwhile (R17; log entry 8). -/
def inputStep (e : Input) (rest : List Input) (s : State) : Host.Outcome State Fault Refusal :=
  match e with
  | .block => blockStep { s with env := rest }
  | .present p =>
    match s.cmd with
    | none => presentPacket p { s with env := rest }
    | some _ => blockStep s
  | .reset => .next { s with env := rest, rst := true }
  | .readStatus => .next { s with env := rest, replies := .status s.status :: s.replies }
  | .read who addr => agentRead who addr { s with env := rest }
  | .write who addr v => agentWrite who addr v { s with env := rest }
  | .allocated base size => obtainRegion base size { s with env := rest }
  | .deallocate base size => freeRegion base size { s with env := rest }

/-- One step of the system: reset has priority over everything (R30, R126); then the next input; with none left, the
block's own step. -/
def systemStep (s : State) : Host.Outcome State Fault Refusal :=
  if s.rst then .next (resetStep s)
  else
    match s.env with
    | [] => blockStep s
    | e :: rest => inputStep e rest s

/-- The state with a packet presented, held at `CMD`, and nothing before its acceptance: `IDLE`, no reset, no input. -/
def presentNow (s : State) (p : Packet) : State :=
  { s with phase := .idle, cmd := some p, rst := false, env := [], presented := s.presented + 1 }

end Sys2Proof.Machine
end

