-- ==== Sys2Proof/Machine/Step.lean ====
section
/-! DEFINITION. The step, and how the host of the proofs puts a command where the next step takes it. -/

namespace Sys2Proof.Machine

/-- One step. -/
def step (s : State) : Host.Outcome State Fault Refusal := systemStep s

/-- The state in which the next step accepts the packet whose bits are `w` (log entry 2). -/
def State.withFetchWord (s : State) (nbits w : Nat) : State := presentNow s (tablePacket nbits w)

end Sys2Proof.Machine
end

