-- ==== Sys2Proof/Machine/Asm.lean ====
section
/-! DEFINITION. The assembler syntax of the spec (30_encoding.md R69 to R72): one line of text to a command and back. Text is a
list of characters. What the rules leave open about white space and letter case is in log entry 20. -/

namespace Sys2Proof.Machine

/-- Why a line does not assemble. -/
inductive AsmError where
  | unknownMnemonic
  | operandCount
  | badInteger
  | integerRange
  | badCoefficient
deriving DecidableEq, Repr

/-! ## Characters and pieces of a line -/

/-- White space inside a line. -/
def isBlank (c : Char) : Bool := c == ' ' || c == '\t' || c == '\r'

/-- The digits of one run of consecutive characters: the first has value `least`, and there are `count` of them. -/
structure DigitRun where
  first : Char
  count : Nat
  least : Nat
deriving DecidableEq, Repr

/-- The value of a character as a digit of a run, if it is one. -/
def DigitRun.value (d : DigitRun) (ch : Char) : Option Nat :=
  let place := ch.toNat - d.first.toNat
  if ch.toNat < d.first.toNat || d.count ≤ place then none else some (d.least + place)

/-- The ten decimal digits. -/
def decimalRun : DigitRun := ⟨'0', 10, 0⟩

/-- The runs of the hexadecimal digits, the letters in either case (log entry 20). -/
def hexRuns : List DigitRun := [decimalRun, ⟨'A', 6, 10⟩, ⟨'a', 6, 10⟩]

/-- A decimal digit's value (R70). -/
def decDigit : Char → Option Nat := decimalRun.value

/-- A hexadecimal digit's value (R70). -/
def hexDigit (ch : Char) : Option Nat := hexRuns.findSome? (fun d => d.value ch)

/-- A line without its comment: what stands before the first `#` (R69). -/
def dropComment (l : List Char) : List Char := l.takeWhile (fun c => c != '#')

/-- A piece of text without the white space around it. -/
def trimBlank (l : List Char) : List Char :=
  ((l.dropWhile isBlank).reverse.dropWhile isBlank).reverse

/-- A list cut at every comma. -/
def splitComma : List Char → List (List Char)
  | [] => [[]]
  | c :: t =>
    if c = ',' then [] :: splitComma t
    else
      match splitComma t with
      | [] => [[c]]
      | h :: r => (c :: h) :: r

/-- The number written by digits, most significant first, in a base; none if one of them is no digit. -/
def digitsValue (digit : Char → Option Nat) (base : Nat) : Nat → List Char → Option Nat
  | acc, [] => some acc
  | acc, c :: t =>
    match digit c with
    | none => none
    | some d => digitsValue digit base (acc * base + d) t

/-- A number of at least one digit. -/
def digits1 (digit : Char → Option Nat) (base : Nat) (l : List Char) : Option Nat :=
  if l.isEmpty then none else digitsValue digit base 0 l

/-! ## Operands (R70) -/

/-- An unsigned integer, decimal or `0x` hexadecimal. -/
def integerValue : List Char → Option Nat
  | '0' :: 'x' :: h => digits1 hexDigit 16 h
  | l => digits1 decDigit 10 l

/-- An address or count operand: in 0 .. 2^32 - 1, otherwise an assembler error. -/
def wordOperand (l : List Char) : Except AsmError Word :=
  match integerValue l with
  | none => .error .badInteger
  | some v => if v < 2 ^ 32 then .ok (BitVec.ofNat 32 v) else .error .integerRange

/-- The exact value mant * 10^(tens) * 10^(-frac) rounded to the nearest binary32, ties to even (R70, R77), by the rounding of
R75: a literal past the largest finite binary32 gives the infinity of its sign, one too small a subnormal or a zero of its
sign. R75 speaks of the primitives, R70 of no such literal: DESIGN CHOICE, log entry 20. -/
def decimalNearest (neg : Bool) (mant frac : Nat) (tensNeg : Bool) (tens : Nat) : Word :=
  if tensNeg then nearest neg mant (10 ^ (frac + tens)) else nearest neg (mant * 10 ^ tens) (10 ^ frac)

/-- The exponent of a decimal literal, after its marker: an optional + or - and at least one digit. R70 says "optional exponent"
and no more; the form is a DESIGN CHOICE, log entry 20. -/
def exponentPart : List Char → Option (Bool × Nat)
  | '-' :: t => (digits1 decDigit 10 t).map (fun v => (true, v))
  | '+' :: t => (digits1 decDigit 10 t).map (fun v => (false, v))
  | t => (digits1 decDigit 10 t).map (fun v => (false, v))

/-- What follows the mantissa of a decimal literal: nothing, or an exponent marked by `e` or `E` (DESIGN CHOICE, log entry 20). -/
def exponentValue : List Char → Option (Bool × Nat)
  | [] => some (false, 0)
  | 'e' :: t => exponentPart t
  | 'E' :: t => exponentPart t
  | _ => none

/-- The digits at the front of a text, and the rest. -/
def leadDigits : List Char → List Char × List Char
  | [] => ([], [])
  | c :: t => if (decDigit c).isSome then (c :: (leadDigits t).1, (leadDigits t).2) else ([], c :: t)

/-- Digits, an optional fraction and an optional exponent, with the sign already read. -/
def unsignedReal (neg : Bool) (l : List Char) : Option Word :=
  let whole := leadDigits l
  let frac :=
    match whole.2 with
    | '.' :: t => leadDigits t
    | t => ([], t)
  let hasPoint := match whole.2 with
    | '.' :: _ => true
    | _ => false
  if whole.1.isEmpty || (hasPoint && frac.1.isEmpty) then none
  else
    match digitsValue decDigit 10 0 (whole.1 ++ frac.1), exponentValue frac.2 with
    | some mant, some (tensNeg, tens) => some (decimalNearest neg mant frac.1.length tensNeg tens)
    | _, _ => none

/-- A coefficient operand: `0f` and eight hexadecimal digits, `inf`, `-inf`, `nan`, or a decimal real literal. -/
def coefficientValue : List Char → Option Word
  | '0' :: 'f' :: h => if h.length = 8 then (digitsValue hexDigit 16 0 h).map (BitVec.ofNat 32) else none
  | ['i', 'n', 'f'] => some 0x7F800000#32
  | ['-', 'i', 'n', 'f'] => some 0xFF800000#32
  | ['n', 'a', 'n'] => some 0x7FC00000#32
  | '-' :: t => unsignedReal true t
  | '+' :: t => unsignedReal false t
  | t => unsignedReal false t

/-- A coefficient operand or the assembler error. -/
def coefOperand (l : List Char) : Except AsmError Word :=
  match coefficientValue l with
  | none => .error .badCoefficient
  | some w => .ok w

/-! ## Lines -/

/-- `toycbcr`. -/
def nameToycbcr : List Char := ['t', 'o', 'y', 'c', 'b', 'c', 'r']

/-- `toxyz`. -/
def nameToxyz : List Char := ['t', 'o', 'x', 'y', 'z']

/-- `torgbfromxyz`. -/
def nameTorgbfromxyz : List Char := ['t', 'o', 'r', 'g', 'b', 'f', 'r', 'o', 'm', 'x', 'y', 'z']

/-- `toycbcr <buf>, <npix>`. -/
def asmToycbcr : List (List Char) → Except AsmError Instr
  | [b, n] => do
    let buf ← wordOperand b
    let npix ← wordOperand n
    .ok (.toycbcr buf npix)
  | _ => .error .operandCount

/-- `toxyz <buf>, <npix>, <m0>, ..., <m8>`. -/
def asmToxyz : List (List Char) → Except AsmError Instr
  | [b, n, t0, t1, t2, t3, t4, t5, t6, t7, t8] => do
    let buf ← wordOperand b
    let npix ← wordOperand n
    let m0 ← coefOperand t0
    let m1 ← coefOperand t1
    let m2 ← coefOperand t2
    let m3 ← coefOperand t3
    let m4 ← coefOperand t4
    let m5 ← coefOperand t5
    let m6 ← coefOperand t6
    let m7 ← coefOperand t7
    let m8 ← coefOperand t8
    .ok (.toxyz buf npix ⟨m0, m1, m2, m3, m4, m5, m6, m7, m8⟩)
  | _ => .error .operandCount

/-- `torgbfromxyz <in>, <out>, <npix>`. -/
def asmTorgbfromxyz : List (List Char) → Except AsmError Instr
  | [i, o, n] => do
    let inp ← wordOperand i
    let out ← wordOperand o
    let npix ← wordOperand n
    .ok (.torgbfromxyz inp out npix)
  | _ => .error .operandCount

/-- A line (R69): nothing where it is empty or only a comment, otherwise the command of its mnemonic, whose letters may be of
either case. There are no pseudo-instructions (R71). -/
def assembleLine (line : List Char) : Except AsmError (Option Instr) :=
  let l := trimBlank (dropComment line)
  if l.isEmpty then .ok none
  else
    let name := (l.takeWhile (fun c => !isBlank c)).map Char.toLower
    let args := (splitComma (l.dropWhile (fun c => !isBlank c))).map trimBlank
    if name = nameToycbcr then (asmToycbcr args).map some
    else if name = nameToxyz then (asmToxyz args).map some
    else if name = nameTorgbfromxyz then (asmTorgbfromxyz args).map some
    else .error .unknownMnemonic

/-- A text of one command a line, to the packets in its order (R69); the first line that does not assemble is the error. -/
def assembleLines : List (List Char) → Except AsmError (List Packet)
  | [] => .ok []
  | line :: rest =>
    match assembleLine line with
    | .error e => .error e
    | .ok none => assembleLines rest
    | .ok (some i) => (assembleLines rest).map (fun ps => encode i :: ps)

/-! ## Disassembler (R72) -/

/-- A hexadecimal digit, upper case. -/
def hexChar (d : Nat) : Char := if d < 10 then Char.ofNat (48 + d) else Char.ofNat (55 + d)

/-- The n lowest hexadecimal digits of a number, most significant first. -/
def hexDigits : Nat → Nat → List Char
  | 0, _ => []
  | n + 1, v => hexDigits n (v / 16) ++ [hexChar (v % 16)]

/-- An address or count: `0x` and eight digits. -/
def textWord (w : Word) : List Char := '0' :: 'x' :: hexDigits 8 w.toNat

/-- A coefficient: `0f` and eight digits. -/
def textCoef (w : Word) : List Char := '0' :: 'f' :: hexDigits 8 w.toNat

/-- Operands with a comma and a space between them. -/
def joinOperands : List (List Char) → List Char
  | [] => []
  | [t] => t
  | t :: rest => t ++ [',', ' '] ++ joinOperands rest

/-- The line of a command. -/
def disassemble : Instr → List Char
  | .toycbcr buf npix => nameToycbcr ++ [' '] ++ joinOperands [textWord buf, textWord npix]
  | .toxyz buf npix m =>
    nameToxyz ++ [' '] ++ joinOperands
      [textWord buf, textWord npix, textCoef m.m0, textCoef m.m1, textCoef m.m2, textCoef m.m3, textCoef m.m4,
        textCoef m.m5, textCoef m.m6, textCoef m.m7, textCoef m.m8]
  | .torgbfromxyz inp out npix =>
    nameTorgbfromxyz ++ [' '] ++ joinOperands [textWord inp, textWord out, textWord npix]

end Sys2Proof.Machine
end

