-- ==== Sys2Proof/Safety.lean ====
section
/-! DEFINITION. The terms claims are made in: the invariant of the machine, the end of a run, and the whole effect of a
command on memory. -/

namespace Sys2Proof.Machine

/-- Owned regions exist whole and share no byte (R52: exclusively owned). -/
def ownedWf : List Region → Bool
  | [] => true
  | r :: t => allocatable t r.base r.size && ownedWf t

/-- In `BUSY` a command is latched, keeps its contract, and `PIX <= N` (R23, R27, R40 to R42, R56). -/
def busyWf (s : State) : Bool :=
  match s.phase with
  | .idle => true
  | .busy =>
    s.regs.pix ≤ s.regs.n &&
      match s.regs.latched with
      | none => false
      | some i => breach s.owned i == none

/-- How many `DONE` tokens the host has been given. -/
def State.doneCount (s : State) : Nat := s.replies.countP (fun r => r == .done)

/-- How many presented packets can still have their `DONE`: the running command's and the held one. -/
def State.inFlight (s : State) : Nat := (if s.phase = .busy then 1 else 0) + (if s.cmd.isSome then 1 else 0)

/-- The invariant every step keeps. Its last two parts say that the command of a held packet keeps its contract (R131), and that
every `DONE`, the running command and the held packet answer to a presented packet each (R18, R132). -/
def Inv (s : State) : Bool :=
  memWf s.mem && memBounded s.mem && ownedWf s.owned && busyWf s && (heldBreach s).isNone &&
    s.doneCount + s.inFlight ≤ s.presented

/-- The end of a run (R132): the block is `IDLE`, no packet is held, nothing is left to come, and every packet the host
presented has had its `DONE`. A run in which a reset abandoned a command or discarded a packet never ends so. -/
def State.final (s : State) : Bool :=
  s.phase == .idle && s.cmd.isNone && !s.rst && s.env.isEmpty && s.presented == s.doneCount

/-- What a running command can still read of its registers is the same: `OP`, `A0`, `N`, `PIX`, and what its format supplies
beside them, `M[k]` of TOXYZ and `A1` of TORGBFROMXYZ (R21). -/
def Regs.sameLive (r q : Regs) : Prop :=
  q.op = r.op ∧ q.a0 = r.a0 ∧ q.n = r.n ∧ q.pix = r.pix ∧ (r.op = 0x02#8 → q.m = r.m) ∧ (r.op = 0x03#8 → q.a1 = r.a1)

/-- Two states that differ in nothing but registers that are dead: all of them in `IDLE`; in `BUSY` the snapshot and the
registers the latched command's format does not supply (R15, R21, R22). -/
def SameLive (s t : State) : Prop :=
  t = { s with regs := t.regs } ∧ (s.phase = .busy → s.regs.sameLive t.regs)

/-- The pixel rule of a command (R28). -/
def pixelRule (i : Instr) : State → State :=
  match i with
  | .toycbcr _ _ => pixelToycbcr
  | .toxyz _ _ _ => pixelToxyz
  | .torgbfromxyz _ _ _ => pixelTorgbfromxyz

/-- The pixel count of a command (R62). -/
def npixOf : Instr → Word
  | .toycbcr _ n => n
  | .toxyz _ n _ => n
  | .torgbfromxyz _ _ n => n

/-- The bytes of pixel i that a command writes, as an interval: 3 bytes, or 12 for TOXYZ (R37, R38, R39). -/
def pixelSpan (i : Instr) (p : Nat) : Span :=
  match i with
  | .toycbcr buf _ => ⟨ea8 buf.toNat p 0, 3⟩
  | .toxyz buf _ _ => ⟨ea32 buf.toNat p 0, 12⟩
  | .torgbfromxyz _ out _ => ⟨ea8 out.toNat p 0, 3⟩

/-- The bytes of pixel i that a command reads, as an interval: 3 bytes for TOYCBCR, 12 otherwise (R37, R38, R39). -/
def pixelReads (i : Instr) (p : Nat) : Span :=
  match i with
  | .toycbcr buf _ => ⟨ea8 buf.toNat p 0, 3⟩
  | .toxyz buf _ _ => ⟨ea32 buf.toNat p 0, 12⟩
  | .torgbfromxyz inp _ _ => ⟨ea32 inp.toNat p 0, 12⟩

/-- `i` runs: `BUSY`, `i` is the latched command, and it keeps its contract (R27, R28, R40 to R42, R56). -/
def Running (s : State) (i : Instr) : Prop :=
  s.phase = .busy ∧ s.regs.latched = some i ∧ breach s.owned i = none

/-- `i` is offered and about to be accepted: `IDLE`, its packet held at `CMD`, its contract kept, and neither a reset nor an
input before it. -/
def Offered (s : State) (i : Instr) : Prop :=
  s.phase = .idle ∧ s.rst = false ∧ s.env = [] ∧ s.cmd = some (encode i) ∧ breach s.owned i = none

/-- k steps from a state. -/
def runSteps (k : Nat) (s : State) : Host.Outcome State Fault Refusal := Host.Core.run Sys2Proof.core k s

/-- The rational a finite value stands for (R74). -/
def ratOf (neg : Bool) (mag : Nat) : ℚ := (signed neg mag : ℚ) / 2 ^ 149

/-- Halfway from the largest finite binary32 to the next power of two, (2^24 - 1/2) * 2^104: from here on a magnitude rounds to
infinity (R75). -/
def overflowBound : ℚ := (2 ^ 25 - 1) * 2 ^ 103

/-- A pattern is an exact value rounded once (R75): from the bound on the infinity of its sign; below it finite, of the value's
sign where that is not zero, and nearer to it than every other finite value, or as near and with an even fraction. -/
def RoundsTo (r : Word) (q : ℚ) : Prop :=
  if overflowBound ≤ |q| then classify r = .inf (decide (q < 0))
  else
    ∃ neg mag, classify r = .fin neg mag ∧ (q < 0 → neg = true) ∧ (0 < q → neg = false) ∧
      ∀ (c : Word) (nc : Bool) (mc : Nat), classify c = .fin nc mc → ratOf nc mc ≠ ratOf neg mag →
        |ratOf neg mag - q| < |ratOf nc mc - q| ∨
          (|ratOf neg mag - q| = |ratOf nc mc - q| ∧ r.getLsbD 0 = false)

/-- A pattern's value is above 1: a finite one that is, or +inf (R99, R102). -/
def AboveOne (w : Word) : Prop :=
  classify w = .inf false ∨ ∃ mag, classify w = .fin false mag ∧ 1 < ratOf false mag

end Sys2Proof.Machine
end

