-- ==== Sys2Proof/Certificates/Slice0/Obligations.lean ====
section
/-! DEFINITION. What the model claims, each a proposition about the machine; the docstring names the rules of the spec it comes
from. -/

open Sys2Proof Sys2Proof.Machine

/-! ## Encoding -/

/-- R59 to R61, R64, R65: decoding and encoding are inverse to each other; no bit of any word is dropped. -/
def Obligations.DecodeIffEncode : Prop :=
  ∀ (p : Packet) (i : Instr), decode p = .ok i ↔ p = encode i

/-- R65: a packet decodes exactly when one row of the table of headers and lengths holds; the empty packet does not. -/
def Obligations.LegalExactlyByTable : Prop :=
  (∀ (w0 : Word) (ws : List Word),
    (∃ i, decode (w0 :: ws) = .ok i) ↔
      (w0 = 0x00000001#32 ∧ (w0 :: ws).length = 3) ∨ (w0 = 0x00000002#32 ∧ (w0 :: ws).length = 12) ∨
        (w0 = 0x00000003#32 ∧ (w0 :: ws).length = 4)) ∧
  ¬ ∃ i, decode [] = .ok i

/-- R72: the three worked packets decode to the commands they stand for. -/
def Obligations.WorkedPacketsDecode : Prop :=
  decode [0x00000001#32, 0x00001000#32, 0x00000002#32] = .ok (.toycbcr 0x1000#32 2#32) ∧
  decode [0x00000002#32, 0x00002000#32, 0x00000001#32, 0x3F800000#32, 0x00000000#32, 0x00000000#32, 0x00000000#32,
      0x3F800000#32, 0x00000000#32, 0x00000000#32, 0x00000000#32, 0x3F800000#32] =
    .ok (.toxyz 0x2000#32 1#32
      ⟨0x3F800000#32, 0#32, 0#32, 0#32, 0x3F800000#32, 0#32, 0#32, 0#32, 0x3F800000#32⟩) ∧
  decode [0x00000003#32, 0x00002000#32, 0x00003000#32, 0x00000001#32] =
    .ok (.torgbfromxyz 0x2000#32 0x3000#32 1#32)

/-- R66, R27: an illegal packet at an `IDLE` block is the violation `IllegalCommand`. -/
def Obligations.IllegalPacketFaults : Prop :=
  ∀ (s : State) (p : Packet), s.phase = .idle → s.rst = false → s.env = [] → s.cmd = some p →
    Packet.legal p = false → step s = .fault .illegalCommand

/-- R69, R70, R72: assembling the disassembled line of a command gives the command back. -/
def Obligations.TextRoundTrip : Prop :=
  ∀ i : Instr, assembleLine (disassemble i) = .ok (some i)

/-! ## A step, acceptance, completion -/

/-- R27, R28: with no reset and no input before it, the step of an `IDLE` block that holds a packet of `i` is `exec i` with
the packet consumed, and the step of a `BUSY` block is `exec` of the latched command; the input `block` lets the block take
that same step with the later inputs still to come (log entry 7). -/
def Obligations.StepRunsDecoded : Prop :=
  (∀ (s : State) (p : Packet) (i : Instr), s.phase = .idle → s.rst = false → s.env = [] → s.cmd = some p →
    decode p = .ok i → step s = exec i { s with cmd := none }) ∧
  (∀ (s : State) (i : Instr), s.phase = .busy → s.rst = false → s.env = [] → s.regs.latched = some i →
    step s = exec i s) ∧
  (∀ (s : State) (rest : List Input) (p : Packet) (i : Instr), s.phase = .idle → s.rst = false →
    s.env = .block :: rest → s.cmd = some p → decode p = .ok i →
    step s = exec i { s with env := rest, cmd := none }) ∧
  (∀ (s : State) (rest : List Input) (i : Instr), s.phase = .busy → s.rst = false → s.env = .block :: rest →
    s.regs.latched = some i → step s = exec i { s with env := rest })

/-- R59, R27: the three words of format U, accepted. -/
def Obligations.ToycbcrAccepted : Prop :=
  ∀ (s : State) (buf npix : Word), s.phase = .idle → s.rst = false → s.env = [] →
    s.cmd = some [0x00000001#32, buf, npix] → breach s.owned (.toycbcr buf npix) = none →
    ∃ t, step s = .next t ∧ t.phase = .busy ∧ t.cmd = none ∧ t.regs.op = 0x01#8 ∧ t.regs.a0 = buf ∧ t.regs.n = npix ∧
      t.regs.pix = 0#32 ∧ t.mem = s.mem ∧ t.rst = s.rst ∧ t.owned = s.owned ∧ t.released = s.released ∧
      t.env = s.env ∧ t.replies = s.replies ∧ t.presented = s.presented

/-- R60, R27: the twelve words of format M, accepted. -/
def Obligations.ToxyzAccepted : Prop :=
  ∀ (s : State) (buf npix m0 m1 m2 m3 m4 m5 m6 m7 m8 : Word), s.phase = .idle → s.rst = false → s.env = [] →
    s.cmd = some [0x00000002#32, buf, npix, m0, m1, m2, m3, m4, m5, m6, m7, m8] →
    breach s.owned (.toxyz buf npix ⟨m0, m1, m2, m3, m4, m5, m6, m7, m8⟩) = none →
    ∃ t, step s = .next t ∧ t.phase = .busy ∧ t.cmd = none ∧ t.regs.op = 0x02#8 ∧ t.regs.a0 = buf ∧ t.regs.n = npix ∧
      t.regs.m = ⟨m0, m1, m2, m3, m4, m5, m6, m7, m8⟩ ∧
      t.regs.pix = 0#32 ∧ t.mem = s.mem ∧ t.rst = s.rst ∧ t.owned = s.owned ∧ t.released = s.released ∧
      t.env = s.env ∧ t.replies = s.replies ∧ t.presented = s.presented

/-- R61, R27: the four words of format D, accepted. -/
def Obligations.TorgbfromxyzAccepted : Prop :=
  ∀ (s : State) (inp out npix : Word), s.phase = .idle → s.rst = false → s.env = [] →
    s.cmd = some [0x00000003#32, inp, out, npix] → breach s.owned (.torgbfromxyz inp out npix) = none →
    ∃ t, step s = .next t ∧ t.phase = .busy ∧ t.cmd = none ∧ t.regs.op = 0x03#8 ∧ t.regs.a0 = inp ∧ t.regs.a1 = out ∧
      t.regs.n = npix ∧
      t.regs.pix = 0#32 ∧ t.mem = s.mem ∧ t.rst = s.rst ∧ t.owned = s.owned ∧ t.released = s.released ∧
      t.env = s.env ∧ t.replies = s.replies ∧ t.presented = s.presented

/-- R29: when `PIX = N` the block emits one `DONE` and is `IDLE`, memory as it is; with N = 0 that is the first step after
acceptance, and memory is unchanged by the whole command (marked derived in R29: from R28). (That the registers are dead
afterwards is R15, R21; log entry 5.) -/
def Obligations.CompletionEmitsDone : Prop :=
  (∀ (i : Instr) (s : State), Running s i → s.regs.pix = s.regs.n →
    ∃ t, exec i s = .next t ∧ t.phase = .idle ∧ t.replies = .done :: s.replies ∧ t.mem = s.mem ∧ t.cmd = s.cmd ∧
      t.rst = s.rst ∧ t.owned = s.owned ∧ t.released = s.released ∧ t.env = s.env ∧ t.presented = s.presented) ∧
  (∀ (i : Instr) (s : State), Offered s i → npixOf i = 0#32 →
    ∃ t, runSteps 2 s = .next t ∧ t.phase = .idle ∧ t.replies = .done :: s.replies ∧ t.mem = s.mem ∧ t.cmd = none)

/-! ## The pixel rules: each command's result and what it leaves unchanged -/

/-- R91, R28, R22: the pixel step of TOYCBCR, with the constants of R77 as patterns. The three stored bytes stand at
A0 + 3*PIX + c; every other byte, register and port is unchanged. -/
def Obligations.ToycbcrPixelStep : Prop :=
  ∀ (buf npix : Word) (s : State), Running s (.toycbcr buf npix) → s.regs.pix < npix →
    let e : Nat → Nat := fun c => buf.toNat + 3 * s.regs.pix.toNat + c
    let r := fcvtU8 (readByte s.mem (e 0))
    let g := fcvtU8 (readByte s.mem (e 1))
    let b := fcvtU8 (readByte s.mem (e 2))
    ∃ t, exec (.toycbcr buf npix) s = .next t ∧
      readByte t.mem (e 0) =
        q8 (fadd (fadd (fmul 0x3E991687#32 r) (fmul 0x3F1645A2#32 g)) (fmul 0x3DE978D5#32 b)) ∧
      readByte t.mem (e 1) =
        q8 (fadd (fsub (fsub 0x43000000#32 (fmul 0x3E2CC921#32 r)) (fmul 0x3EA99B6F#32 g)) (fmul 0x3F000000#32 b)) ∧
      readByte t.mem (e 2) =
        q8 (fsub (fsub (fadd 0x43000000#32 (fmul 0x3F000000#32 r)) (fmul 0x3ED65E46#32 g)) (fmul 0x3DA686E8#32 b)) ∧
      (∀ a, a ≠ e 0 → a ≠ e 1 → a ≠ e 2 → readByte t.mem a = readByte s.mem a) ∧
      t.regs.snap = ⟨(readByte s.mem (e 0)).setWidth 32, (readByte s.mem (e 1)).setWidth 32,
        (readByte s.mem (e 2)).setWidth 32⟩ ∧
      t.regs.pix.toNat = s.regs.pix.toNat + 1 ∧
      t.regs = { s.regs with snap := t.regs.snap, pix := t.regs.pix } ∧
      t = { s with regs := t.regs, mem := t.mem }

/-- R106, R28, R22: the pixel step of TOXYZ. The three stored elements stand at A0 + 12*PIX + 4*c; every other byte, register
and port is unchanged. -/
def Obligations.ToxyzPixelStep : Prop :=
  ∀ (buf npix : Word) (m : Coeffs) (s : State), Running s (.toxyz buf npix m) → s.regs.pix < npix →
    let e : Nat → Nat := fun c => buf.toNat + 12 * s.regs.pix.toNat + 4 * c
    let rl := gammaForward (fdiv (read32 s.mem (e 0)) 0x437F0000#32)
    let gl := gammaForward (fdiv (read32 s.mem (e 1)) 0x437F0000#32)
    let bl := gammaForward (fdiv (read32 s.mem (e 2)) 0x437F0000#32)
    ∃ t, exec (.toxyz buf npix m) s = .next t ∧
      read32 t.mem (e 0) = fadd (fadd (fmul m.m0 rl) (fmul m.m1 gl)) (fmul m.m2 bl) ∧
      read32 t.mem (e 1) = fadd (fadd (fmul m.m3 rl) (fmul m.m4 gl)) (fmul m.m5 bl) ∧
      read32 t.mem (e 2) = fadd (fadd (fmul m.m6 rl) (fmul m.m7 gl)) (fmul m.m8 bl) ∧
      (∀ a, a < e 0 ∨ e 0 + 12 ≤ a → readByte t.mem a = readByte s.mem a) ∧
      t.regs.snap = ⟨read32 s.mem (e 0), read32 s.mem (e 1), read32 s.mem (e 2)⟩ ∧
      t.regs.pix.toNat = s.regs.pix.toNat + 1 ∧
      t.regs = { s.regs with snap := t.regs.snap, pix := t.regs.pix } ∧
      t = { s with regs := t.regs, mem := t.mem }

/-- R114, R28, R22: the pixel step of TORGBFROMXYZ, with the fixed matrix of R113 as the patterns of R77. The three stored
bytes stand at A1 + 3*PIX + c; every other byte, register and port is unchanged. -/
def Obligations.TorgbfromxyzPixelStep : Prop :=
  ∀ (inp out npix : Word) (s : State), Running s (.torgbfromxyz inp out npix) → s.regs.pix < npix →
    let e : Nat → Nat := fun c => inp.toNat + 12 * s.regs.pix.toNat + 4 * c
    let d : Nat → Nat := fun c => out.toNat + 3 * s.regs.pix.toNat + c
    let x := read32 s.mem (e 0)
    let y := read32 s.mem (e 1)
    let z := read32 s.mem (e 2)
    let rlin := fsub (fsub (fmul 0x404F65FE#32 x) (fmul 0x3FC4C2F8#32 y)) (fmul 0x3EFF4880#32 z)
    let glin := fadd (fadd (fmul 0xBF7809D5#32 x) (fmul 0x3FF01A37#32 y)) (fmul 0x3D29FBE7#32 z)
    let blin := fadd (fsub (fmul 0x3D6425AF#32 x) (fmul 0x3E50E560#32 y)) (fmul 0x3F874BC7#32 z)
    ∃ t, exec (.torgbfromxyz inp out npix) s = .next t ∧
      readByte t.mem (d 0) = q8 (fmul (gammaReverse rlin) 0x437F0000#32) ∧
      readByte t.mem (d 1) = q8 (fmul (gammaReverse glin) 0x437F0000#32) ∧
      readByte t.mem (d 2) = q8 (fmul (gammaReverse blin) 0x437F0000#32) ∧
      (∀ a, a ≠ d 0 → a ≠ d 1 → a ≠ d 2 → readByte t.mem a = readByte s.mem a) ∧
      t.regs.snap = ⟨x, y, z⟩ ∧
      t.regs.pix.toNat = s.regs.pix.toNat + 1 ∧
      t.regs = { s.regs with snap := t.regs.snap, pix := t.regs.pix } ∧
      t = { s with regs := t.regs, mem := t.mem }

/-- R19, R21 to R23: the frame of every command, in every state. Whatever `exec` answers with a next state, the ports `CMD`
and `RST`, the regions, the inputs and the count of packets are unchanged; outside the bytes of the pixel that a `BUSY` block is at, memory
is unchanged; while the block stays `BUSY`, the operand registers are unchanged. -/
def Obligations.ExecFrame : Prop :=
  ∀ (i : Instr) (s t : State), exec i s = .next t →
    t.cmd = s.cmd ∧ t.rst = s.rst ∧ t.owned = s.owned ∧ t.released = s.released ∧ t.env = s.env ∧
    t.presented = s.presented ∧
    (s.phase = .idle → t.mem = s.mem) ∧
    (∀ a, (pixelSpan i s.regs.pix.toNat).has a = false → readByte t.mem a = readByte s.mem a) ∧
    (s.phase = .busy → t.phase = .busy →
      t.regs = { s.regs with snap := t.regs.snap, pix := t.regs.pix } ∧ t.replies = s.replies)

/-! ## The block and memory -/

/-- R19: the block never writes an address outside the running command's write footprint, and what a pixel step writes depends
on no address outside its read footprint. -/
def Obligations.BlockKeepsToFootprint : Prop :=
  (∀ (i : Instr) (s t : State), Running s i → s.rst = false → s.env = [] → step s = .next t →
    ∀ a, (writeSpan i).has a = false → readByte t.mem a = readByte s.mem a) ∧
  (∀ (i : Instr) (s : State) (mem' : List Host.Cell) (t t' : State), Running s i → s.regs.pix < s.regs.n →
    (∀ a, (readSpan i).has a = true → readByte mem' a = readByte s.mem a) →
    exec i s = .next t → exec i { s with mem := mem' } = .next t' →
    t'.regs = t.regs ∧
      ∀ a, (pixelSpan i s.regs.pix.toNat).has a = true → readByte t'.mem a = readByte t.mem a)

/-- R88, R40(b): under a kept contract no address of a pixel step wraps: every byte the pixel reads or writes lies in the
command's footprint and in the address space. -/
def Obligations.ElementAddressesExist : Prop :=
  ∀ (owned : List Region) (i : Instr) (p a : Nat), breach owned i = none → p < (npixOf i).toNat →
    ((pixelSpan i p).has a = true → (writeSpan i).has a = true ∧ a < 2 ^ 32) ∧
    ((pixelReads i p).has a = true → (readSpan i).has a = true ∧ a < 2 ^ 32)

/-- R36: a 4-byte element is little-endian, byte by byte, and reads back whole. -/
def Obligations.ElementIsLittleEndian : Prop :=
  ∀ (mem : List Host.Cell) (a : Nat) (v : Word),
    readByte (write32 mem a v) a = v.extractLsb' 0 8 ∧
    readByte (write32 mem a v) (a + 1) = v.extractLsb' 8 8 ∧
    readByte (write32 mem a v) (a + 2) = v.extractLsb' 16 8 ∧
    readByte (write32 mem a v) (a + 3) = v.extractLsb' 24 8 ∧
    read32 mem a = readByte mem (a + 3) ++ readByte mem (a + 2) ++ readByte mem (a + 1) ++ readByte mem a ∧
    read32 (write32 mem a v) a = v

/-- R92, R109: writing the three channels of a pixel in any order leaves the same memory, of a byte pixel and of a float pixel. -/
def Obligations.WriteOrderIrrelevant : Prop :=
  (∀ (mem : List Host.Cell) (b i : Nat) (o : Out8) (ws : List Host.Cell),
    ws.Perm [(b + 3 * i + 0, o.c0), (b + 3 * i + 1, o.c1), (b + 3 * i + 2, o.c2)] →
    ∀ a, readByte (ws.foldl (fun m c => writeByte m c.1 c.2) mem) a = readByte (storePixel8 mem b i o) a) ∧
  (∀ (mem : List Host.Cell) (b i : Nat) (o : Out32) (ws : List (Nat × Word)),
    ws.Perm [(b + 12 * i + 0, o.c0), (b + 12 * i + 4, o.c1), (b + 12 * i + 8, o.c2)] →
    ∀ a, readByte (ws.foldl (fun m c => write32 m c.1 c.2) mem) a = readByte (storePixel32 mem b i o) a)

/-! ## Whole-machine rules -/

/-- R17: a packet presented while the block is `BUSY`, its contract kept if it is legal (R131; log entry 27), comes to be held
and nothing else changes (but for the model's own count of presentations); while the block stays `BUSY`, and at its completion,
it stays held; an `IDLE` block then accepts it. -/
def Obligations.PacketHeldWhileBusy : Prop :=
  (∀ (s : State) (p : Packet) (rest : List Input), s.phase = .busy → s.rst = false → s.cmd = none →
    s.env = .present p :: rest → (∀ i, decode p = .ok i → breach s.owned i = none) →
    step s = .next { s with env := rest, cmd := some p, presented := s.presented + 1 }) ∧
  (∀ (s t : State) (p : Packet), s.phase = .busy → s.rst = false → s.cmd = some p → step s = .next t →
    t.cmd = some p) ∧
  (∀ (s : State) (i : Instr), Offered s i →
    ∃ t, step s = .next t ∧ t.phase = .busy ∧ t.cmd = none ∧ t.regs.latched = some i)

/-- R51, R21: nothing that happens while the block stays `BUSY`, a store to memory by anyone included, alters `OP`, `A0`, `A1`,
`N` or `M[k]`. -/
def Obligations.LatchedCommandUnalterable : Prop :=
  ∀ s t : State, step s = .next t → s.phase = .busy → t.phase = .busy →
    t.regs.op = s.regs.op ∧ t.regs.a0 = s.regs.a0 ∧ t.regs.a1 = s.regs.a1 ∧ t.regs.n = s.regs.n ∧ t.regs.m = s.regs.m

/-- R20: `PHASE` becomes `BUSY` only by accepting the held packet, and `IDLE` only by completion or reset. -/
def Obligations.PhaseChangesOnly : Prop :=
  (∀ s t : State, step s = .next t → s.phase = .idle → t.phase = .busy →
    ∃ (p : Packet) (i : Instr), s.cmd = some p ∧ decode p = .ok i ∧ t.regs.latched = some i ∧ t.regs.pix = 0#32 ∧
      t.cmd = none) ∧
  (∀ s t : State, step s = .next t → s.phase = .busy → t.phase = .idle →
    s.rst = true ∨ (s.regs.pix = s.regs.n ∧ t.replies = .done :: s.replies))

/-- R18, R29, R138: a step gives the host at most one `DONE`, and only where a `BUSY` block at `PIX = N` becomes `IDLE`
without a reset. R132: so a `DONE` that a reset withheld is missing for good: the packets presented grow by at least as much as
the `DONE` given and still to come. -/
def Obligations.DoneOnlyAtCompletion : Prop :=
  (∀ s t : State, step s = .next t →
    t.doneCount = s.doneCount ∨
      (t.doneCount = s.doneCount + 1 ∧ s.rst = false ∧ s.phase = .busy ∧ s.regs.pix = s.regs.n ∧ t.phase = .idle)) ∧
  (∀ s t : State, step s = .next t →
    s.presented + (t.doneCount + t.inFlight) ≤ t.presented + (s.doneCount + s.inFlight))

/-- R25: `STATUS` is 1 in bit 0 exactly when `BUSY` and 0 in bits 31:1, and 0 at reset; reading it gives it to the host and
changes nothing else. -/
def Obligations.StatusRegister : Prop :=
  (∀ s : State, s.status.getLsbD 0 = (s.phase == .busy) ∧ s.status.extractLsb' 1 31 = 0#31) ∧
  (∀ (s : State) (rest : List Input), s.rst = false → s.env = .readStatus :: rest →
    step s = .next { s with env := rest, replies := .status s.status :: s.replies }) ∧
  State.reset.status = 0#32

/-- R150, R124: a `BUSY` block in a state of the invariant, left alone, always has a next step: the pixel step while
PIX < N, completion when PIX = N. -/
def Obligations.BusyBlockProgresses : Prop :=
  ∀ s : State, Inv s = true → s.phase = .busy → s.rst = false → s.env = [] →
    ∃ t, step s = .next t ∧
      ((s.regs.pix < s.regs.n ∧ t.phase = .busy ∧ t.regs.pix.toNat = s.regs.pix.toNat + 1) ∨
        (s.regs.pix = s.regs.n ∧ t.phase = .idle ∧ t.replies = .done :: s.replies))

/-! ## Reset -/

/-- R32: `PHASE` is `IDLE`, `STATUS` reads 0 and no packet is held, the values the spec gives for reset. The last two clauses are
the model's choice: no `DONE` was given (log entry 9, where the spec says that none is pending), and no reset is requested
(the spec's table has no row for `RST`). -/
def Obligations.ResetValues : Prop :=
  State.reset.phase = .idle ∧ State.reset.status = 0#32 ∧ State.reset.cmd = none ∧ State.reset.doneCount = 0 ∧
    State.reset.rst = false

/-- R137, R30, R138: a reset can be requested in every state; before every other step it makes the block `IDLE`, discards the
held packet and gives no `DONE`. -/
def Obligations.ResetTakesPriority : Prop :=
  (∀ (s : State) (rest : List Input), s.rst = false → s.env = .reset :: rest →
    step s = .next { s with env := rest, rst := true }) ∧
  (∀ s : State, s.rst = true →
    ∃ t, step s = .next t ∧ t.phase = .idle ∧ t.status = 0#32 ∧ t.cmd = none ∧ t.rst = false ∧
      t.replies = s.replies ∧ t.owned = s.owned ∧ t.released = s.released ∧ t.env = s.env ∧ t.presented = s.presented)

/-- R139: a reset in `IDLE` leaves memory as it is; in `BUSY` it leaves every byte outside the write footprint of the abandoned
command, and the input buffer of TORGBFROMXYZ is intact. -/
def Obligations.ResetSparesMemoryOutside : Prop :=
  (∀ s t : State, s.rst = true → s.phase = .idle → step s = .next t → t.mem = s.mem) ∧
  (∀ (s t : State) (i : Instr), s.rst = true → s.phase = .busy → s.regs.latched = some i → step s = .next t →
    ∀ a, (writeSpan i).has a = false → readByte t.mem a = readByte s.mem a) ∧
  (∀ (s t : State) (inp out npix : Word), s.rst = true → Running s (.torgbfromxyz inp out npix) → step s = .next t →
    ∀ a, inp.toNat ≤ a → a < inp.toNat + 12 * npix.toNat → readByte t.mem a = readByte s.mem a)

/-- R140, R141: after a reset, from any state, a packet presented next is accepted at once. -/
def Obligations.ReadyAfterReset : Prop :=
  ∀ (s : State) (i : Instr), s.rst = true → s.env = [.present (encode i)] → breach s.owned i = none →
    ∃ t, runSteps 3 s = .next t ∧ t.phase = .busy ∧ t.regs.latched = some i ∧ t.regs.pix = 0#32 ∧ t.env = []

/-! ## Contract violations -/

/-- R41: with the range kept (and the buffers of TORGBFROMXYZ disjoint), TOYCBCR is accepted at any address, TOXYZ and
TORGBFROMXYZ exactly when N = 0 or the float buffer's base is a multiple of 4; the byte buffer of TORGBFROMXYZ may stand at any
address; every float element's address is a multiple of 4 where its base is. That misalignment stops the command at its
acceptance is the model's choice (log entry 10). -/
def Obligations.AlignmentRule : Prop :=
  (∀ (buf npix : Word) (s : State), s.phase = .idle → covered s.owned (readSpan (.toycbcr buf npix)) = true →
    ∃ t, exec (.toycbcr buf npix) s = .next t) ∧
  (∀ (buf npix : Word) (m : Coeffs) (s : State), s.phase = .idle →
    covered s.owned (readSpan (.toxyz buf npix m)) = true →
    ((∃ t, exec (.toxyz buf npix m) s = .next t) ↔ (npix = 0#32 ∨ buf.toNat % 4 = 0))) ∧
  (∀ (inp out npix : Word) (s : State), s.phase = .idle →
    covered s.owned (readSpan (.torgbfromxyz inp out npix)) = true →
    covered s.owned (writeSpan (.torgbfromxyz inp out npix)) = true →
    (readSpan (.torgbfromxyz inp out npix)).meets (writeSpan (.torgbfromxyz inp out npix)) = false →
    ((∃ t, exec (.torgbfromxyz inp out npix) s = .next t) ↔ (npix = 0#32 ∨ inp.toNat % 4 = 0))) ∧
  (∀ b i c : Nat, b % 4 = 0 → ea32 b i c % 4 = 0)

/-- R42: a float buffer at a base that is no multiple of 4, with N > 0, is a violation: `Misaligned` where the range is kept
(which of several violations is recorded is the model's choice, log entry 10). -/
def Obligations.MisalignedFaults : Prop :=
  (∀ (buf npix : Word) (m : Coeffs) (s : State), s.phase = .idle → npix ≠ 0#32 → buf.toNat % 4 ≠ 0 →
    (∃ f, exec (.toxyz buf npix m) s = .fault f) ∧
    (covered s.owned (readSpan (.toxyz buf npix m)) = true → exec (.toxyz buf npix m) s = .fault .misaligned)) ∧
  (∀ (inp out npix : Word) (s : State), s.phase = .idle → npix ≠ 0#32 → inp.toNat % 4 ≠ 0 →
    (∃ f, exec (.torgbfromxyz inp out npix) s = .fault f) ∧
    (covered s.owned (readSpan (.torgbfromxyz inp out npix)) = true →
      covered s.owned (writeSpan (.torgbfromxyz inp out npix)) = true →
      exec (.torgbfromxyz inp out npix) s = .fault .misaligned))

/-- R40, R121: a command with a footprint interval that passes 2^32 or lies in no one owned region is the violation
`BufferRange`. That it is recorded at acceptance, and before `Misaligned` and `Overlap`, is the model's choice (log entry 10,
DESIGN CHOICE). R131, R142: the host keeps every precondition of what it presents, so presenting such a packet is the violation
already, as presenting any legal packet whose contract is not kept is that packet's (log entry 27, DEDUCED). -/
def Obligations.BufferRangeFaults : Prop :=
  (∀ (i : Instr) (s : State) (p : Span), s.phase = .idle → (p = readSpan i ∨ p = writeSpan i) → p.len ≠ 0 →
    (2 ^ 32 < p.base + p.len ∨ ∀ r ∈ s.owned, ¬(r.base ≤ p.base ∧ p.base + p.len ≤ r.base + r.size)) →
    exec i s = .fault .bufferRange) ∧
  (∀ (i : Instr) (s : State) (p : Span) (rest : List Input), s.rst = false → s.cmd = none →
    s.env = .present (encode i) :: rest → (p = readSpan i ∨ p = writeSpan i) → p.len ≠ 0 →
    (2 ^ 32 < p.base + p.len ∨ ∀ r ∈ s.owned, ¬(r.base ≤ p.base ∧ p.base + p.len ≤ r.base + r.size)) →
    step s = .fault .bufferRange) ∧
  (∀ (i : Instr) (s : State) (f : Fault) (rest : List Input), s.rst = false → s.cmd = none →
    s.env = .present (encode i) :: rest → breach s.owned i = some f → step s = .fault f)

/-- R56: TORGBFROMXYZ with a byte common to its two buffers is the violation `Overlap`; with disjoint buffers it is accepted
(range and alignment kept). The two in-place commands read and write the same bytes. That the overlap stops the command at its
acceptance is the model's choice (log entry 10). -/
def Obligations.OverlapFaults : Prop :=
  (∀ (buf npix : Word) (m : Coeffs), readSpan (.toycbcr buf npix) = writeSpan (.toycbcr buf npix) ∧
    readSpan (.toxyz buf npix m) = writeSpan (.toxyz buf npix m)) ∧
  ∀ (inp out npix : Word) (s : State), s.phase = .idle →
    covered s.owned (readSpan (.torgbfromxyz inp out npix)) = true →
    covered s.owned (writeSpan (.torgbfromxyz inp out npix)) = true → inp.toNat % 4 = 0 →
    ((∃ a, inp.toNat ≤ a ∧ a < inp.toNat + 12 * npix.toNat ∧ out.toNat ≤ a ∧ a < out.toNat + 3 * npix.toNat) →
      exec (.torgbfromxyz inp out npix) s = .fault .overlap) ∧
    ((∀ a, inp.toNat ≤ a → a < inp.toNat + 12 * npix.toNat → ¬(out.toNat ≤ a ∧ a < out.toNat + 3 * npix.toNat)) →
      exec (.torgbfromxyz inp out npix) s = .next (s.accept (.torgbfromxyz inp out npix)))

/-- R47: while a command runs, an access of another agent to the write footprint, or a write to the read footprint, is the
violation `ConcurrentAccess`; every other access is an ordinary one, unless it touches the held packet's footprint (log entry
25) or a region given back (log entry 26). -/
def Obligations.ExclusiveFootprint : Prop :=
  ∀ (i : Instr) (s : State) (who : Agent) (addr : Word) (v : Byte) (rest : List Input), s.rst = false →
    s.phase = .busy → s.regs.latched = some i →
    (s.env = .read who addr :: rest → (writeSpan i).has addr.toNat = true → step s = .fault .concurrentAccess) ∧
    (s.env = .read who addr :: rest → (writeSpan i).has addr.toNat = false →
      (∀ j, s.heldCmd = some j → (writeSpan j).has addr.toNat = false) → releasedAt s addr.toNat = false →
      ∃ t, step s = .next t ∧ t.mem = s.mem ∧ t.regs = s.regs) ∧
    (s.env = .write who addr v :: rest → ((writeSpan i).has addr.toNat || (readSpan i).has addr.toNat) = true →
      step s = .fault .concurrentAccess) ∧
    (s.env = .write who addr v :: rest → ((writeSpan i).has addr.toNat || (readSpan i).has addr.toNat) = false →
      (∀ j, s.heldCmd = some j → ((writeSpan j).has addr.toNat || (readSpan j).has addr.toNat) = false) →
      releasedAt s addr.toNat = false →
      ∃ t, step s = .next t ∧ readByte t.mem addr.toNat = v ∧ t.regs = s.regs ∧
        ∀ a, a ≠ addr.toNat → readByte t.mem a = readByte s.mem a)

/-- R44: outside a command the host reads back the last value it wrote, and a read changes no memory. R131: from presentation on
the footprint of a legal packet is handed over, so an access that R47 forbids while the command runs is the violation
`ConcurrentAccess` while the packet is held too (log entry 25). R53: after a `deallocate` the region is no longer owned, and a
read or write of a byte of it that no region owned since holds is the allocator's misuse, refused (U6; log entry 26). -/
def Obligations.HostReadsWhatItWrote : Prop :=
  (∀ (s : State) (addr : Word) (v : Byte) (rest : List Input), s.rst = false → s.phase = .idle →
    (∀ i, s.heldCmd = some i → ((writeSpan i).has addr.toNat || (readSpan i).has addr.toNat) = false) →
    releasedAt s addr.toNat = false →
    s.env = .write .host addr v :: .read .host addr :: rest →
    ∃ t, runSteps 2 s = .next t ∧ t.replies = .data addr v :: s.replies ∧ t.regs = s.regs ∧
      ∀ a, a ≠ addr.toNat → readByte t.mem a = readByte s.mem a) ∧
  (∀ (s : State) (p : Packet) (i : Instr) (who : Agent) (addr : Word) (v : Byte) (rest : List Input), s.rst = false →
    s.cmd = some p → decode p = .ok i →
    (s.env = .read who addr :: rest → (writeSpan i).has addr.toNat = true → step s = .fault .concurrentAccess) ∧
    (s.env = .write who addr v :: rest → ((writeSpan i).has addr.toNat || (readSpan i).has addr.toNat) = true →
      step s = .fault .concurrentAccess)) ∧
  (∀ (s : State) (base : Word) (size : Nat) (rest : List Input), s.rst = false → s.env = .deallocate base size :: rest →
    ⟨base.toNat, size⟩ ∈ s.owned →
    (∀ i, s.runningCmd = some i ∨ s.heldCmd = some i → breach (s.owned.erase ⟨base.toNat, size⟩) i = none) →
    step s = .next { s with
      env := rest, owned := s.owned.erase ⟨base.toNat, size⟩, released := ⟨base.toNat, size⟩ :: s.released }) ∧
  (∀ (s : State) (r : Region) (who : Agent) (addr : Word) (v : Byte) (rest : List Input), s.rst = false →
    r ∈ s.released → r.base ≤ addr.toNat → addr.toNat < r.base + r.size →
    (∀ q ∈ s.owned, ¬(q.base ≤ addr.toNat ∧ addr.toNat < q.base + q.size)) →
    (s.env = .read who addr :: rest → intrudes s false addr.toNat = false → step s = .refused .allocatorMisuse) ∧
    (s.env = .write who addr v :: rest → intrudes s true addr.toNat = false → step s = .refused .allocatorMisuse))

/-- R40(a), R53, R121: freeing a region without which a footprint of the running command, the one it reads or the one it writes,
lies in no owned region is the violation `BufferRange` (the step at which the model records it is log entry 10). R131: so is
freeing what the held packet's command needs, the running command needing nothing of it (log entry 27). -/
def Obligations.FreeingFootprintFaults : Prop :=
  ∀ (s : State) (i : Instr) (p : Span) (base : Word) (size : Nat) (rest : List Input), s.rst = false →
    s.runningCmd = some i ∨ (s.heldCmd = some i ∧
      ∀ j, s.runningCmd = some j → breach (s.owned.erase ⟨base.toNat, size⟩) j = none) →
    s.env = .deallocate base size :: rest → ⟨base.toNat, size⟩ ∈ s.owned →
    (p = readSpan i ∨ p = writeSpan i) → p.len ≠ 0 →
    (∀ r ∈ s.owned.erase ⟨base.toNat, size⟩, ¬(r.base ≤ p.base ∧ p.base + p.len ≤ r.base + r.size)) →
    step s = .fault .bufferRange

/-- R52: an allocation that the model takes (one of size 0 at any base: log entry 24) gives the host a region inside the address
space that shares no byte with another owned region; no byte outside it changes (its own bytes are free values, log entry 6). -/
def Obligations.AllocationIsExclusive : Prop :=
  ∀ (s t : State) (base : Word) (size : Nat) (rest : List Input), s.rst = false →
    s.env = .allocated base size :: rest → step s = .next t →
    t.owned = ⟨base.toNat, size⟩ :: s.owned ∧ base.toNat + size ≤ 2 ^ 32 ∧
    (∀ r ∈ s.owned, ∀ a, base.toNat ≤ a → a < base.toNat + size → ¬(r.base ≤ a ∧ a < r.base + r.size)) ∧
    (∀ a, a < base.toNat ∨ base.toNat + size ≤ a → readByte t.mem a = readByte s.mem a) ∧
    t.phase = s.phase ∧ t.regs = s.regs ∧ t.cmd = s.cmd ∧ t.replies = s.replies ∧ t.released = s.released

/-! ## The invariant -/

/-- R18, R23, R27, R40 to R42, R52, R56, R131, R132 and the canonical form of memory: every step keeps the invariant. -/
def Obligations.StepKeepsInv : Prop :=
  ∀ s t : State, Inv s = true → step s = .next t → Inv t = true

/-- The invariant holds at reset. -/
def Obligations.ResetHasInv : Prop := Inv State.reset = true

/-! ## Whole commands -/

/-- R31, R152: an offered TOYCBCR, left alone, ends after its acceptance, exactly N pixel steps and one completion with one
`DONE`; every output byte is the pixel rule's of the same pixel's initial bytes; nothing else in memory changes. Where the host was owed
no other `DONE`, the run is over (R132). -/
def Obligations.ToycbcrWholeCommand : Prop :=
  ∀ (buf npix : Word) (s : State), Offered s (.toycbcr buf npix) →
    ∃ t, runSteps (npix.toNat + 2) s = .next t ∧ t.phase = .idle ∧ t.cmd = none ∧ t.replies = .done :: s.replies ∧
      t.owned = s.owned ∧ t.released = s.released ∧ t.presented = s.presented ∧
      (s.presented = s.doneCount + 1 → t.final = true) ∧
      (∀ p < npix.toNat,
        readByte t.mem (ea8 buf.toNat p 0) = (toycbcrOut (snapshot8 s.mem buf.toNat p)).c0 ∧
        readByte t.mem (ea8 buf.toNat p 1) = (toycbcrOut (snapshot8 s.mem buf.toNat p)).c1 ∧
        readByte t.mem (ea8 buf.toNat p 2) = (toycbcrOut (snapshot8 s.mem buf.toNat p)).c2) ∧
      (∀ a, a < buf.toNat ∨ buf.toNat + 3 * npix.toNat ≤ a → readByte t.mem a = readByte s.mem a)

/-- R31, R152: the same of TOXYZ: every output element is the pixel rule's of the same pixel's initial elements and of the
packet's matrix. -/
def Obligations.ToxyzWholeCommand : Prop :=
  ∀ (buf npix : Word) (m : Coeffs) (s : State), Offered s (.toxyz buf npix m) →
    ∃ t, runSteps (npix.toNat + 2) s = .next t ∧ t.phase = .idle ∧ t.cmd = none ∧ t.replies = .done :: s.replies ∧
      t.owned = s.owned ∧ t.released = s.released ∧ t.presented = s.presented ∧
      (s.presented = s.doneCount + 1 → t.final = true) ∧
      (∀ p < npix.toNat,
        read32 t.mem (ea32 buf.toNat p 0) = (toxyzOut m (snapshot32 s.mem buf.toNat p)).c0 ∧
        read32 t.mem (ea32 buf.toNat p 1) = (toxyzOut m (snapshot32 s.mem buf.toNat p)).c1 ∧
        read32 t.mem (ea32 buf.toNat p 2) = (toxyzOut m (snapshot32 s.mem buf.toNat p)).c2) ∧
      (∀ a, a < buf.toNat ∨ buf.toNat + 12 * npix.toNat ≤ a → readByte t.mem a = readByte s.mem a)

/-- R31, R115, R152: the same of TORGBFROMXYZ: the output buffer holds the pixel rule's bytes of the input buffer's elements,
and everything outside the output buffer, the input buffer with it, is unchanged. -/
def Obligations.TorgbfromxyzWholeCommand : Prop :=
  ∀ (inp out npix : Word) (s : State), Offered s (.torgbfromxyz inp out npix) →
    ∃ t, runSteps (npix.toNat + 2) s = .next t ∧ t.phase = .idle ∧ t.cmd = none ∧ t.replies = .done :: s.replies ∧
      t.owned = s.owned ∧ t.released = s.released ∧ t.presented = s.presented ∧
      (s.presented = s.doneCount + 1 → t.final = true) ∧
      (∀ p < npix.toNat,
        readByte t.mem (ea8 out.toNat p 0) = (torgbOut (snapshot32 s.mem inp.toNat p)).c0 ∧
        readByte t.mem (ea8 out.toNat p 1) = (torgbOut (snapshot32 s.mem inp.toNat p)).c1 ∧
        readByte t.mem (ea8 out.toNat p 2) = (torgbOut (snapshot32 s.mem inp.toNat p)).c2) ∧
      (∀ a, a < out.toNat ∨ out.toNat + 3 * npix.toNat ≤ a → readByte t.mem a = readByte s.mem a)

/-- R15, R21, R22: dead registers are unobservable. Two states that differ in dead registers only (every register in `IDLE`; in
`BUSY` the snapshot and the registers the latched format does not supply) take the same kind of step and still differ in dead
registers only. -/
def Obligations.DeadRegistersUnobservable : Prop :=
  ∀ s t : State, SameLive s t →
    match step s, step t with
    | .next s', .next t' => SameLive s' t'
    | .fault f, .fault g => f = g
    | .refused f, .refused g => f = g
    | _, _ => False

/-! ## Numerics -/

/-- R75, R78: the sum and the difference of finite values are the exact ones rounded once: finite and nearest, ties to even, or
the infinity exactly from the bound on. -/
def Obligations.FaddNearest : Prop :=
  ∀ (a b : Word) (na nb : Bool) (ma mb : Nat), classify a = .fin na ma → classify b = .fin nb mb →
    RoundsTo (fadd a b) (ratOf na ma + ratOf nb mb) ∧ RoundsTo (fsub a b) (ratOf na ma - ratOf nb mb)

/-- R75, R79: the product of finite values is the exact one rounded once. -/
def Obligations.FmulNearest : Prop :=
  ∀ (a b : Word) (na nb : Bool) (ma mb : Nat), classify a = .fin na ma → classify b = .fin nb mb →
    RoundsTo (fmul a b) (ratOf na ma * ratOf nb mb)

/-- R75, R80: the quotient of finite values by a divisor that is not zero is the exact one rounded once. -/
def Obligations.FdivNearest : Prop :=
  ∀ (a b : Word) (na nb : Bool) (ma mb : Nat), classify a = .fin na ma → classify b = .fin nb mb → mb ≠ 0 →
    RoundsTo (fdiv a b) (ratOf na ma / ratOf nb mb)

/-- R75, R81: the square root of a finite value not below zero is a binary32 nearest to the exact square root. -/
def Obligations.FsqrtNearest : Prop :=
  ∀ (a c : Word) (ma : Nat) (nc : Bool) (mc : Nat), classify a = .fin false ma → classify c = .fin nc mc →
    ∃ nr mr, classify (fsqrt a) = .fin nr mr ∧
      |((ratOf nr mr : ℚ) : ℝ) - Real.sqrt ((ratOf false ma : ℚ) : ℝ)| ≤
        |((ratOf nc mc : ℚ) : ℝ) - Real.sqrt ((ratOf false ma : ℚ) : ℝ)|

/-- R75: on a tie the pattern whose fraction is even is chosen: if another magnitude pattern is as near, the one chosen is
even. -/
def Obligations.TiesGoToEven : Prop :=
  ∀ num den p : Nat, 0 < den → p < 0x7F800000 → roundMag num den < 0x7F800000 → p ≠ roundMag num den →
    ((num : Int) - (den * fMag (withSign false p) : Nat)).natAbs =
      ((num : Int) - (den * fMag (withSign false (roundMag num den)) : Nat)).natAbs →
    roundMag num den % 2 = 0

/-- R75: a magnitude rounds to infinity exactly from halfway between the largest finite binary32 and the next power of two on:
(2^24 - 1/2) * 2^104. -/
def Obligations.OverflowRoundsToInfinity : Prop :=
  ∀ (neg : Bool) (num den : Nat), 0 < den →
    (classify (packRound neg num den) = .inf neg ↔ den * ((2 ^ 25 - 1) * 2 ^ 252) ≤ num)

/-- R86: whatever primitive gives a NaN gives the pattern 0x7FC00000. -/
def Obligations.OneNanPattern : Prop :=
  ∀ a b : Word,
    (classify (fadd a b) = .nan → fadd a b = 0x7FC00000#32) ∧ (classify (fsub a b) = .nan → fsub a b = 0x7FC00000#32) ∧
    (classify (fmul a b) = .nan → fmul a b = 0x7FC00000#32) ∧ (classify (fdiv a b) = .nan → fdiv a b = 0x7FC00000#32) ∧
    (classify (fsqrt a) = .nan → fsqrt a = 0x7FC00000#32)

/-- R78 to R81: when a primitive gives a NaN, an infinity, or which zero. A NaN operand gives `QNAN`. Sum: opposite infinities
give `QNAN`, an infinity with a finite value or itself that infinity, an exact zero +0 unless both operands have the sign
bit. Product and quotient take the exclusive-or of the signs: zero times infinity, 0/0 and inf/inf give `QNAN`; infinity times
non-zero, non-zero over zero and infinity over finite an infinity; an exact zero and finite over infinity a zero. Square root:
`QNAN` below zero, the zeros and +inf themselves. -/
def Obligations.SpecialOperands : Prop :=
  (∀ a b : Word, classify a = .nan ∨ classify b = .nan →
    fadd a b = 0x7FC00000#32 ∧ fsub a b = 0x7FC00000#32 ∧ fmul a b = 0x7FC00000#32 ∧ fdiv a b = 0x7FC00000#32) ∧
  (∀ (a b : Word) (n : Bool), classify a = .inf n →
    (classify b = .inf n → classify (fadd a b) = .inf n ∧ fsub a b = 0x7FC00000#32) ∧
    (classify b = .inf (!n) → fadd a b = 0x7FC00000#32 ∧ classify (fsub a b) = .inf n) ∧
    (∀ nb mb, classify b = .fin nb mb →
      classify (fadd a b) = .inf n ∧ classify (fadd b a) = .inf n ∧ classify (fsub a b) = .inf n ∧
      classify (fsub b a) = .inf (!n))) ∧
  (∀ (a b : Word) (na nb : Bool) (ma mb : Nat), classify a = .fin na ma → classify b = .fin nb mb →
    (ratOf na ma + ratOf nb mb = 0 → fadd a b = if na && nb then 0x80000000#32 else 0x00000000#32) ∧
    (ratOf na ma - ratOf nb mb = 0 → fsub a b = if na && !nb then 0x80000000#32 else 0x00000000#32)) ∧
  (∀ (a b : Word) (na nb : Bool), classify a = .inf na →
    (classify b = .inf nb → classify (fmul a b) = .inf (na != nb) ∧ fdiv a b = 0x7FC00000#32) ∧
    (∀ mb, classify b = .fin nb mb →
      (mb = 0 → fmul a b = 0x7FC00000#32 ∧ fmul b a = 0x7FC00000#32) ∧
      (mb ≠ 0 → classify (fmul a b) = .inf (na != nb) ∧ classify (fmul b a) = .inf (na != nb)) ∧
      classify (fdiv a b) = .inf (na != nb) ∧ classify (fdiv b a) = .fin (na != nb) 0)) ∧
  (∀ (a b : Word) (na nb : Bool) (ma mb : Nat), classify a = .fin na ma → classify b = .fin nb mb →
    (ma = 0 ∨ mb = 0 → classify (fmul a b) = .fin (na != nb) 0) ∧
    (ma = 0 → mb = 0 → fdiv a b = 0x7FC00000#32) ∧
    (ma ≠ 0 → mb = 0 → classify (fdiv a b) = .inf (na != nb)) ∧
    (ma = 0 → mb ≠ 0 → classify (fdiv a b) = .fin (na != nb) 0)) ∧
  (∀ a : Word,
    (classify a = .nan → fsqrt a = 0x7FC00000#32) ∧
    (classify a = .inf true → fsqrt a = 0x7FC00000#32) ∧
    (∀ m, m ≠ 0 → classify a = .fin true m → fsqrt a = 0x7FC00000#32)) ∧
  fsqrt 0x80000000#32 = 0x80000000#32 ∧ fsqrt 0x00000000#32 = 0x00000000#32 ∧ fsqrt 0x7F800000#32 = 0x7F800000#32

/-- R82: `fle` is false on a NaN, compares finite values as rationals (so -0 equals +0), and has the infinities below and above
all finite values. -/
def Obligations.FleComparesValues : Prop :=
  ∀ a b : Word,
    (classify a = .nan ∨ classify b = .nan → fle a b = false) ∧
    (∀ na ma nb mb, classify a = .fin na ma → classify b = .fin nb mb →
      (fle a b = true ↔ ratOf na ma ≤ ratOf nb mb)) ∧
    (∀ na ma, classify a = .fin na ma → classify b = .inf false → fle a b = true ∧ fle b a = false) ∧
    (∀ na ma, classify a = .fin na ma → classify b = .inf true → fle a b = false ∧ fle b a = true) ∧
    (classify a = .inf true → classify b = .inf false → fle a b = true ∧ fle b a = false) ∧
    (∀ n, classify a = .inf n → classify b = .inf n → fle a b = true)

/-- R83: `fcvt_u8` widens every sample to the binary32 of the same value; the four patterns the rule prints. -/
def Obligations.FcvtU8Exact : Prop :=
  (∀ n : Byte, ∃ m, classify (fcvtU8 n) = .fin false m ∧ ratOf false m = (n.toNat : ℚ)) ∧
  fcvtU8 0#8 = 0x00000000#32 ∧ fcvtU8 1#8 = 0x3F800000#32 ∧ fcvtU8 128#8 = 0x43000000#32 ∧
  fcvtU8 255#8 = 0x437F0000#32

/-- R84: the quantizer: NaN gives 0, the infinities saturate, and a finite value is rounded on its exact value, halves away
from zero, and saturated into 0..255; the four patterns the rule prints. -/
def Obligations.QuantizerRoundsAndSaturates : Prop :=
  (q8 0x3F000000#32 = 1#8 ∧ q8 0x3EFFFFFF#32 = 0#8 ∧ q8 0x437E8000#32 = 255#8 ∧ q8 0x437E7FFF#32 = 254#8) ∧
  ∀ x : Word,
    (classify x = .nan → q8 x = 0#8) ∧
    (classify x = .inf false → q8 x = 255#8) ∧
    (classify x = .inf true → q8 x = 0#8) ∧
    (∀ neg mag, classify x = .fin neg mag →
      let r : Int := if neg then -⌊|ratOf neg mag| + 1 / 2⌋ else ⌊|ratOf neg mag| + 1 / 2⌋
      (r < 0 → q8 x = 0#8) ∧ (r > 255 → q8 x = 255#8) ∧ (0 ≤ r → r ≤ 255 → ((q8 x).toNat : Int) = r))

/-- R85 (derived there): clamping a finite value into [0, 255] first and rounding it then gives the same byte. -/
def Obligations.ClampFirstAgrees : Prop :=
  ∀ (x : Word) (neg : Bool) (mag : Nat), classify x = .fin neg mag →
    ((q8 x).toNat : Int) = ⌊max 0 (min 255 (ratOf neg mag)) + 1 / 2⌋

/-- R78, R114: subtracting a product and adding the product with the negated constant are the same operation. -/
def Obligations.SubtractIsAddNegated : Prop :=
  ∀ acc c y : Word, fsub acc (fmul c y) = fadd acc (fmul (fneg c) y)

/-- R97: `gammaForward` is the chain of the three branches, with the constants of R77 as patterns. R99 (derived there), outside
the expected range: of a value below zero it is the rounded square, not below zero and not NaN; of a value above 1 a value above
1; the infinities give +inf; NaN gives `QNAN`. -/
def Obligations.GammaForwardTotal : Prop :=
  ∀ v : Word,
    (gammaForward v =
      if fle v 0x3E4CCCCD#32 then fmul v v
      else if fle v 0x3F19999A#32 then fadd (fsub (fmul v v) (fmul 0x3E000000#32 v)) 0x3CCCCCCD#32
      else fsub (fadd (fmul v v) (fmul 0x3E000000#32 v)) 0x3E000000#32) ∧
    (∀ m, classify v = .fin true m →
      gammaForward v = fmul v v ∧ (classify (gammaForward v) = .inf false ∨ ∃ k, classify (gammaForward v) = .fin false k)) ∧
    (AboveOne v → AboveOne (gammaForward v)) ∧
    (∀ n, classify v = .inf n → gammaForward v = 0x7F800000#32) ∧
    (classify v = .nan → gammaForward v = 0x7FC00000#32)

/-- R100: `gammaReverse` is the chain of the three branches, with the constants of R77 as patterns. R102 (derived there),
outside the expected range: of every value below zero it is `QNAN`, the zeros keep themselves, of a value above 1 it is a value
above 1, except that R100 gives exactly 1 at 0x3F800001 (log entry 28), +inf gives +inf, NaN gives `QNAN`. -/
def Obligations.GammaReverseTotal : Prop :=
  ∀ v : Word,
    (gammaReverse v =
      if fle v 0x3D23D70A#32 then fsqrt v
      else if fle v 0x3E9EB852#32 then
        fdiv (fadd (fsqrt (fsub (fmul 0x45C80000#32 v) 0x43070000#32)) 0x40A00000#32) 0x42A00000#32
      else fdiv (fsub (fsqrt (fadd (fmul 0x43800000#32 v) 0x42040000#32)) 0x3F800000#32) 0x41800000#32) ∧
    (∀ m, m ≠ 0 → classify v = .fin true m → gammaReverse v = 0x7FC00000#32) ∧
    (classify v = .inf true → gammaReverse v = 0x7FC00000#32) ∧
    (∀ n, classify v = .fin n 0 → gammaReverse v = v) ∧
    (AboveOne v → v ≠ 0x3F800001#32 → AboveOne (gammaReverse v)) ∧
    (v = 0x3F800001#32 → gammaReverse v = 0x3F800000#32) ∧
    (classify v = .inf false → gammaReverse v = 0x7F800000#32) ∧
    (classify v = .nan → gammaReverse v = 0x7FC00000#32)

/-- R116: an out-of-gamut linear value is forced into range: below zero, however small, gives 0; above 1 gives 255. -/
def Obligations.OutOfGamutClamped : Prop :=
  ∀ (v : Word) (neg : Bool) (m : Nat), classify v = .fin neg m →
    (ratOf neg m < 0 → encode8 v = 0#8) ∧ (1 < ratOf neg m → encode8 v = 255#8)

/-- R108, R117 (derived there): a NaN sample makes all three outputs of TOXYZ `QNAN`, and a NaN in any of X, Y, Z makes the
pixel of TORGBFROMXYZ (0, 0, 0). -/
def Obligations.NanPoisonsPixel : Prop :=
  ∀ (m : Coeffs) (p : Snapshot),
    (classify p.s0 = .nan ∨ classify p.s1 = .nan ∨ classify p.s2 = .nan) →
    toxyzOut m p = ⟨0x7FC00000#32, 0x7FC00000#32, 0x7FC00000#32⟩ ∧ torgbOut p = ⟨0#8, 0#8, 0#8⟩

/-- R106, R79, R78: what a black pixel gives in one row of the matrix, for finite coefficients: +0, except that a row whose three
coefficients all have the sign bit set gives -0, since each of its products is -0. (The inference R110 draws, +0 for any
finite matrix, leaves that exception out; log entry 19.) R110: a row with an infinite or NaN coefficient gives `QNAN`. -/
def Obligations.BlackPixelGivesZero : Prop :=
  (∀ (m0 m1 m2 : Word) (n0 n1 n2 : Bool) (k0 k1 k2 : Nat), classify m0 = .fin n0 k0 → classify m1 = .fin n1 k1 →
    classify m2 = .fin n2 k2 →
    matrixRow m0 m1 m2 (linearise 0#32) (linearise 0#32) (linearise 0#32) =
      if n0 && n1 && n2 then 0x80000000#32 else 0x00000000#32) ∧
  ∀ m0 m1 m2 c : Word, c = m0 ∨ c = m1 ∨ c = m2 → (classify c = .nan ∨ ∃ n, classify c = .inf n) →
    matrixRow m0 m1 m2 (linearise 0#32) (linearise 0#32) (linearise 0#32) = 0x7FC00000#32
end

