-- ==== Sys2Proof/Laws/Memory.lean ====
section
/-! SUPPORT. What the memory operations do: read after write, everything else unchanged, and the canonical form kept
(20_memory.md R36, R44). -/

namespace Sys2Proof.Machine

/-! ## One byte -/

theorem readByte_eraseCell (mem : List Host.Cell) (a x : Nat) :
    readByte (eraseCell a mem) x = if x = a then unlistedByte else readByte mem x := by
  induction mem with
  | nil => simp [eraseCell, readByte]
  | cons c t ih =>
    by_cases h : c.1 = a <;> by_cases hx : x = a <;> simp_all [eraseCell, readByte]
    intro h1; exact absurd h1.symm hx

theorem readByte_insertCell (mem : List Host.Cell) (a x : Nat) (v : Byte) (h : ∀ c ∈ mem, c.1 ≠ a) :
    readByte (insertCell a v mem) x = if x = a then v else readByte mem x := by
  induction mem with
  | nil => simp [insertCell, readByte, eq_comm]
  | cons c t ih =>
    have hc : c.1 ≠ a := h c (by simp)
    have ht := ih (fun d hd => h d (by simp [hd]))
    by_cases hlt : a < c.1
    · simp [insertCell, hlt, readByte, eq_comm]
    · simp only [insertCell, hlt, if_false, readByte, ht]
      by_cases h1 : c.1 = x
      · simp [h1, show x ≠ a from h1 ▸ hc]
      · simp [h1]

theorem eraseCell_ne (mem : List Host.Cell) (a : Nat) : ∀ c ∈ eraseCell a mem, c.1 ≠ a := by
  induction mem with
  | nil => simp [eraseCell]
  | cons c t ih =>
    by_cases h : c.1 = a
    · simpa [eraseCell, h] using ih
    · intro d hd
      simp only [eraseCell, h, if_false, List.mem_cons] at hd
      rcases hd with rfl | hd
      · exact h
      · exact ih d hd

/-- Reading after writing one byte, in every memory (R44). -/
theorem readByte_writeByte (mem : List Host.Cell) (a x : Nat) (v : Byte) :
    readByte (writeByte mem a v) x = if x = a then v else readByte mem x := by
  by_cases h : v = unlistedByte
  · simp [writeByte, h, readByte_eraseCell]
  · simp only [writeByte, h, if_false, readByte_insertCell _ _ _ _ (eraseCell_ne mem a), readByte_eraseCell]
    by_cases hx : x = a <;> simp [hx]

@[simp] theorem readByte_writeByte_same (mem : List Host.Cell) (a : Nat) (v : Byte) :
    readByte (writeByte mem a v) a = v := by simp [readByte_writeByte]

theorem readByte_writeByte_ne (mem : List Host.Cell) {a x : Nat} (v : Byte) (h : x ≠ a) :
    readByte (writeByte mem a v) x = readByte mem x := by simp [readByte_writeByte, h]

/-! ## The canonical form -/

/-- A property of every cell that the written cell has too stays a property of every cell. -/
theorem forall_writeByte {P : Host.Cell → Prop} (mem : List Host.Cell) (a : Nat) (v : Byte)
    (h : ∀ c ∈ mem, P c) (hv : P (a, v)) : ∀ c ∈ writeByte mem a v, P c := by
  have he : ∀ c ∈ eraseCell a mem, P c := by
    induction mem with
    | nil => simp [eraseCell]
    | cons d t ih =>
      have ht := ih (fun c hc => h c (by simp [hc]))
      by_cases hd : d.1 = a
      · simpa [eraseCell, hd] using ht
      · intro c hc
        simp only [eraseCell, hd, if_false, List.mem_cons] at hc
        rcases hc with rfl | hc
        · exact h _ (by simp)
        · exact ht c hc
  have hi : ∀ l : List Host.Cell, (∀ c ∈ l, P c) → ∀ c ∈ insertCell a v l, P c := by
    intro l
    induction l with
    | nil => intro _ c hc; simp only [insertCell, List.mem_singleton] at hc; exact hc ▸ hv
    | cons d t ih =>
      intro hl c hc
      by_cases hlt : a < d.1
      · simp only [insertCell, hlt, if_true, List.mem_cons] at hc
        rcases hc with rfl | rfl | hc
        · exact hv
        · exact hl _ (by simp)
        · exact hl c (by simp [hc])
      · simp only [insertCell, hlt, if_false, List.mem_cons] at hc
        rcases hc with rfl | hc
        · exact hl _ (by simp)
        · exact ih (fun e he' => hl e (by simp [he'])) c hc
  unfold writeByte
  split
  · exact he
  · exact hi _ he

theorem memWf_cons (c : Host.Cell) (t : List Host.Cell) :
    memWf (c :: t) = true ↔ c.2 ≠ unlistedByte ∧ (∀ d ∈ t, c.1 < d.1) ∧ memWf t = true := by
  simp [memWf, and_assoc]

theorem memWf_eraseCell (mem : List Host.Cell) (a : Nat) (h : memWf mem = true) : memWf (eraseCell a mem) = true := by
  induction mem with
  | nil => simpa [eraseCell] using h
  | cons c t ih =>
    obtain ⟨h1, h2, h3⟩ := (memWf_cons c t).1 h
    by_cases hc : c.1 = a
    · simpa [eraseCell, hc] using ih h3
    · simp only [eraseCell, hc, if_false]
      refine (memWf_cons _ _).2 ⟨h1, ?_, ih h3⟩
      intro d hd
      have : d ∈ t := by
        clear ih h h2 h3
        induction t with
        | nil => simp [eraseCell] at hd
        | cons e r ihr =>
          by_cases he : e.1 = a
          · simp only [eraseCell, he, if_true] at hd; exact List.mem_cons_of_mem _ (ihr hd)
          · simp only [eraseCell, he, if_false, List.mem_cons] at hd
            rcases hd with rfl | hd
            · simp
            · exact List.mem_cons_of_mem _ (ihr hd)
      exact h2 d this

theorem memWf_insertCell (mem : List Host.Cell) (a : Nat) (v : Byte) (hv : v ≠ unlistedByte)
    (hne : ∀ c ∈ mem, c.1 ≠ a) (h : memWf mem = true) : memWf (insertCell a v mem) = true := by
  induction mem with
  | nil => simp [insertCell, memWf, hv]
  | cons c t ih =>
    obtain ⟨h1, h2, h3⟩ := (memWf_cons c t).1 h
    have hc : c.1 ≠ a := hne c (by simp)
    by_cases hlt : a < c.1
    · simp only [insertCell, hlt, if_true]
      refine (memWf_cons _ _).2 ⟨hv, ?_, h⟩
      intro d hd
      rcases List.mem_cons.1 hd with rfl | hd
      · exact hlt
      · exact lt_trans hlt (h2 d hd)
    · simp only [insertCell, hlt, if_false]
      refine (memWf_cons _ _).2 ⟨h1, ?_, ih (fun d hd => hne d (by simp [hd])) h3⟩
      have hgt : c.1 < a := by omega
      have : ∀ l : List Host.Cell, (∀ d ∈ l, c.1 < d.1) → ∀ d ∈ insertCell a v l, c.1 < d.1 := by
        intro l
        induction l with
        | nil => intro _ d hd; simp only [insertCell, List.mem_singleton] at hd; simpa [hd] using hgt
        | cons e r ihr =>
          intro hl d hd
          by_cases hae : a < e.1
          · simp only [insertCell, hae, if_true, List.mem_cons] at hd
            rcases hd with rfl | rfl | hd
            · exact hgt
            · exact hl _ (by simp)
            · exact hl d (by simp [hd])
          · simp only [insertCell, hae, if_false, List.mem_cons] at hd
            rcases hd with rfl | hd
            · exact hl _ (by simp)
            · exact ihr (fun f hf => hl f (by simp [hf])) d hd
      exact this t h2

/-- A byte write keeps the canonical form. -/
theorem memWf_writeByte (mem : List Host.Cell) (a : Nat) (v : Byte) (h : memWf mem = true) :
    memWf (writeByte mem a v) = true := by
  unfold writeByte
  split
  · exact memWf_eraseCell mem a h
  · next hv => exact memWf_insertCell _ a v hv (eraseCell_ne mem a) (memWf_eraseCell mem a h)

/-- A byte write to an address that exists keeps every listed address existing. -/
theorem memBounded_writeByte (mem : List Host.Cell) (a : Nat) (v : Byte) (ha : a < 2 ^ 32)
    (h : memBounded mem = true) : memBounded (writeByte mem a v) = true := by
  simp only [memBounded, List.all_eq_true, decide_eq_true_eq] at h ⊢
  exact forall_writeByte (P := fun c => c.1 < 2 ^ 32) mem a v h ha

/-! ## Four bytes -/

theorem readByte_write32 (mem : List Host.Cell) (a x : Nat) (v : Word) :
    readByte (write32 mem a v) x =
      if x = a + 3 then v.extractLsb' 24 8 else if x = a + 2 then v.extractLsb' 16 8
      else if x = a + 1 then v.extractLsb' 8 8 else if x = a then v.extractLsb' 0 8 else readByte mem x := by
  simp [write32, readByte_writeByte]

theorem readByte_write32_outside (mem : List Host.Cell) {a x : Nat} (v : Word) (h : x < a ∨ a + 4 ≤ x) :
    readByte (write32 mem a v) x = readByte mem x := by
  rw [readByte_write32]
  have : x ≠ a + 3 ∧ x ≠ a + 2 ∧ x ≠ a + 1 ∧ x ≠ a := by omega
  simp [this]

/-- The four bytes of a word put together again. -/
theorem bytes_append (v : Word) :
    v.extractLsb' 24 8 ++ v.extractLsb' 16 8 ++ v.extractLsb' 8 8 ++ v.extractLsb' 0 8 = v := by
  ext i hi
  simp only [BitVec.getElem_append, BitVec.getElem_extractLsb']
  split
  · simp [BitVec.getLsbD_eq_getElem (show i < 32 from hi)]
  · split
    · simp [show 8 + (i - 8) = i by omega, BitVec.getLsbD_eq_getElem (show i < 32 from hi)]
    · split
      · simp [show 16 + (i - 8 - 8) = i by omega, BitVec.getLsbD_eq_getElem (show i < 32 from hi)]
      · simp [show 24 + (i - 8 - 8 - 8) = i by omega, BitVec.getLsbD_eq_getElem (show i < 32 from hi)]

theorem read32_write32_same (mem : List Host.Cell) (a : Nat) (v : Word) : read32 (write32 mem a v) a = v := by
  have h : read32 (write32 mem a v) a =
      v.extractLsb' 24 8 ++ v.extractLsb' 16 8 ++ v.extractLsb' 8 8 ++ v.extractLsb' 0 8 := by
    simp [read32, readByte_write32]
  rw [h, bytes_append]

theorem read32_congr {m n : List Host.Cell} {a : Nat} (h : ∀ k < 4, readByte m (a + k) = readByte n (a + k)) :
    read32 m a = read32 n a := by
  have h0 := h 0 (by decide)
  have h1 := h 1 (by decide)
  have h2 := h 2 (by decide)
  have h3 := h 3 (by decide)
  simp only [Nat.add_zero] at h0
  simp [read32, h0, h1, h2, h3]

theorem read32_write32_outside (mem : List Host.Cell) {a x : Nat} (v : Word) (h : x + 4 ≤ a ∨ a + 4 ≤ x) :
    read32 (write32 mem a v) x = read32 mem x :=
  read32_congr (fun _ hk => readByte_write32_outside mem v (by omega))

theorem memWf_write32 (mem : List Host.Cell) (a : Nat) (v : Word) (h : memWf mem = true) :
    memWf (write32 mem a v) = true := by
  unfold write32
  exact memWf_writeByte _ _ _ (memWf_writeByte _ _ _ (memWf_writeByte _ _ _ (memWf_writeByte _ _ _ h)))

theorem memBounded_write32 (mem : List Host.Cell) (a : Nat) (v : Word) (ha : a + 4 ≤ 2 ^ 32)
    (h : memBounded mem = true) : memBounded (write32 mem a v) = true := by
  unfold write32
  refine memBounded_writeByte _ _ _ (by omega) (memBounded_writeByte _ _ _ (by omega)
    (memBounded_writeByte _ _ _ (by omega) (memBounded_writeByte _ _ _ (by omega) h)))

/-! ## The three writes of a pixel -/

theorem readByte_storePixel8 (mem : List Host.Cell) (b i x : Nat) (o : Out8) :
    readByte (storePixel8 mem b i o) x =
      if x = ea8 b i 2 then o.c2 else if x = ea8 b i 1 then o.c1 else if x = ea8 b i 0 then o.c0
      else readByte mem x := by
  simp [storePixel8, readByte_writeByte]

theorem readByte_storePixel8_outside (mem : List Host.Cell) {b i x : Nat} (o : Out8)
    (h : x < ea8 b i 0 ∨ ea8 b i 0 + 3 ≤ x) : readByte (storePixel8 mem b i o) x = readByte mem x := by
  simp only [ea8] at h
  rw [readByte_storePixel8, if_neg (by simp only [ea8]; omega), if_neg (by simp only [ea8]; omega),
    if_neg (by simp only [ea8]; omega)]

theorem readByte_storePixel32_outside (mem : List Host.Cell) {b i x : Nat} (o : Out32)
    (h : x < ea32 b i 0 ∨ ea32 b i 0 + 12 ≤ x) : readByte (storePixel32 mem b i o) x = readByte mem x := by
  simp only [ea32] at h
  unfold storePixel32
  rw [readByte_write32_outside _ _ (by simp only [ea32]; omega),
    readByte_write32_outside _ _ (by simp only [ea32]; omega),
    readByte_write32_outside _ _ (by simp only [ea32]; omega)]

/-- What a pixel's float writes leave in its three elements. -/
theorem read32_storePixel32 (mem : List Host.Cell) (b i : Nat) (o : Out32) :
    read32 (storePixel32 mem b i o) (ea32 b i 0) = o.c0 ∧
    read32 (storePixel32 mem b i o) (ea32 b i 1) = o.c1 ∧
    read32 (storePixel32 mem b i o) (ea32 b i 2) = o.c2 := by
  refine ⟨?_, ?_, read32_write32_same _ _ _⟩
  · rw [storePixel32, read32_write32_outside _ _ (by simp only [ea32]; omega),
      read32_write32_outside _ _ (by simp only [ea32]; omega), read32_write32_same]
  · rw [storePixel32, read32_write32_outside _ _ (by simp only [ea32]; omega), read32_write32_same]

theorem memWf_storePixel8 (mem : List Host.Cell) (b i : Nat) (o : Out8) (h : memWf mem = true) :
    memWf (storePixel8 mem b i o) = true :=
  memWf_writeByte _ _ _ (memWf_writeByte _ _ _ (memWf_writeByte _ _ _ h))

theorem memWf_storePixel32 (mem : List Host.Cell) (b i : Nat) (o : Out32) (h : memWf mem = true) :
    memWf (storePixel32 mem b i o) = true :=
  memWf_write32 _ _ _ (memWf_write32 _ _ _ (memWf_write32 _ _ _ h))

/-! ## Free contents -/

theorem readByte_fillFree_outside (draw base len : Nat) (mem : List Host.Cell) {x : Nat}
    (h : x < base ∨ base + len ≤ x) : readByte (fillFree draw base len mem) x = readByte mem x := by
  induction len with
  | zero => rfl
  | succ n ih =>
    rw [fillFree, readByte_writeByte_ne _ _ (by omega)]
    exact ih (by omega)

theorem memWf_fillFree (draw base len : Nat) (mem : List Host.Cell) (h : memWf mem = true) :
    memWf (fillFree draw base len mem) = true := by
  induction len with
  | zero => exact h
  | succ n ih => exact memWf_writeByte _ _ _ ih

theorem memBounded_fillFree (draw base len : Nat) (mem : List Host.Cell) (hb : base + len ≤ 2 ^ 32)
    (h : memBounded mem = true) : memBounded (fillFree draw base len mem) = true := by
  induction len with
  | zero => exact h
  | succ n ih => exact memBounded_writeByte _ _ _ (by omega) (ih (by omega))

end Sys2Proof.Machine
end

