-- ==== Sys2Proof/Laws/State.lean ====
section
/-! SUPPORT. One lemma per field per named update of the state, all by rfl. -/

namespace Sys2Proof.Machine

/-! pixelDone -/

@[simp] theorem State.pixelDone_phase (s : State) (snap : Snapshot) (mem : List Host.Cell) : (s.pixelDone snap mem).phase = s.phase := rfl
@[simp] theorem State.pixelDone_mem (s : State) (snap : Snapshot) (mem : List Host.Cell) : (s.pixelDone snap mem).mem = mem := rfl
@[simp] theorem State.pixelDone_cmd (s : State) (snap : Snapshot) (mem : List Host.Cell) : (s.pixelDone snap mem).cmd = s.cmd := rfl
@[simp] theorem State.pixelDone_rst (s : State) (snap : Snapshot) (mem : List Host.Cell) : (s.pixelDone snap mem).rst = s.rst := rfl
@[simp] theorem State.pixelDone_owned (s : State) (snap : Snapshot) (mem : List Host.Cell) : (s.pixelDone snap mem).owned = s.owned := rfl
@[simp] theorem State.pixelDone_released (s : State) (snap : Snapshot) (mem : List Host.Cell) : (s.pixelDone snap mem).released = s.released := rfl
@[simp] theorem State.pixelDone_env (s : State) (snap : Snapshot) (mem : List Host.Cell) : (s.pixelDone snap mem).env = s.env := rfl
@[simp] theorem State.pixelDone_replies (s : State) (snap : Snapshot) (mem : List Host.Cell) : (s.pixelDone snap mem).replies = s.replies := rfl
@[simp] theorem State.pixelDone_draws (s : State) (snap : Snapshot) (mem : List Host.Cell) : (s.pixelDone snap mem).draws = s.draws := rfl
@[simp] theorem State.pixelDone_presented (s : State) (snap : Snapshot) (mem : List Host.Cell) : (s.pixelDone snap mem).presented = s.presented := rfl
@[simp] theorem State.pixelDone_regs_op (s : State) (snap : Snapshot) (mem : List Host.Cell) : (s.pixelDone snap mem).regs.op = s.regs.op := rfl
@[simp] theorem State.pixelDone_regs_a0 (s : State) (snap : Snapshot) (mem : List Host.Cell) : (s.pixelDone snap mem).regs.a0 = s.regs.a0 := rfl
@[simp] theorem State.pixelDone_regs_a1 (s : State) (snap : Snapshot) (mem : List Host.Cell) : (s.pixelDone snap mem).regs.a1 = s.regs.a1 := rfl
@[simp] theorem State.pixelDone_regs_n (s : State) (snap : Snapshot) (mem : List Host.Cell) : (s.pixelDone snap mem).regs.n = s.regs.n := rfl
@[simp] theorem State.pixelDone_regs_m (s : State) (snap : Snapshot) (mem : List Host.Cell) : (s.pixelDone snap mem).regs.m = s.regs.m := rfl
@[simp] theorem State.pixelDone_regs_snap (s : State) (snap : Snapshot) (mem : List Host.Cell) : (s.pixelDone snap mem).regs.snap = snap := rfl
@[simp] theorem State.pixelDone_regs_pix (s : State) (snap : Snapshot) (mem : List Host.Cell) : (s.pixelDone snap mem).regs.pix = s.regs.pix := rfl

/-! nextPixel -/

@[simp] theorem State.nextPixel_phase (s : State) : s.nextPixel.phase = s.phase := rfl
@[simp] theorem State.nextPixel_mem (s : State) : s.nextPixel.mem = s.mem := rfl
@[simp] theorem State.nextPixel_cmd (s : State) : s.nextPixel.cmd = s.cmd := rfl
@[simp] theorem State.nextPixel_rst (s : State) : s.nextPixel.rst = s.rst := rfl
@[simp] theorem State.nextPixel_owned (s : State) : s.nextPixel.owned = s.owned := rfl
@[simp] theorem State.nextPixel_released (s : State) : s.nextPixel.released = s.released := rfl
@[simp] theorem State.nextPixel_env (s : State) : s.nextPixel.env = s.env := rfl
@[simp] theorem State.nextPixel_replies (s : State) : s.nextPixel.replies = s.replies := rfl
@[simp] theorem State.nextPixel_draws (s : State) : s.nextPixel.draws = s.draws := rfl
@[simp] theorem State.nextPixel_presented (s : State) : s.nextPixel.presented = s.presented := rfl
@[simp] theorem State.nextPixel_regs_op (s : State) : s.nextPixel.regs.op = s.regs.op := rfl
@[simp] theorem State.nextPixel_regs_a0 (s : State) : s.nextPixel.regs.a0 = s.regs.a0 := rfl
@[simp] theorem State.nextPixel_regs_a1 (s : State) : s.nextPixel.regs.a1 = s.regs.a1 := rfl
@[simp] theorem State.nextPixel_regs_n (s : State) : s.nextPixel.regs.n = s.regs.n := rfl
@[simp] theorem State.nextPixel_regs_m (s : State) : s.nextPixel.regs.m = s.regs.m := rfl
@[simp] theorem State.nextPixel_regs_snap (s : State) : s.nextPixel.regs.snap = s.regs.snap := rfl
@[simp] theorem State.nextPixel_regs_pix (s : State) : s.nextPixel.regs.pix = s.regs.pix + 1#32 := rfl

/-! accept -/

@[simp] theorem State.accept_phase (s : State) (i : Instr) : (s.accept i).phase = .busy := rfl
@[simp] theorem State.accept_regs (s : State) (i : Instr) : (s.accept i).regs = (Regs.free s.draws).latch i := rfl
@[simp] theorem State.accept_mem (s : State) (i : Instr) : (s.accept i).mem = s.mem := rfl
@[simp] theorem State.accept_cmd (s : State) (i : Instr) : (s.accept i).cmd = s.cmd := rfl
@[simp] theorem State.accept_rst (s : State) (i : Instr) : (s.accept i).rst = s.rst := rfl
@[simp] theorem State.accept_owned (s : State) (i : Instr) : (s.accept i).owned = s.owned := rfl
@[simp] theorem State.accept_released (s : State) (i : Instr) : (s.accept i).released = s.released := rfl
@[simp] theorem State.accept_env (s : State) (i : Instr) : (s.accept i).env = s.env := rfl
@[simp] theorem State.accept_replies (s : State) (i : Instr) : (s.accept i).replies = s.replies := rfl
@[simp] theorem State.accept_draws (s : State) (i : Instr) : (s.accept i).draws = s.draws + 1 := rfl
@[simp] theorem State.accept_presented (s : State) (i : Instr) : (s.accept i).presented = s.presented := rfl

/-! complete -/

@[simp] theorem State.complete_phase (s : State) : s.complete.phase = .idle := rfl
@[simp] theorem State.complete_regs (s : State) : s.complete.regs = Regs.free s.draws := rfl
@[simp] theorem State.complete_mem (s : State) : s.complete.mem = s.mem := rfl
@[simp] theorem State.complete_cmd (s : State) : s.complete.cmd = s.cmd := rfl
@[simp] theorem State.complete_rst (s : State) : s.complete.rst = s.rst := rfl
@[simp] theorem State.complete_owned (s : State) : s.complete.owned = s.owned := rfl
@[simp] theorem State.complete_released (s : State) : s.complete.released = s.released := rfl
@[simp] theorem State.complete_env (s : State) : s.complete.env = s.env := rfl
@[simp] theorem State.complete_replies (s : State) : s.complete.replies = .done :: s.replies := rfl
@[simp] theorem State.complete_draws (s : State) : s.complete.draws = s.draws + 1 := rfl
@[simp] theorem State.complete_presented (s : State) : s.complete.presented = s.presented := rfl

/-! takePacket -/

@[simp] theorem State.takePacket_phase (s : State) : s.takePacket.phase = s.phase := rfl
@[simp] theorem State.takePacket_regs (s : State) : s.takePacket.regs = s.regs := rfl
@[simp] theorem State.takePacket_mem (s : State) : s.takePacket.mem = s.mem := rfl
@[simp] theorem State.takePacket_cmd (s : State) : s.takePacket.cmd = none := rfl
@[simp] theorem State.takePacket_rst (s : State) : s.takePacket.rst = s.rst := rfl
@[simp] theorem State.takePacket_owned (s : State) : s.takePacket.owned = s.owned := rfl
@[simp] theorem State.takePacket_released (s : State) : s.takePacket.released = s.released := rfl
@[simp] theorem State.takePacket_env (s : State) : s.takePacket.env = s.env := rfl
@[simp] theorem State.takePacket_replies (s : State) : s.takePacket.replies = s.replies := rfl
@[simp] theorem State.takePacket_draws (s : State) : s.takePacket.draws = s.draws := rfl
@[simp] theorem State.takePacket_presented (s : State) : s.takePacket.presented = s.presented := rfl

/-! resetStep -/

@[simp] theorem resetStep_phase (s : State) : (resetStep s).phase = .idle := rfl
@[simp] theorem resetStep_regs (s : State) : (resetStep s).regs = Regs.free s.draws := rfl
@[simp] theorem resetStep_mem (s : State) : (resetStep s).mem = resetMem s := rfl
@[simp] theorem resetStep_cmd (s : State) : (resetStep s).cmd = none := rfl
@[simp] theorem resetStep_rst (s : State) : (resetStep s).rst = false := rfl
@[simp] theorem resetStep_owned (s : State) : (resetStep s).owned = s.owned := rfl
@[simp] theorem resetStep_released (s : State) : (resetStep s).released = s.released := rfl
@[simp] theorem resetStep_env (s : State) : (resetStep s).env = s.env := rfl
@[simp] theorem resetStep_replies (s : State) : (resetStep s).replies = s.replies := rfl
@[simp] theorem resetStep_draws (s : State) : (resetStep s).draws = s.draws + 1 := rfl
@[simp] theorem resetStep_presented (s : State) : (resetStep s).presented = s.presented := rfl

/-! presentNow -/

@[simp] theorem presentNow_phase (s : State) (p : Packet) : (presentNow s p).phase = .idle := rfl
@[simp] theorem presentNow_regs (s : State) (p : Packet) : (presentNow s p).regs = s.regs := rfl
@[simp] theorem presentNow_mem (s : State) (p : Packet) : (presentNow s p).mem = s.mem := rfl
@[simp] theorem presentNow_cmd (s : State) (p : Packet) : (presentNow s p).cmd = some p := rfl
@[simp] theorem presentNow_rst (s : State) (p : Packet) : (presentNow s p).rst = false := rfl
@[simp] theorem presentNow_owned (s : State) (p : Packet) : (presentNow s p).owned = s.owned := rfl
@[simp] theorem presentNow_released (s : State) (p : Packet) : (presentNow s p).released = s.released := rfl
@[simp] theorem presentNow_env (s : State) (p : Packet) : (presentNow s p).env = [] := rfl
@[simp] theorem presentNow_replies (s : State) (p : Packet) : (presentNow s p).replies = s.replies := rfl
@[simp] theorem presentNow_draws (s : State) (p : Packet) : (presentNow s p).draws = s.draws := rfl
@[simp] theorem presentNow_presented (s : State) (p : Packet) : (presentNow s p).presented = s.presented + 1 := rfl

/-! The views -/

@[simp] theorem status_idle (s : State) (h : s.phase = .idle) : s.status = 0x00000000#32 := by
  simp [State.status, h]

@[simp] theorem status_busy (s : State) (h : s.phase = .busy) : s.status = 0x00000001#32 := by
  simp [State.status, h]

@[simp] theorem runningCmd_idle (s : State) (h : s.phase = .idle) : s.runningCmd = none := by
  simp [State.runningCmd, h]

@[simp] theorem runningCmd_busy (s : State) (h : s.phase = .busy) : s.runningCmd = s.regs.latched := by
  simp [State.runningCmd, h]

@[simp] theorem heldCmd_none (s : State) (h : s.cmd = none) : s.heldCmd = none := by
  simp [State.heldCmd, h]

theorem heldCmd_some {s : State} {p : Packet} (h : s.cmd = some p) : s.heldCmd = (decode p).toOption := by
  simp [State.heldCmd, h]

theorem runningBreach_eq_none {s : State} :
    runningBreach s = none ↔ ∀ i, s.runningCmd = some i → breach s.owned i = none := by
  simp [runningBreach, Option.bind_eq_none_iff]

theorem heldBreach_eq_none {s : State} :
    heldBreach s = none ↔ ∀ i, s.heldCmd = some i → breach s.owned i = none := by
  simp [heldBreach, Option.bind_eq_none_iff]

/-- Nothing presented is in breach exactly when neither the running command nor the held one is. -/
theorem standingBreach_eq_none {s : State} :
    standingBreach s = none ↔ runningBreach s = none ∧ heldBreach s = none := by
  simp [standingBreach]

/-- What is latched of a command is the command (R27, R59 to R61). -/
@[simp] theorem latched_latch (i : Instr) (r : Regs) : (r.latch i).latched = some i := by
  cases i <;> rfl

@[simp] theorem latch_pix (i : Instr) (r : Regs) : (r.latch i).pix = 0#32 := by cases i <;> rfl

@[simp] theorem latch_op (i : Instr) (r : Regs) : (r.latch i).op = i.opcode := by cases i <;> rfl

/-- Reading back the latched command does not depend on the snapshot or the pixel index. -/
@[simp] theorem latched_pixelDone (s : State) (snap : Snapshot) (mem : List Host.Cell) :
    (s.pixelDone snap mem).regs.latched = s.regs.latched := rfl

@[simp] theorem latched_nextPixel (s : State) : s.nextPixel.regs.latched = s.regs.latched := rfl

end Sys2Proof.Machine
end

