-- ==== Sys2Proof/Laws/Command.lean ====
section
/-! SUPPORT. What one step of the block can do, said once (10_state.md R27 to R29). -/

namespace Sys2Proof.Machine

/-- Every arm of exec is the shared step with the command's own pixel rule. -/
theorem exec_eq_commandStep (i : Instr) (s : State) : exec i s = commandStep i (pixelRule i) s := by
  cases i <;> rfl

theorem exec_idle {i : Instr} {s : State} (hp : s.phase = .idle) (hb : breach s.owned i = none) :
    exec i s = .next (s.accept i) := by
  simp [exec_eq_commandStep, commandStep, hp, hb]

theorem exec_idle_breach {i : Instr} {s : State} {f : Fault} (hp : s.phase = .idle) (hb : breach s.owned i = some f) :
    exec i s = .fault f := by
  simp [exec_eq_commandStep, commandStep, hp, hb]

theorem exec_busy_held {i : Instr} {s : State} (hp : s.phase = .busy) (hl : s.regs.latched ≠ some i) :
    exec i s = .next s := by
  simp [exec_eq_commandStep, commandStep, hp, hl]

theorem exec_busy {i : Instr} {s : State} (hp : s.phase = .busy) (hl : s.regs.latched = some i)
    (hb : breach s.owned i = none) : exec i s = advance (pixelRule i) s := by
  simp [exec_eq_commandStep, commandStep, hp, hl, hb]

theorem exec_busy_breach {i : Instr} {s : State} {f : Fault} (hp : s.phase = .busy) (hl : s.regs.latched = some i)
    (hb : breach s.owned i = some f) : exec i s = .fault f := by
  simp [exec_eq_commandStep, commandStep, hp, hl, hb]

/-- Everything exec can answer with a next state: acceptance, a held command, a pixel step, completion. -/
theorem exec_cases {i : Instr} {s t : State} (h : exec i s = .next t) :
    (s.phase = .idle ∧ breach s.owned i = none ∧ t = s.accept i) ∨
    (s.phase = .busy ∧ s.regs.latched ≠ some i ∧ t = s) ∨
    (s.phase = .busy ∧ s.regs.latched = some i ∧ breach s.owned i = none ∧ s.regs.pix < s.regs.n ∧
      t = (pixelRule i s).nextPixel) ∨
    (s.phase = .busy ∧ s.regs.latched = some i ∧ breach s.owned i = none ∧ s.regs.pix = s.regs.n ∧ t = s.complete) := by
  cases hp : s.phase with
  | idle =>
    cases hb : breach s.owned i with
    | some f => rw [exec_idle_breach hp hb] at h; cases h
    | none => rw [exec_idle hp hb] at h; cases h; exact .inl ⟨rfl, rfl, rfl⟩
  | busy =>
    by_cases hl : s.regs.latched = some i
    · cases hb : breach s.owned i with
      | some f => rw [exec_busy_breach hp hl hb] at h; cases h
      | none =>
        rw [exec_busy hp hl hb, advance] at h
        split at h
        · next hlt => cases h; exact .inr (.inr (.inl ⟨rfl, hl, rfl, hlt, rfl⟩))
        · split at h
          · next heq => cases h; exact .inr (.inr (.inr ⟨rfl, hl, rfl, heq, rfl⟩))
          · cases h
    · rw [exec_busy_held hp hl] at h; cases h; exact .inr (.inl ⟨rfl, hl, rfl⟩)

/-- A pixel rule writes the snapshot registers and memory, nothing else. -/
theorem pixelRule_eq (i : Instr) (s : State) : ∃ snap mem, pixelRule i s = s.pixelDone snap mem := by
  cases i <;> exact ⟨_, _, rfl⟩

/-- A pixel rule keeps the canonical form of memory. -/
theorem memWf_pixelRule (i : Instr) (s : State) (h : memWf s.mem = true) : memWf (pixelRule i s).mem = true := by
  cases i
  · exact memWf_storePixel8 _ _ _ _ h
  · exact memWf_storePixel32 _ _ _ _ h
  · exact memWf_storePixel8 _ _ _ _ h

/-! ## The inputs -/

theorem step_reset {s : State} (h : s.rst = true) : step s = .next (resetStep s) := by
  simp [step, systemStep, h]

theorem step_block {s : State} (hr : s.rst = false) (he : s.env = []) : step s = blockStep s := by
  simp [step, systemStep, hr, he]

theorem step_input {s : State} {e : Input} {rest : List Input} (hr : s.rst = false) (he : s.env = e :: rest) :
    step s = inputStep e rest s := by
  simp [step, systemStep, hr, he]

end Sys2Proof.Machine
end

