-- ==== Sys2Proof/Laws/Step.lean ====
section
/-! SUPPORT. Everything one step of the system can answer with a next state, said once. -/

namespace Sys2Proof.Machine

/-- What the block's step does when it answers a next state (R27 to R29, R135): nothing to do, `exec` of the packet held or of
the latched command, or (in states no run reaches) completion with a reserved `OP`. -/
theorem blockStep_cases {s t : State} (h : blockStep s = .next t) :
    (s.phase = .idle ∧ s.cmd = none ∧ t = s) ∨
    (∃ p i, s.phase = .idle ∧ s.cmd = some p ∧ decode p = .ok i ∧ exec i s.takePacket = .next t) ∨
    (∃ i, s.phase = .busy ∧ s.regs.latched = some i ∧ exec i s = .next t) ∨
    (s.phase = .busy ∧ s.regs.latched = none ∧ s.regs.pix = s.regs.n ∧ t = s.complete) := by
  unfold blockStep at h
  cases hp : s.phase with
  | idle =>
    simp only [hp, idleStep] at h
    cases hc : s.cmd with
    | none => simp only [hc] at h; cases h; exact .inl ⟨rfl, rfl, rfl⟩
    | some p =>
      simp only [hc] at h
      cases hd : decode p with
      | error e => simp only [hd] at h; cases h
      | ok i => simp only [hd] at h; exact .inr (.inl ⟨p, i, rfl, rfl, hd, h⟩)
  | busy =>
    simp only [hp, busyStep] at h
    cases hl : s.regs.latched with
    | some i => simp only [hl] at h; exact .inr (.inr (.inl ⟨i, rfl, rfl, h⟩))
    | none =>
      simp only [hl] at h
      split at h
      · next he => cases h; exact .inr (.inr (.inr ⟨rfl, rfl, he, rfl⟩))
      · cases h

/-- The five things the block's step can do to the state, `exec` opened. -/
theorem blockStep_effects {s t : State} (h : blockStep s = .next t) :
    (s.phase = .idle ∧ s.cmd = none ∧ t = s) ∨
    (∃ p i, s.phase = .idle ∧ s.cmd = some p ∧ decode p = .ok i ∧ breach s.owned i = none ∧
      t = s.takePacket.accept i) ∨
    (∃ i, Running s i ∧ s.regs.pix < s.regs.n ∧ t = (pixelRule i s).nextPixel) ∨
    (s.phase = .busy ∧ s.regs.pix = s.regs.n ∧ t = s.complete) := by
  rcases blockStep_cases h with h | ⟨p, i, hp, hc, hd, he⟩ | ⟨i, hp, hl, he⟩ | ⟨hp, _, he, ht⟩
  · exact .inl h
  · rcases exec_cases he with ⟨_, hb, ht⟩ | ⟨hb, _⟩ | ⟨hb, _⟩ | ⟨hb, _⟩
    · exact .inr (.inl ⟨p, i, hp, hc, hd, hb, ht⟩)
    all_goals rw [State.takePacket_phase, hp] at hb; cases hb
  · rcases exec_cases he with ⟨hb, _⟩ | ⟨_, hn, _⟩ | ⟨_, _, hb, hlt, ht⟩ | ⟨_, _, _, heq, ht⟩
    · rw [hp] at hb; cases hb
    · exact absurd hl hn
    · exact .inr (.inr (.inl ⟨i, ⟨hp, hl, hb⟩, hlt, ht⟩))
    · exact .inr (.inr (.inr ⟨hp, heq, ht⟩))
  · exact .inr (.inr (.inr ⟨hp, he, ht⟩))

/-- What an input does when it answers a next state: the block's step, or one of seven changes. -/
theorem inputStep_cases {s t : State} {e : Input} {rest : List Input} (h : inputStep e rest s = .next t) :
    (e = .block ∧ blockStep { s with env := rest } = .next t) ∨
    (∃ p q, e = .present p ∧ s.cmd = some q ∧ blockStep s = .next t) ∨
    (∃ p, e = .present p ∧ s.cmd = none ∧ heldBreach { s with env := rest, cmd := some p } = none ∧
      t = { s with env := rest, cmd := some p, presented := s.presented + 1 }) ∨
    (e = .reset ∧ t = { s with env := rest, rst := true }) ∨
    (e = .readStatus ∧ t = { s with env := rest, replies := .status s.status :: s.replies }) ∨
    (∃ who addr rs, e = .read who addr ∧ intrudes s false addr.toNat = false ∧ releasedAt s addr.toNat = false ∧
      (rs = s.replies ∨ rs = .data addr (readByte s.mem addr.toNat) :: s.replies) ∧
      t = { s with env := rest, replies := rs }) ∨
    (∃ who addr v, e = .write who addr v ∧ intrudes s true addr.toNat = false ∧ releasedAt s addr.toNat = false ∧
      t = { s with env := rest, mem := writeByte s.mem addr.toNat v }) ∨
    (∃ base size, e = .allocated base size ∧ allocatable s.owned base.toNat size = true ∧
      t = { s with
        env := rest, owned := ⟨base.toNat, size⟩ :: s.owned, mem := fillFree s.draws base.toNat size s.mem,
        draws := s.draws + 1 }) ∨
    (∃ base size, e = .deallocate base size ∧ ⟨base.toNat, size⟩ ∈ s.owned ∧
      standingBreach { s with env := rest, owned := s.owned.erase ⟨base.toNat, size⟩ } = none ∧
      t = { s with
        env := rest, owned := s.owned.erase ⟨base.toNat, size⟩, released := ⟨base.toNat, size⟩ :: s.released }) := by
  cases e with
  | block => exact .inl ⟨rfl, h⟩
  | present p =>
    simp only [inputStep] at h
    cases hc : s.cmd with
    | none =>
      simp only [hc, presentPacket] at h
      split at h
      · cases h
      · next hb => cases h; exact .inr (.inr (.inl ⟨p, rfl, rfl, hb, rfl⟩))
    | some q => simp only [hc] at h; exact .inr (.inl ⟨p, q, rfl, rfl, h⟩)
  | reset => cases h; exact .inr (.inr (.inr (.inl ⟨rfl, rfl⟩)))
  | readStatus => cases h; exact .inr (.inr (.inr (.inr (.inl ⟨rfl, rfl⟩))))
  | read who addr =>
    simp only [inputStep, agentRead] at h
    split at h
    · cases h
    · next hi =>
      split at h
      · cases h
      · next hr =>
        have hi := Bool.eq_false_of_not_eq_true hi
        have hr := Bool.eq_false_of_not_eq_true hr
        cases who <;> cases h
        · exact .inr (.inr (.inr (.inr (.inr (.inl ⟨_, addr, _, rfl, hi, hr, .inr rfl, rfl⟩)))))
        · exact .inr (.inr (.inr (.inr (.inr (.inl ⟨_, addr, _, rfl, hi, hr, .inl rfl, rfl⟩)))))
  | write who addr v =>
    simp only [inputStep, agentWrite] at h
    split at h
    · cases h
    · next hi =>
      split at h
      · cases h
      · next hr =>
        cases h
        exact .inr (.inr (.inr (.inr (.inr (.inr (.inl
          ⟨_, addr, v, rfl, Bool.eq_false_of_not_eq_true hi, Bool.eq_false_of_not_eq_true hr, rfl⟩))))))
  | allocated base size =>
    simp only [inputStep, obtainRegion] at h
    split at h
    · next ha => cases h; exact .inr (.inr (.inr (.inr (.inr (.inr (.inr (.inl ⟨_, _, rfl, ha, rfl⟩)))))))
    · cases h
  | deallocate base size =>
    simp only [inputStep, freeRegion] at h
    split at h
    · next ha =>
      split at h
      · cases h
      · next hr =>
        cases h
        exact .inr (.inr (.inr (.inr (.inr (.inr (.inr (.inr
          ⟨_, _, rfl, by simpa using ha, hr, rfl⟩)))))))
    · cases h

/-- Everything a step can answer with a next state: a reset, the block's step, an input. -/
theorem step_cases {s t : State} (h : step s = .next t) :
    (s.rst = true ∧ t = resetStep s) ∨
    (s.rst = false ∧ s.env = [] ∧ blockStep s = .next t) ∨
    (∃ e rest, s.rst = false ∧ s.env = e :: rest ∧ inputStep e rest s = .next t) := by
  cases hr : s.rst with
  | true => rw [step_reset hr] at h; cases h; exact .inl ⟨rfl, rfl⟩
  | false =>
    cases he : s.env with
    | nil => rw [step_block hr he] at h; exact .inr (.inl ⟨rfl, rfl, h⟩)
    | cons e rest => rw [step_input hr he] at h; exact .inr (.inr ⟨e, rest, rfl, rfl, h⟩)

end Sys2Proof.Machine
end

