-- ==== Sys2Proof/Laws/Contract.lean ====
section
/-! SUPPORT. What a kept contract gives: footprints inside the address space, pixels inside footprints, and what changes of
the owned regions keep it (20_memory.md R39 to R42, R56). -/

namespace Sys2Proof.Machine

theorem span_has {p : Span} {a : Nat} : p.has a = true ↔ p.base ≤ a ∧ a < p.base + p.len := by
  simp [Span.has]

theorem span_has_not {p : Span} {a : Nat} : p.has a = false ↔ a < p.base ∨ p.base + p.len ≤ a := by
  rw [← Bool.not_eq_true, span_has]; omega

/-- An access intrudes on nothing exactly when it touches neither the running command's footprint nor the held one's. -/
theorem intrudes_eq_false {s : State} {write : Bool} {a : Nat} :
    intrudes s write a = false ↔
      (∀ i, s.runningCmd = some i → touches write a i = false) ∧ (∀ i, s.heldCmd = some i → touches write a i = false) := by
  cases hr : s.runningCmd <;> cases hh : s.heldCmd <;> simp [intrudes, hr, hh]

theorem intrudes_of_running {s : State} {i : Instr} {write : Bool} {a : Nat} (hr : s.runningCmd = some i)
    (h : touches write a i = true) : intrudes s write a = true := by
  simp [intrudes, hr, h]

theorem intrudes_of_held {s : State} {i : Instr} {write : Bool} {a : Nat} (hh : s.heldCmd = some i)
    (h : touches write a i = true) : intrudes s write a = true := by
  simp [intrudes, hh, h]

theorem regionsHave_iff {rs : List Region} {a : Nat} :
    regionsHave rs a = true ↔ ∃ r ∈ rs, r.base ≤ a ∧ a < r.base + r.size := by
  simp [regionsHave, Span.has]

theorem covered_bound {owned : List Region} {p : Span} (h : covered owned p = true) (hp : p.len ≠ 0) :
    p.base + p.len ≤ 2 ^ 32 := by
  simp only [covered, Bool.or_eq_true, beq_iff_eq, Bool.and_eq_true, decide_eq_true_eq] at h
  rcases h with h | h
  · exact absurd h hp
  · exact h.1

theorem covered_cons {owned : List Region} {p : Span} (r : Region) (h : covered owned p = true) :
    covered (r :: owned) p = true := by
  simp only [covered, Bool.or_eq_true, beq_iff_eq, Bool.and_eq_true, List.any_cons] at h ⊢
  rcases h with h | ⟨h1, h2⟩
  · exact .inl h
  · exact .inr ⟨h1, .inr h2⟩

/-- The range part of a kept contract. -/
theorem covered_of_breach {owned : List Region} {i : Instr} (h : breach owned i = none) :
    covered owned (readSpan i) = true ∧ covered owned (writeSpan i) = true := by
  cases i with
  | toycbcr b n => simp only [breach] at h; split at h <;> simp_all [readSpan, writeSpan]
  | toxyz b n m => simp only [breach] at h; split at h <;> simp_all [readSpan, writeSpan]
  | torgbfromxyz a b n => simp only [breach] at h; split at h <;> simp_all

/-- A kept contract stays kept when a region is added. -/
theorem breach_cons {owned : List Region} {i : Instr} (r : Region) (h : breach owned i = none) :
    breach (r :: owned) i = none := by
  obtain ⟨h1, h2⟩ := covered_of_breach h
  have g1 := covered_cons r h1
  have g2 := covered_cons r h2
  cases i <;> simp_all [breach]

/-- The latched command's operands are the registers. -/
theorem latched_n {r : Regs} {i : Instr} (h : r.latched = some i) : npixOf i = r.n := by
  unfold Regs.latched at h
  split at h
  · cases h; rfl
  · split at h
    · cases h; rfl
    · split at h
      · cases h; rfl
      · cases h

/-- The bytes a pixel below the count writes lie inside the write footprint. -/
theorem pixelSpan_sub (i : Instr) (p a : Nat) (hp : p < (npixOf i).toNat) (ha : (pixelSpan i p).has a = true) :
    (writeSpan i).has a = true := by
  cases i <;> simp only [pixelSpan, writeSpan, span_has, npixOf, ea8, ea32] at * <;> omega

/-- The registers a command is latched in. -/
theorem latched_toycbcr {r : Regs} {b n : Word} (h : r.latched = some (.toycbcr b n)) : r.a0 = b ∧ r.n = n := by
  unfold Regs.latched at h
  repeat' split at h
  all_goals first | (cases h; exact ⟨rfl, rfl⟩) | cases h

theorem latched_toxyz {r : Regs} {b n : Word} {m : Coeffs} (h : r.latched = some (.toxyz b n m)) :
    r.a0 = b ∧ r.n = n ∧ r.m = m := by
  unfold Regs.latched at h
  repeat' split at h
  all_goals first | (cases h; exact ⟨rfl, rfl, rfl⟩) | cases h

theorem latched_torgbfromxyz {r : Regs} {a b n : Word} (h : r.latched = some (.torgbfromxyz a b n)) :
    r.a0 = a ∧ r.a1 = b ∧ r.n = n := by
  unfold Regs.latched at h
  repeat' split at h
  all_goals first | (cases h; exact ⟨rfl, rfl, rfl⟩) | cases h

/-- The pixel step of the latched command changes no byte outside that pixel's. -/
theorem readByte_pixelRule_outside {i : Instr} {s : State} (hl : s.regs.latched = some i) {a : Nat}
    (ha : (pixelSpan i s.regs.pix.toNat).has a = false) : readByte (pixelRule i s).mem a = readByte s.mem a := by
  cases i with
  | toycbcr b n =>
    obtain ⟨h0, _⟩ := latched_toycbcr hl
    refine readByte_storePixel8_outside _ _ ?_
    rw [h0]; exact span_has_not.1 ha
  | toxyz b n m =>
    obtain ⟨h0, _⟩ := latched_toxyz hl
    refine readByte_storePixel32_outside _ _ ?_
    rw [h0]; exact span_has_not.1 ha
  | torgbfromxyz b c n =>
    obtain ⟨_, h1, _⟩ := latched_torgbfromxyz hl
    refine readByte_storePixel8_outside _ _ ?_
    rw [h1]; exact span_has_not.1 ha

/-- PIX + 1 does not wrap below the count (R23). -/
theorem pix_succ {p n : Word} (h : p < n) : (p + 1#32).toNat = p.toNat + 1 := by
  have h1 : p.toNat < n.toNat := h
  have h2 := n.isLt
  rw [BitVec.toNat_add, show (1#32).toNat = 1 by decide]
  omega

end Sys2Proof.Machine
end

