-- ==== Sys2Proof/Laws/Float.lean ====
section
/-! SUPPORT. What a pattern built from a sign and a magnitude is, and what the one rounding of R75 gives: its value, its
distance from the exact value, ties, overflow, order; and which lower bound each primitive keeps. -/

namespace Sys2Proof.Machine

/-! ## Magnitude patterns -/

/-- The magnitude of a magnitude pattern, in units of 2^-149 (R74). -/
def magN (p : Nat) : Nat := if p / 2 ^ 23 = 0 then p % 2 ^ 23 else (2 ^ 23 + p % 2 ^ 23) * 2 ^ (p / 2 ^ 23 - 1)

theorem withSign_toNat (neg : Bool) (p : Nat) (h : p < 2 ^ 31) :
    (withSign neg p).toNat = (if neg then 2 ^ 31 else 0) + p := by
  cases neg <;> simp [withSign, BitVec.toNat_ofNat] <;> omega

theorem fExp_withSign (neg : Bool) (p : Nat) (h : p < 2 ^ 31) : fExp (withSign neg p) = p / 2 ^ 23 := by
  have := withSign_toNat neg p h
  simp only [fExp, BitVec.extractLsb'_toNat, this, Nat.shiftRight_eq_div_pow]
  cases neg <;> simp <;> omega

theorem fFrac_withSign (neg : Bool) (p : Nat) (h : p < 2 ^ 31) : fFrac (withSign neg p) = p % 2 ^ 23 := by
  have := withSign_toNat neg p h
  simp only [fFrac, BitVec.extractLsb'_toNat, this, Nat.shiftRight_eq_div_pow]
  cases neg
  · simp
  · simp; omega

theorem fSign_withSign (neg : Bool) (p : Nat) (h : p < 2 ^ 31) : fSign (withSign neg p) = neg := by
  have := withSign_toNat neg p h
  rw [fSign, BitVec.getLsbD, this, Nat.testBit_eq_decide_div_mod_eq]
  cases neg <;> simp <;> omega

theorem fMag_withSign (neg : Bool) (p : Nat) (h : p < 2 ^ 31) : fMag (withSign neg p) = magN p := by
  simp only [fMag, fExp_withSign neg p h, fFrac_withSign neg p h, magN]

/-- A magnitude pattern below the infinity's is finite. -/
theorem classify_withSign (neg : Bool) (p : Nat) (h : p < 0x7F800000) :
    classify (withSign neg p) = .fin neg (magN p) := by
  have h31 : p < 2 ^ 31 := by omega
  rw [classify, fExp_withSign neg p h31, fSign_withSign neg p h31, fMag_withSign neg p h31, if_neg (by omega)]

theorem classify_infinity (neg : Bool) : classify (infinity neg) = .inf neg := by
  cases neg <;> decide

theorem classify_zero (neg : Bool) : classify (zero neg) = .fin neg 0 := by
  cases neg <;> decide

theorem classify_qnan : classify qnan = .nan := by decide

/-- Every finite pattern is its sign above its magnitude pattern. -/
theorem eq_withSign_of_fin {w : Word} {neg : Bool} {m : Nat} (h : classify w = .fin neg m) :
    ∃ p, p < 0x7F800000 ∧ w = withSign neg p ∧ m = magN p := by
  have he : fExp w ≠ 255 := by
    intro hc; rw [classify, if_pos hc] at h; split at h <;> cases h
  rw [classify, if_neg he] at h
  injection h with h1 h2
  have hlt : w.toNat < 2 ^ 32 := w.isLt
  have hexp : fExp w = w.toNat / 2 ^ 23 % 2 ^ 8 := by
    simp [fExp, BitVec.extractLsb'_toNat, Nat.shiftRight_eq_div_pow]
  have hs : neg = decide (w.toNat / 2 ^ 31 % 2 = 1) := by
    rw [← h1, fSign, BitVec.getLsbD, Nat.testBit_eq_decide_div_mod_eq]
  have hp : w.toNat % 2 ^ 31 < 0x7F800000 := by omega
  refine ⟨w.toNat % 2 ^ 31, hp, ?_, ?_⟩
  · apply BitVec.eq_of_toNat_eq
    rw [withSign_toNat _ _ (by omega), hs]
    by_cases hb : w.toNat / 2 ^ 31 % 2 = 1
    · simp only [hb, decide_true, if_true]; omega
    · simp only [hb, decide_false]; simp only [Bool.false_eq_true, if_false]; omega
  · have hw : w = withSign neg (w.toNat % 2 ^ 31) := by
      apply BitVec.eq_of_toNat_eq
      rw [withSign_toNat _ _ (by omega), hs]
      by_cases hb : w.toNat / 2 ^ 31 % 2 = 1
      · simp only [hb, decide_true, if_true]; omega
      · simp only [hb, decide_false]; simp only [Bool.false_eq_true, if_false]; omega
    rw [← h2]
    conv_lhs => rw [hw]
    exact fMag_withSign _ _ (by omega)

/-- `neg` flips the sign of what it is given (R78). -/
theorem classify_fneg (w : Word) :
    classify (fneg w) = match classify w with
      | .nan => .nan
      | .inf n => .inf (!n)
      | .fin n m => .fin (!n) m := by
  have hs : fSign (fneg w) = !fSign w := by
    simp only [fSign, fneg, BitVec.getLsbD_xor]
    rw [show (0x80000000#32).getLsbD 31 = true by decide]; simp
  have he : fExp (fneg w) = fExp w := by
    have : (fneg w).extractLsb' 23 8 = w.extractLsb' 23 8 := by
      ext i hi
      simp only [fneg, BitVec.getElem_extractLsb', BitVec.getLsbD_xor]
      have : (0x80000000#32).getLsbD (23 + i) = false := by
        have : ∀ j < 8, (0x80000000#32).getLsbD (23 + j) = false := by decide
        exact this i hi
      simp [this]
    simp [fExp, this]
  have hf : fFrac (fneg w) = fFrac w := by
    have : (fneg w).extractLsb' 0 23 = w.extractLsb' 0 23 := by
      ext i hi
      simp only [fneg, BitVec.getElem_extractLsb', BitVec.getLsbD_xor]
      have : (0x80000000#32).getLsbD (0 + i) = false := by
        have : ∀ j < 23, (0x80000000#32).getLsbD (0 + j) = false := by decide
        exact this i hi
      rw [this, Bool.xor_false]
    simp [fFrac, this]
  simp only [classify, hs, he, hf, fMag]
  by_cases h1 : fExp w = 255
  · by_cases h2 : fFrac w = 0 <;> simp [h1, h2]
  · simp [h1]

/-! ## The rounding -/

theorem roundEven_cases (num den : Nat) : roundEven num den = num / den ∨ roundEven num den = num / den + 1 := by
  unfold roundEven; split <;> simp

theorem roundShift_pos {num den : Nat} (h : 0 < roundShift num den) :
    2 ^ 23 ≤ num / (den * 2 ^ roundShift num den) ∧ num / (den * 2 ^ roundShift num den) < 2 ^ 24 := by
  have hk : Nat.log2 (num / den) = roundShift num den + 23 := by unfold roundShift at *; omega
  rw [← Nat.div_div_eq_div_mul]
  generalize roundShift num den = k at *
  generalize num / den = q at *
  have hq : q ≠ 0 := by
    intro h0; rw [h0] at hk; simp at hk
  have h1 := Nat.log2_self_le hq
  have h2 := @Nat.lt_log2_self q
  rw [hk, Nat.add_comm, pow_add] at h1
  rw [hk, show k + 23 + 1 = 24 + k by omega, pow_add] at h2
  exact ⟨(Nat.le_div_iff_mul_le (Nat.two_pow_pos k)).2 h1, (Nat.div_lt_iff_lt_mul (Nat.two_pow_pos k)).2 h2⟩

theorem roundShift_zero {num den : Nat} (h : roundShift num den = 0) : num / den < 2 ^ 24 := by
  have hk : Nat.log2 (num / den) ≤ 23 := by unfold roundShift at h; omega
  exact lt_of_lt_of_le Nat.lt_log2_self (Nat.pow_le_pow_right (by norm_num) (by omega))

/-- The bits kept fit in 24, carry included. -/
theorem round_le (num den : Nat) : roundEven num (den * 2 ^ roundShift num den) ≤ 2 ^ 24 := by
  rcases Nat.eq_zero_or_pos (roundShift num den) with h | h
  · have := roundShift_zero h
    rcases roundEven_cases num (den * 2 ^ roundShift num den) with h1 | h1 <;> rw [h1, h] <;> simp <;> omega
  · have := (roundShift_pos h).2
    rcases roundEven_cases num (den * 2 ^ roundShift num den) with h1 | h1 <;> rw [h1] <;> omega

theorem le_round {num den : Nat} (h : 0 < roundShift num den) :
    2 ^ 23 ≤ roundEven num (den * 2 ^ roundShift num den) := by
  have := (roundShift_pos h).1
  rcases roundEven_cases num (den * 2 ^ roundShift num den) with h1 | h1 <;> rw [h1] <;> omega

/-- The pattern made of exponent and bits kept has the value of the bits kept. -/
theorem magN_of_parts (k t : Nat) (h1 : t ≤ 2 ^ 24) (h2 : 0 < k → 2 ^ 23 ≤ t) : magN (k * 2 ^ 23 + t) = t * 2 ^ k := by
  rcases Nat.lt_or_ge t (2 ^ 23) with ht | ht
  · have hk : k = 0 := by by_contra h; have := h2 (by omega); omega
    subst hk
    have : (0 * 2 ^ 23 + t) / 2 ^ 23 = 0 := by omega
    simp only [magN, this, if_true]; omega
  · rcases Nat.lt_or_ge t (2 ^ 24) with h3 | h3
    · have hd : (k * 2 ^ 23 + t) / 2 ^ 23 = k + 1 := by omega
      have hm : (k * 2 ^ 23 + t) % 2 ^ 23 = t - 2 ^ 23 := by omega
      simp only [magN, hd, hm]
      simp only [Nat.add_one_ne_zero, if_false, Nat.add_sub_cancel]
      rw [show 2 ^ 23 + (t - 2 ^ 23) = t by omega]
    · have ht' : t = 2 ^ 24 := by omega
      subst ht'
      have hd : (k * 2 ^ 23 + 2 ^ 24) / 2 ^ 23 = k + 2 := by omega
      have hm : (k * 2 ^ 23 + 2 ^ 24) % 2 ^ 23 = 0 := by omega
      simp only [magN, hd, hm]
      simp only [show k + 2 ≠ 0 by omega, if_false, show k + 2 - 1 = k + 1 by omega]
      ring

/-- The value of a rounded magnitude that is not the infinity. -/
theorem magN_roundMag {num den : Nat} (h : roundMag num den < 0x7F800000) :
    magN (roundMag num den) = roundEven num (den * 2 ^ roundShift num den) * 2 ^ roundShift num den := by
  have : roundMag num den = roundShift num den * 2 ^ 23 + roundEven num (den * 2 ^ roundShift num den) := by
    unfold roundMag at *; omega
  rw [this]
  exact magN_of_parts _ _ (round_le num den) le_round

theorem roundMag_le (num den : Nat) : roundMag num den ≤ 0x7F800000 := Nat.min_le_left _ _

/-- A rounded result is finite or an infinity of its sign, never NaN. -/
theorem classify_packRound (neg : Bool) (num den : Nat) :
    (roundMag num den < 0x7F800000 ∧ classify (packRound neg num den) = .fin neg (magN (roundMag num den))) ∨
    (roundMag num den = 0x7F800000 ∧ classify (packRound neg num den) = .inf neg) := by
  rcases Nat.lt_or_ge (roundMag num den) 0x7F800000 with h | h
  · exact .inl ⟨h, classify_withSign neg _ h⟩
  · have : roundMag num den = 0x7F800000 := le_antisymm (roundMag_le num den) h
    exact .inr ⟨this, by rw [packRound, this]; exact classify_infinity neg⟩

/-- Magnitude grows with the pattern. -/
theorem magN_succ (p : Nat) : magN p < magN (p + 1) := by
  have hd : (p + 1) / 2 ^ 23 = p / 2 ^ 23 ∧ (p + 1) % 2 ^ 23 = p % 2 ^ 23 + 1 ∨
      (p + 1) / 2 ^ 23 = p / 2 ^ 23 + 1 ∧ (p + 1) % 2 ^ 23 = 0 ∧ p % 2 ^ 23 = 2 ^ 23 - 1 := by omega
  rcases hd with ⟨h1, h2⟩ | ⟨h1, h2, h3⟩
  · simp only [magN, h1, h2]
    split
    · omega
    · exact Nat.mul_lt_mul_of_pos_right (by omega) (by positivity)
  · simp only [magN, h1, h2, h3, Nat.add_one_ne_zero, if_false, Nat.add_sub_cancel]
    split
    · next h0 => rw [h0]; omega
    · next h0 =>
      obtain ⟨e, he⟩ : ∃ e, p / 2 ^ 23 = e + 1 := ⟨p / 2 ^ 23 - 1, by omega⟩
      rw [he, Nat.add_sub_cancel, pow_succ]
      have h5 : 0 < 2 ^ e := by positivity
      calc (2 ^ 23 + (2 ^ 23 - 1)) * 2 ^ e < 2 ^ 24 * 2 ^ e := Nat.mul_lt_mul_of_pos_right (by norm_num) h5
        _ = (2 ^ 23 + 0) * (2 ^ e * 2) := by ring

theorem magN_strictMono : StrictMono magN := strictMono_nat_of_lt_succ magN_succ

/-- The bits kept are a nearest integer. -/
theorem roundEven_nearest (num den j : Nat) (hd : 0 < den) :
    ((num : Int) - (den * roundEven num den : Nat)).natAbs ≤ ((num : Int) - (den * j : Nat)).natAbs := by
  have hdm := Nat.div_add_mod num den
  have hr : num % den < den := Nat.mod_lt _ hd
  set t := num / den with ht
  set r := num % den with hrr
  have hj : j ≤ t ∨ t + 1 ≤ j := by omega
  have e1 : den * (t + 1) = den * t + den := by ring
  have hup : roundEven num den = t + 1 → den ≤ 2 * r := by
    intro h; unfold roundEven at h; rw [← ht, ← hrr] at h
    split at h
    · next hc => simp at hc; omega
    · omega
  have hdn : roundEven num den = t → 2 * r ≤ den := by
    intro h; unfold roundEven at h; rw [← ht, ← hrr] at h
    split at h
    · omega
    · next hc => simp at hc; omega
  rcases roundEven_cases num den with h | h <;> rw [← ht] at h
  · have h2 := hdn h
    rw [h]
    rcases hj with h3 | h3
    · have : den * j ≤ den * t := Nat.mul_le_mul_left _ h3
      omega
    · have : den * (t + 1) ≤ den * j := Nat.mul_le_mul_left _ h3
      omega
  · have h2 := hup h
    rw [h]
    rcases hj with h3 | h3
    · have : den * j ≤ den * t := Nat.mul_le_mul_left _ h3
      omega
    · have : den * (t + 1) ≤ den * j := Nat.mul_le_mul_left _ h3
      omega

/-- A magnitude that is no multiple of 2^k lies below 2^(k+23). -/
theorem magN_small {p k : Nat} (h : ¬ 2 ^ k ∣ magN p) : magN p < 2 ^ (k + 23) := by
  have hm : p % 2 ^ 23 < 2 ^ 23 := Nat.mod_lt _ (by norm_num)
  unfold magN at *
  split at h
  · next h0 =>
    rw [if_pos h0]
    exact lt_of_lt_of_le hm (Nat.pow_le_pow_right (by norm_num) (by omega))
  · next h0 =>
    rw [if_neg h0]
    have hk : p / 2 ^ 23 - 1 < k := by
      by_contra hc
      exact h (Dvd.dvd.mul_left (pow_dvd_pow 2 (by omega)) _)
    calc (2 ^ 23 + p % 2 ^ 23) * 2 ^ (p / 2 ^ 23 - 1) < 2 ^ 24 * 2 ^ (p / 2 ^ 23 - 1) :=
          Nat.mul_lt_mul_of_pos_right (by omega) (by positivity)
      _ = 2 ^ (24 + (p / 2 ^ 23 - 1)) := (pow_add 2 _ _).symm
      _ ≤ 2 ^ (k + 23) := Nat.pow_le_pow_right (by norm_num) (by omega)

/-- The rounded magnitude is a nearest one among all magnitudes (R75). -/
theorem roundMag_nearest {num den : Nat} (p : Nat) (hd : 0 < den) (h : roundMag num den < 0x7F800000) :
    ((num : Int) - (den * magN (roundMag num den) : Nat)).natAbs ≤ ((num : Int) - (den * magN p : Nat)).natAbs := by
  rw [magN_roundMag h]
  set k := roundShift num den with hk
  have hD : 0 < den * 2 ^ k := Nat.mul_pos hd (by positivity)
  have e : ∀ j, den * (j * 2 ^ k) = den * 2 ^ k * j := fun j => by ring
  rw [e]
  by_cases hdv : 2 ^ k ∣ magN p
  · obtain ⟨j, hj⟩ := hdv
    rw [hj, show den * (2 ^ k * j) = den * 2 ^ k * j by ring]
    exact roundEven_nearest num (den * 2 ^ k) j hD
  · have hsm := magN_small hdv
    have hk0 : 0 < k := by
      rcases Nat.eq_zero_or_pos k with h0 | h0
      · exact absurd (by rw [h0]; simp) hdv
      · exact h0
    have ht := (roundShift_pos (hk ▸ hk0)).1
    rw [← hk] at ht
    have h1 := roundEven_nearest num (den * 2 ^ k) (num / (den * 2 ^ k)) hD
    have h2 : den * 2 ^ k * (num / (den * 2 ^ k)) ≤ num := Nat.mul_div_le _ _
    have h3 : den * magN p ≤ den * 2 ^ k * (num / (den * 2 ^ k)) := by
      calc den * magN p ≤ den * 2 ^ (k + 23) := Nat.mul_le_mul_left _ (le_of_lt hsm)
        _ = den * 2 ^ k * 2 ^ 23 := by ring
        _ ≤ _ := Nat.mul_le_mul_left _ ht
    omega

/-! ## Order -/

/-- The floor respects the order of fractions. -/
theorem div_le_of_cross {n d n' d' : Nat} (hd : 0 < d) (hd' : 0 < d') (h : n * d' ≤ n' * d) : n / d ≤ n' / d' := by
  rw [Nat.le_div_iff_mul_le hd']
  refine Nat.le_of_mul_le_mul_right ?_ hd
  calc n / d * d' * d = n / d * d * d' := by ring
    _ ≤ n * d' := Nat.mul_le_mul_right _ (Nat.div_mul_le_self n d)
    _ ≤ n' * d := h

/-- Rounding to an integer respects the order of the exact values. -/
theorem roundEven_mono {n d n' d' : Nat} (hd : 0 < d) (hd' : 0 < d') (h : n * d' ≤ n' * d) :
    roundEven n d ≤ roundEven n' d' := by
  have e := Nat.div_add_mod n d
  have e' := Nat.div_add_mod n' d'
  have hr := Nat.mod_lt n hd
  have ht := div_le_of_cross hd hd' h
  rcases Nat.lt_or_ge (n / d) (n' / d') with hlt | hge
  · rcases roundEven_cases n d with h1 | h1 <;> rcases roundEven_cases n' d' with h2 | h2 <;> omega
  · have hq : n / d = n' / d' := le_antisymm ht hge
    have hm : n % d * d' ≤ n' % d' * d := by
      rw [← e, ← e', hq] at h
      nlinarith
    unfold roundEven
    rw [← hq]
    split
    · next hc =>
      rw [if_pos]
      simp only [gt_iff_lt, Bool.or_eq_true, decide_eq_true_eq, Bool.and_eq_true, beq_iff_eq] at hc ⊢
      rcases hc with hc | ⟨hc, ho⟩
      · left
        have : d * d' < 2 * (n' % d') * d := by nlinarith
        exact Nat.lt_of_mul_lt_mul_right (a := d) (by linarith)
      · have : d' * d ≤ 2 * (n' % d') * d := by nlinarith
        have := Nat.le_of_mul_le_mul_right this hd
        omega
    · split <;> omega

/-- The one rounding respects the order of the exact values (R75). -/
theorem roundMag_mono {n d n' d' : Nat} (hd : 0 < d) (hd' : 0 < d') (h : n * d' ≤ n' * d) :
    roundMag n d ≤ roundMag n' d' := by
  have ht := div_le_of_cross hd hd' h
  have hs : roundShift n d ≤ roundShift n' d' := by
    simp only [roundShift, Nat.log2_eq_log_two]
    exact Nat.sub_le_sub_right (Nat.log_mono_right ht) 23
  refine min_le_min_left _ ?_
  rcases Nat.lt_or_ge (roundShift n d) (roundShift n' d') with hlt | hge
  · have := round_le n d
    have := le_round (num := n') (den := d') (by omega)
    have : roundShift n d * 2 ^ 23 + 2 ^ 23 ≤ roundShift n' d' * 2 ^ 23 := by omega
    omega
  · rw [le_antisymm hs hge]
    refine Nat.add_le_add_left (roundEven_mono (by positivity) (by positivity) ?_) _
    rw [← Nat.mul_assoc, ← Nat.mul_assoc]
    exact Nat.mul_le_mul_right _ h

theorem isqrtFrom_spec (n k r : Nat) (h : r * r ≤ n) (h' : n < (r + 2 ^ k) * (r + 2 ^ k)) :
    isqrtFrom n k r * isqrtFrom n k r ≤ n ∧ n < (isqrtFrom n k r + 1) * (isqrtFrom n k r + 1) := by
  induction k generalizing r with
  | zero => exact ⟨h, h'⟩
  | succ k ih =>
    simp only [isqrtFrom]
    split
    · next hc => exact ih _ hc (by rw [pow_succ] at h'; convert h' using 2 <;> ring)
    · next hc => exact ih _ h (by omega)

/-- The integer square root is the largest natural whose square is at most n. -/
theorem isqrt_spec (n : Nat) : isqrt n * isqrt n ≤ n ∧ n < (isqrt n + 1) * (isqrt n + 1) := by
  refine isqrtFrom_spec n _ 0 (by simp) ?_
  rw [Nat.zero_add, ← pow_add]
  exact lt_of_lt_of_le Nat.lt_log2_self (Nat.pow_le_pow_right (by norm_num) (by omega))

/-- A pattern is +inf or stands for at least m units of 2^-149. -/
def AtLeast (w : Word) (m : Nat) : Prop := classify w = .inf false ∨ ∃ k, classify w = .fin false k ∧ m ≤ k

/-- A rounded magnitude keeps a lower bound that is itself rounded. -/
theorem packRound_atLeast {n d n0 d0 p0 : Nat} (hd : 0 < d) (hd0 : 0 < d0) (h : n0 * d ≤ n * d0) (hp : roundMag n0 d0 = p0) :
    AtLeast (packRound false n d) (magN p0) := by
  have h1 := roundMag_mono hd0 hd h
  rw [hp] at h1
  rcases classify_packRound false n d with ⟨_, h2⟩ | ⟨_, h2⟩
  · exact .inr ⟨_, h2, magN_strictMono.monotone h1⟩
  · exact .inl h2

/-- What `fmul` by a positive constant keeps of a lower bound (R79). -/
theorem fmul_atLeast {a b : Word} {ka m p0 : Nat} (ha : classify a = .fin false ka) (hk : 0 < ka) (hb : AtLeast b m)
    (hp : roundMag (ka * m) (2 ^ 149) = p0) : AtLeast (fmul a b) (magN p0) := by
  rcases hb with hb | ⟨k, hb, hle⟩
  · left; simp [fmul, ha, hb, show ka ≠ 0 by omega, classify_infinity]
  · simp only [fmul, ha, hb]
    exact packRound_atLeast (by positivity) (by positivity) (Nat.mul_le_mul_right _ (Nat.mul_le_mul_left _ hle)) hp

/-- What `fadd` keeps of two lower bounds (R78). -/
theorem fadd_atLeast {a b : Word} {ma mb p0 : Nat} (ha : AtLeast a ma) (hb : AtLeast b mb) (hm : 0 < ma)
    (hp : roundMag (ma + mb) 1 = p0) : AtLeast (fadd a b) (magN p0) := by
  rcases ha with ha | ⟨k, ha, hle⟩ <;> rcases hb with hb | ⟨j, hb, hle'⟩
  · left; simp [fadd, ha, hb, classify_infinity]
  · left; simp [fadd, ha, hb, classify_infinity]
  · left; simp [fadd, ha, hb, classify_infinity]
  · have h0 : (k : Int) + j ≠ 0 := by omega
    have h1 : ¬ ((k : Int) + j < 0) := by omega
    have h2 : ((k : Int) + j).natAbs = k + j := by omega
    simp only [fadd, ha, hb, addFin, signed, Bool.false_eq_true, if_false, if_neg h0, h1, decide_false, h2]
    exact packRound_atLeast (by norm_num) (by norm_num) (by omega) hp

/-- What `fsub` of a constant below the bound keeps of it (R78). -/
theorem fsub_atLeast {a b : Word} {ma kb p0 : Nat} (ha : AtLeast a ma) (hb : classify b = .fin false kb) (hm : kb < ma)
    (hp : roundMag (ma - kb) 1 = p0) : AtLeast (fsub a b) (magN p0) := by
  have hb' : classify (fneg b) = .fin true kb := by rw [classify_fneg, hb]; rfl
  rcases ha with ha | ⟨k, ha, hle⟩
  · left; simp [fsub, fadd, ha, hb', classify_infinity]
  · have h0 : (k : Int) + -(kb : Int) ≠ 0 := by omega
    have h1 : ¬ ((k : Int) + -(kb : Int) < 0) := by omega
    have h2 : ((k : Int) + -(kb : Int)).natAbs = k - kb := by omega
    simp only [fsub, fadd, ha, hb', addFin, signed, Bool.false_eq_true, if_false, if_true, if_neg h0, h1, decide_false, h2]
    exact packRound_atLeast (by norm_num) (by norm_num) (by omega) hp

/-- What `fdiv` by a positive constant keeps of a lower bound (R80). -/
theorem fdiv_atLeast {a b : Word} {ma kb p0 : Nat} (ha : AtLeast a ma) (hb : classify b = .fin false kb) (hk : 0 < kb)
    (hp : roundMag (ma * 2 ^ 149) kb = p0) : AtLeast (fdiv a b) (magN p0) := by
  rcases ha with ha | ⟨k, ha, hle⟩
  · left; simp [fdiv, ha, hb, classify_infinity]
  · simp only [fdiv, ha, hb, if_neg (Nat.pos_iff_ne_zero.1 hk)]
    exact packRound_atLeast hk hk (by
      have := Nat.mul_le_mul_right (2 ^ 149) hle
      exact Nat.mul_le_mul_right _ this) hp

/-- What `fsqrt` keeps of a lower bound: h is at most twice the root (R81). -/
theorem fsqrt_atLeast {a : Word} {m h p0 : Nat} (ha : AtLeast a m) (hm : 0 < m) (hh : h * h ≤ 4 * (m * 2 ^ 149))
    (hp : roundMag h 2 = p0) : AtLeast (fsqrt a) (magN p0) := by
  rcases ha with ha | ⟨k, ha, hle⟩
  · left; simp [fsqrt, ha, classify_infinity]
  · simp only [fsqrt, ha, if_neg (show k ≠ 0 by omega), Bool.false_eq_true, if_false, sqrtFin]
    have hs := isqrt_spec (k * 2 ^ 149)
    generalize isqrt (k * 2 ^ 149) = r at *
    have hk : h * h ≤ 4 * (k * 2 ^ 149) := le_trans hh (by gcongr)
    split
    · next he => exact packRound_atLeast (by norm_num) (by norm_num) (by nlinarith) hp
    · have h3 : h < 2 * r + 2 := by
        by_contra hc
        have := Nat.mul_le_mul (not_lt.1 hc) (not_lt.1 hc)
        nlinarith [hs.2]
      exact packRound_atLeast (by norm_num) (by norm_num) (by omega) hp

end Sys2Proof.Machine
end

