-- ==== Sys2Proof/Laws/PerInstr.lean ====
section
/-! SUPPORT. Statements made for every command as syntax, one lemma per constructor. -/

namespace Sys2Proof.Laws.Header

/-- The packet of a command is legal, has its format's length, and its header holds the opcode under a zero `MBZ` (R58, R64,
R65). -/
def Statement (i : Instr) : Prop :=
  Packet.legal (encode i) = true ∧ (encode i).length = formatLength i.header ∧
    headerOpc i.header = i.opcode ∧ headerMbz i.header = 0#24

theorem toycbcr (buf npix : Word) : Statement (.toycbcr buf npix) :=
  ⟨rfl, rfl, rfl, show headerMbz 0x00000001#32 = 0#24 by decide⟩

theorem toxyz (buf npix : Word) (mat : Coeffs) : Statement (.toxyz buf npix mat) :=
  ⟨rfl, rfl, rfl, show headerMbz 0x00000002#32 = 0#24 by decide⟩

theorem torgbfromxyz (inp out npix : Word) : Statement (.torgbfromxyz inp out npix) :=
  ⟨rfl, rfl, rfl, show headerMbz 0x00000003#32 = 0#24 by decide⟩

end Sys2Proof.Laws.Header
end

