-- ==== Sys2Proof/Tests/Slice0.lean ====
section
/-! SUPPORT. Tests, their expected results from the spec (95_test_vectors.md and the rules named), and a witness for the
hypotheses of every obligation that has some. -/

namespace Sys2Proof.Tests

open Sys2Proof.Machine

/-! ## Helpers -/

/-- Whether an outcome is a next state with a property. -/
def isNext (o : Host.Outcome State Fault Refusal) (p : State → Bool) : Bool :=
  match o with
  | .next t => p t
  | .fault _ => false
  | .refused _ => false

/-- Whether an outcome is a given fault. -/
def isFault (o : Host.Outcome State Fault Refusal) (f : Fault) : Bool :=
  match o with
  | .next _ => false
  | .fault g => g == f
  | .refused _ => false

theorem next_of_isNext {o : Host.Outcome State Fault Refusal} {p : State → Bool} (h : isNext o p = true) :
    ∃ t, o = .next t ∧ p t = true := by
  cases o with
  | next t => exact ⟨t, rfl, h⟩
  | fault f => cases h
  | refused r => cases h

/-- The identity matrix. -/
def identM : Coeffs := ⟨0x3F800000#32, 0#32, 0#32, 0#32, 0x3F800000#32, 0#32, 0#32, 0#32, 0x3F800000#32⟩

/-- The matrix the test vectors call sRGB_M (93_implementation_defined.md G3). -/
def srgbM : Coeffs :=
  ⟨0x3ED32618#32, 0x3EB71759#32, 0x3E38D4FE#32, 0x3E59B3D0#32, 0x3F371759#32, 0x3D93DD98#32, 0x3C9E1B09#32,
    0x3DF41F21#32, 0x3F7353F8#32⟩

/-- Two pixels of bytes at 0x1000. -/
def yCmd : Instr := .toycbcr 0x1000#32 2#32

/-- One pixel of floats at 0x1000. -/
def xCmd : Instr := .toxyz 0x1000#32 1#32 srgbM

/-- One pixel of floats at 0x1000 to bytes at 0x100C, just above it. -/
def rCmd : Instr := .torgbfromxyz 0x1000#32 0x100C#32 1#32

/-- The region the tests' commands work in. -/
def arena : List Region := [⟨0x1000, 15⟩]

/-- `IDLE`, the packet of a command held. -/
def offer (i : Instr) : State := { State.reset with cmd := some (encode i), owned := arena, presented := 1 }

/-- `BUSY` with a command at a pixel, over a memory. -/
def running (i : Instr) (pix : Word) (mem : List Host.Cell) : State :=
  { State.reset with
    phase := .busy, regs := { State.reset.regs.latch i with pix := pix }, owned := arena, mem := mem, presented := 1 }

/-! ## Decoding, well-formedness, text -/

/-- V-E1, written out from R59: header OPC 0x01 under MBZ 0, then BUF, then NPIX. -/
theorem test_decode_toycbcr :
    decode [0x00000001#32, 0x00001000#32, 0x00000002#32] = .ok (.toycbcr 0x1000#32 2#32) := by decide

/-- V-E2, R60, with nine different coefficients in place of the identity. -/
theorem test_decode_toxyz :
    decode [0x00000002#32, 0x00002000#32, 0x00000001#32, 0x10#32, 0x11#32, 0x12#32, 0x13#32, 0x14#32, 0x15#32, 0x16#32,
      0x17#32, 0x18#32] =
    .ok (.toxyz 0x2000#32 1#32 ⟨0x10#32, 0x11#32, 0x12#32, 0x13#32, 0x14#32, 0x15#32, 0x16#32, 0x17#32, 0x18#32⟩) := by
  decide

/-- V-E3, R61. -/
theorem test_decode_torgbfromxyz :
    decode [0x00000003#32, 0x00002000#32, 0x00003000#32, 0x00000001#32] =
      .ok (.torgbfromxyz 0x2000#32 0x3000#32 1#32) := by decide

/-- V-E6 to V-E15: rejected by name. -/
theorem test_decode_illegal :
    decode [0x00000000#32, 0x1000#32, 2#32] = .error (.reservedOpcode 0x00#8) ∧
    decode [0x00000004#32, 0#32, 0#32] = .error (.reservedOpcode 0x04#8) ∧
    decode [0x000000FF#32] = .error (.reservedOpcode 0xFF#8) ∧
    decode [0x00000101#32, 0x1000#32, 2#32] = .error (.mbzNonZero 0x000001#24) ∧
    decode [0x80000001#32, 0x1000#32, 2#32] = .error (.mbzNonZero 0x800000#24) ∧
    decode [0x00000001#32, 0x1000#32] = .error (.wrongLength 2 3) ∧
    decode [0x00000001#32, 0x1000#32, 2#32, 0#32] = .error (.wrongLength 4 3) ∧
    decode [0x00000003#32, 0x2000#32, 0x3000#32] = .error (.wrongLength 3 4) ∧
    decode [0x00000002#32, 0x2000#32, 1#32, 0#32, 0#32, 0#32, 0#32, 0#32, 0#32, 0#32, 0#32] =
      .error (.wrongLength 11 12) ∧
    decode [] = .error .empty := by decide

/-- The table's rows as their headers alone, every operand bit zero. -/
theorem test_table_words :
    decodeTableWord 32 1 = some (.toycbcr 0#32 0#32) ∧
    decodeTableWord 32 2 = some (.toxyz 0#32 0#32 ⟨0#32, 0#32, 0#32, 0#32, 0#32, 0#32, 0#32, 0#32, 0#32⟩) ∧
    decodeTableWord 32 3 = some (.torgbfromxyz 0#32 0#32 0#32) ∧ decodeTableWord 32 4 = none ∧
    decodeTableWord 96 (1 + 0x1000 * 2 ^ 32 + 2 * 2 ^ 64) = some (.toycbcr 0x1000#32 2#32) := by decide

/-- The rows run as the first command after reset. -/
theorem test_table_words_run :
    [1, 2, 3].all (fun w => isNext (step (State.reset.withFetchWord 32 w)) (fun t => t.phase == .busy)) = true := by decide

/-- R65: an ill-formed packet for each thing the check asks (header, each length, emptiness) is refused. -/
theorem test_illformed_packets :
    Packet.legal [] = false ∧ Packet.legal [0x00000004#32, 0#32, 0#32] = false ∧
    Packet.legal [0x00000101#32, 0#32, 0#32] = false ∧ Packet.legal [0x00000001#32, 0#32] = false ∧
    Packet.legal [0x00000002#32, 0#32, 0#32] = false ∧ Packet.legal [0x00000003#32, 0#32, 0#32] = false ∧
    Packet.legal [0x00000001#32, 0#32, 0#32] = true := by decide

/-- R72, R70: lines of text. -/
theorem test_assemble :
    assembleLine "TOYCBCR 0x00001000, 2 # two pixels".toList = .ok (some (.toycbcr 0x1000#32 2#32)) ∧
    assembleLine "toxyz 8192,1,0f3F800000,0.2,-0.9689,inf,-inf,nan,1e-1,5,2.5e1".toList =
      .ok (some (.toxyz 0x2000#32 1#32 ⟨0x3F800000#32, 0x3E4CCCCD#32, 0xBF7809D5#32, 0x7F800000#32, 0xFF800000#32,
        0x7FC00000#32, 0x3DCCCCCD#32, 0x40A00000#32, 0x41C80000#32⟩)) ∧
    assembleLine "  # nothing".toList = .ok none ∧
    assembleLine "toycbcr 4294967296, 0".toList = .error .integerRange ∧
    assembleLine "toycbcr 0".toList = .error .operandCount ∧
    assembleLine "torgb 0, 0, 0".toList = .error .unknownMnemonic := by decide +kernel

/-- R72: the printed form. -/
theorem test_disassemble :
    disassemble (.torgbfromxyz 0x2000#32 0x3000#32 1#32) =
      "torgbfromxyz 0x00002000, 0x00003000, 0x00000001".toList := by decide +kernel

/-! ## Numerics -/

/-- R77: each literal is the binary32 nearest to its decimal (95_test_vectors.md V-L1). -/
theorem test_literals_nearest :
    [(Lit.l0_299, false, 299, 1000), (Lit.l0_587, false, 587, 1000), (Lit.l0_114, false, 114, 1000),
     (Lit.l128, false, 128, 1), (Lit.l0_168736, false, 168736, 1000000), (Lit.l0_331264, false, 331264, 1000000),
     (Lit.l0_5, false, 5, 10), (Lit.l0_418688, false, 418688, 1000000), (Lit.l0_081312, false, 81312, 1000000),
     (Lit.l255, false, 255, 1), (Lit.l0_2, false, 2, 10), (Lit.l0_6, false, 6, 10),
     (Lit.l0_125, false, 125, 1000), (Lit.l0_025, false, 25, 1000), (Lit.l0_04, false, 4, 100),
     (Lit.l0_31, false, 31, 100), (Lit.l6400, false, 6400, 1), (Lit.l135, false, 135, 1), (Lit.l5, false, 5, 1),
     (Lit.l80, false, 80, 1), (Lit.l256, false, 256, 1), (Lit.l33, false, 33, 1), (Lit.l1, false, 1, 1),
     (Lit.l16, false, 16, 1), (Lit.l3_2406, false, 32406, 10000), (Lit.l1_5372, false, 15372, 10000),
     (Lit.l0_4986, false, 4986, 10000), (Lit.ln0_9689, true, 9689, 10000), (Lit.l1_8758, false, 18758, 10000),
     (Lit.l0_0415, false, 415, 10000), (Lit.l0_0557, false, 557, 10000), (Lit.l0_2040, false, 2040, 10000),
     (Lit.l1_0570, false, 10570, 10000)].all
      (fun (l : Word × Bool × Nat × Nat) => l.1 == nearest l.2.1 l.2.2.1 l.2.2.2) = true := by decide +kernel

/-- V-Q1 to V-Q21. -/
theorem test_q8_vectors :
    [(0x00000000#32, 0#8), (0x80000000#32, 0#8), (0x3EFFFFFF#32, 0#8), (0x3F000000#32, 1#8), (0x3FC00000#32, 2#8),
     (0x40200000#32, 3#8), (0x42FFFFFF#32, 128#8), (0x437E7FFF#32, 254#8), (0x437E8000#32, 255#8),
     (0x437EFFFF#32, 255#8), (0x437F8000#32, 255#8), (0x43800000#32, 255#8), (0x4B000001#32, 255#8),
     (0xBF000000#32, 0#8), (0xBFC00000#32, 0#8), (0x7F800000#32, 255#8), (0xFF800000#32, 0#8),
     (0x7FC00000#32, 0#8), (0xFFC12345#32, 0#8), (0x3EFFFFC0#32, 0#8), (0x00000001#32, 0#8)].all
      (fun (v : Word × Byte) => q8 v.1 == v.2) = true := by decide +kernel

/-- R83. -/
theorem test_fcvtU8 :
    fcvtU8 0#8 = 0x00000000#32 ∧ fcvtU8 1#8 = 0x3F800000#32 ∧ fcvtU8 128#8 = 0x43000000#32 ∧
      fcvtU8 255#8 = 0x437F0000#32 := by decide +kernel

/-- V-G1, V-G4, V-G7, gammaForward. -/
theorem test_gammaForward_vectors :
    [(0x3CF5C28F#32, 0x3A6BEDFA#32), (0x3E4CCCCD#32, 0x3D23D70B#32), (0x3E99999A#32, 0x3D9EB852#32),
     (0x3F000000#32, 0x3E59999A#32), (0x3F19999A#32, 0x3E9EB853#32), (0x3F1C28F6#32, 0x3EA58E22#32),
     (0x3F800000#32, 0x3F800000#32), (0x3E4CCCD0#32, 0x3D23D70E#32), (0x3F19999D#32, 0x3E9EB85B#32),
     (0x80000000#32, 0x00000000#32), (0x00000001#32, 0x00000000#32), (0xB7052000#32, 0x2E8A7488#32),
     (0xBF000000#32, 0x3E800000#32), (0x40000000#32, 0x40840000#32), (0x7F800000#32, 0x7F800000#32),
     (0xFF800000#32, 0x7F800000#32), (0xFFC12345#32, 0x7FC00000#32)].all
      (fun (v : Word × Word) => gammaForward v.1 == v.2) = true := by decide +kernel

/-- V-G1, V-G2, V-G4, V-G6, V-G7, gammaReverse. -/
theorem test_gammaReverse_vectors :
    [(0x3A6BEDFA#32, 0x3CF5C28F#32), (0x3D23D70B#32, 0x3E4CCCCD#32), (0x3E59999A#32, 0x3F000000#32),
     (0x3E9EB853#32, 0x3F19999A#32), (0x3D4CCCCD#32, 0x3E6E194D#32), (0x3EA3D70A#32, 0x3F1B856D#32),
     (0x3F19999A#32, 0x3F4A9005#32), (0x3D23D70D#32, 0x3E4CCCD0#32), (0x3E9EB855#32, 0x3F19999B#32),
     (0x3F400000#32, 0x3F600000#32), (0x80000000#32, 0x80000000#32), (0x00000001#32, 0x1A3504F3#32),
     (0x80000001#32, 0x7FC00000#32), (0x3FC00000#32, 0x3F9B5D58#32), (0x40000000#32, 0x3FB2C30B#32),
     (0x7F800000#32, 0x7F800000#32), (0xFF800000#32, 0x7FC00000#32), (0x7FC00000#32, 0x7FC00000#32)].all
      (fun (v : Word × Word) => gammaReverse v.1 == v.2) = true := by decide +kernel

/-- R100 by hand: 256v + 33 is 289 + 2^-15 at 0x3F800001, whose root rounds to 17, and 289 + 2^-14 at 0x3F800002, whose root
rounds to 17 + 2^-19. -/
theorem test_gammaReverse_just_above_one :
    gammaReverse 0x3F800001#32 = 0x3F800000#32 ∧ gammaReverse 0x3F800002#32 = 0x3F800001#32 := by decide +kernel

/-- V-G3: neighbouring branches at the breakpoints. -/
theorem test_breakpoints :
    gammaForwardA 0x3E4CCCCD#32 = 0x3D23D70B#32 ∧ gammaForwardB 0x3E4CCCCD#32 = 0x3D23D70B#32 ∧
    gammaForwardB 0x3F19999A#32 = 0x3E9EB853#32 ∧ gammaForwardC 0x3F19999A#32 = 0x3E9EB852#32 ∧
    gammaReverseA 0x3D23D70A#32 = 0x3E4CCCCD#32 ∧ gammaReverseB 0x3E9EB852#32 = 0x3F19999A#32 := by decide +kernel

/-- V-Y1 to V-Y7d. -/
theorem test_toycbcr_vectors :
    [(⟨0#32, 0#32, 0#32⟩, ⟨0#8, 128#8, 128#8⟩), (⟨255#32, 255#32, 255#32⟩, ⟨255#8, 128#8, 128#8⟩),
     (⟨255#32, 0#32, 0#32⟩, ⟨76#8, 85#8, 255#8⟩), (⟨0#32, 255#32, 0#32⟩, ⟨150#8, 44#8, 21#8⟩),
     (⟨0#32, 0#32, 255#32⟩, ⟨29#8, 255#8, 107#8⟩), (⟨128#32, 128#32, 128#32⟩, ⟨128#8, 128#8, 128#8⟩),
     (⟨255#32, 255#32, 0#32⟩, ⟨226#8, 1#8, 149#8⟩), (⟨12#32, 34#32, 56#32⟩, ⟨30#8, 143#8, 115#8⟩),
     (⟨200#32, 100#32, 50#32⟩, ⟨124#8, 86#8, 182#8⟩), (⟨0#32, 0#32, 250#32⟩, ⟨29#8, 253#8, 108#8⟩),
     (⟨0#32, 4#32, 168#32⟩, ⟨22#8, 211#8, 113#8⟩), (⟨76#32, 85#32, 255#32⟩, ⟨102#8, 215#8, 110#8⟩),
     (⟨0#32, 255#32, 255#32⟩, ⟨179#8, 171#8, 0#8⟩), (⟨4#32, 40#32, 16#32⟩, ⟨26#8, 122#8, 112#8⟩),
     (⟨5#32, 233#32, 81#32⟩, ⟨147#8, 90#8, 26#8⟩), (⟨130#32, 130#32, 1#32⟩, ⟨115#8, 63#8, 138#8⟩),
     (⟨169#32, 169#32, 0#32⟩, ⟨150#8, 43#8, 142#8⟩)].all
      (fun (v : Snapshot × Out8) => toycbcrOut v.1 == v.2) = true := by decide +kernel

/-- V-X1, V-X4, V-X7 to V-X12. -/
theorem test_toxyz_vectors :
    [(srgbM, ⟨0x437F0000#32, 0x00000000#32, 0x00000000#32⟩, ⟨0x3ED32618#32, 0x3E59B3D0#32, 0x3C9E1B09#32⟩),
     (srgbM, ⟨0x43000000#32, 0x43000000#32, 0x43000000#32⟩, ⟨0x3E5080A2#32, 0x3E5B5C60#32, 0x3E6EE24C#32⟩),
     (srgbM, ⟨0x424C0000#32, 0x43190000#32, 0x42500000#32⟩, ⟨0x3E0A0100#32, 0x3E6EC786#32, 0x3D9D40C2#32⟩),
     (srgbM, ⟨0x41400000#32, 0x42080000#32, 0x42600000#32⟩, ⟨0x3C7E7F56#32, 0x3C871731#32, 0x3D3B1320#32⟩),
     (srgbM, ⟨0x43480000#32, 0x42C80000#32, 0x42480000#32⟩, ⟨0x3E9781E6#32, 0x3E61EDE9#32, 0x3D81C4F3#32⟩),
     (identM, ⟨0x437F0000#32, 0x43000000#32, 0x00000000#32⟩, ⟨0x3F800000#32, 0x3E5B5C60#32, 0x00000000#32⟩),
     (identM, ⟨0xC37F0000#32, 0x43FF0000#32, 0x7FC00000#32⟩, ⟨0x7FC00000#32, 0x7FC00000#32, 0x7FC00000#32⟩),
     (⟨0x3F800000#32, 0#32, 0#32, 0xBF800000#32, 0#32, 0#32, 0#32, 0#32, 0#32⟩, ⟨0x7F800000#32, 0x00000000#32, 0x00000000#32⟩, ⟨0x7F800000#32, 0xFF800000#32, 0x7FC00000#32⟩)].all
      (fun (v : Coeffs × Snapshot × Out32) => toxyzOut v.1 v.2.1 == v.2.2) = true := by decide +kernel

/-- V-R1 to V-R10, V-T1 to V-T6. -/
theorem test_torgb_vectors :
    [(⟨0x3ED32618#32, 0x3E59B3D0#32, 0x3C9E1B09#32⟩, ⟨255#8, 1#8, 0#8⟩),
     (⟨0x3EB71759#32, 0x3F371759#32, 0x3DF41F21#32⟩, ⟨0#8, 255#8, 1#8⟩),
     (⟨0x3E38D4FE#32, 0x3D93DD98#32, 0x3F7353F8#32⟩, ⟨1#8, 0#8, 255#8⟩),
     (⟨0x3E5080A2#32, 0x3E5B5C60#32, 0x3E6EE24C#32⟩, ⟨128#8, 128#8, 128#8⟩),
     (⟨0x3F7353F8#32, 0x3F800000#32, 0x3F8B645A#32⟩, ⟨255#8, 255#8, 255#8⟩),
     (⟨0x3E0A0100#32, 0x3E6EC786#32, 0x3D9D40C2#32⟩, ⟨51#8, 153#8, 52#8⟩),
     (⟨0x3C7E7F56#32, 0x3C871731#32, 0x3D3B1320#32⟩, ⟨12#8, 34#8, 56#8⟩),
     (⟨0x3E9781E6#32, 0x3E61EDE9#32, 0x3D81C4F3#32⟩, ⟨200#8, 100#8, 50#8⟩),
     (⟨0x00000000#32, 0x00000000#32, 0x00000000#32⟩, ⟨0#8, 0#8, 0#8⟩),
     (⟨0x3F800000#32, 0x3F800000#32, 0x3F800000#32⟩, ⟨255#8, 249#8, 244#8⟩),
     (⟨0x41200000#32, 0x41200000#32, 0x41200000#32⟩, ⟨255#8, 255#8, 255#8⟩),
     (⟨0xBF800000#32, 0xBF800000#32, 0xBF800000#32⟩, ⟨0#8, 0#8, 0#8⟩),
     (⟨0x7FC00000#32, 0x00000000#32, 0x00000000#32⟩, ⟨0#8, 0#8, 0#8⟩),
     (⟨0x7F800000#32, 0x00000000#32, 0x00000000#32⟩, ⟨255#8, 0#8, 255#8⟩)].all
      (fun (v : Snapshot × Out8) => torgbOut v.1 == v.2) = true := by decide +kernel

/-! ## Steps, two for each instruction -/

/-- V-Y11, first pixel of two: FF 00 00 becomes 4C 55 FF; the second pixel and the byte above are unchanged. -/
theorem test_toycbcr_pixel :
    isNext (exec yCmd (running yCmd 0#32 [(0x1000, 0xFF#8), (0x1004, 0xFF#8), (0x1005, 0xFF#8), (0x1006, 0xA5#8)]))
      (fun t => t.mem == [(0x1000, 0x4C#8), (0x1001, 0x55#8), (0x1002, 0xFF#8), (0x1004, 0xFF#8), (0x1005, 0xFF#8),
        (0x1006, 0xA5#8)] && t.regs.pix == 1#32 && t.phase == .busy) = true := by decide +kernel

/-- V-Y11, second pixel: 00 FF FF becomes B3 AB 00. -/
theorem test_toycbcr_last_pixel :
    isNext (exec yCmd (running yCmd 1#32 [(0x1004, 0xFF#8), (0x1005, 0xFF#8), (0x1006, 0xA5#8)]))
      (fun t => t.mem == [(0x1003, 0xB3#8), (0x1004, 0xAB#8), (0x1006, 0xA5#8)] && t.regs.pix == 2#32) = true := by
  decide +kernel

/-- V-X15: a red pixel, byte by byte. -/
theorem test_toxyz_pixel :
    isNext (exec xCmd (running xCmd 0#32 [(0x1002, 0x7F#8), (0x1003, 0x43#8)]))
      (fun t => t.mem == [(0x1000, 0x18#8), (0x1001, 0x26#8), (0x1002, 0xD3#8), (0x1003, 0x3E#8), (0x1004, 0xD0#8),
        (0x1005, 0xB3#8), (0x1006, 0x59#8), (0x1007, 0x3E#8), (0x1008, 0x09#8), (0x1009, 0x1B#8), (0x100A, 0x9E#8),
        (0x100B, 0x3C#8)]) = true := by decide +kernel

/-- V-X16: A0 = 0x2002 is a violation with N = 1 and legal with N = 0. -/
theorem test_toxyz_misaligned :
    isFault (exec (.toxyz 0x2002#32 1#32 identM) { State.reset with owned := [⟨0x2000, 64⟩] }) .misaligned = true ∧
    isNext (exec (.toxyz 0x2002#32 0#32 identM) State.reset) (fun t => t.phase == .busy) = true := by decide +kernel

/-- V-T9: the output buffer is written, the input is unchanged. -/
theorem test_torgb_pixel :
    isNext (exec rCmd (running rCmd 0#32 [(0x1000, 0x18#8), (0x1001, 0x26#8), (0x1002, 0xD3#8), (0x1003, 0x3E#8),
        (0x1004, 0xD0#8), (0x1005, 0xB3#8), (0x1006, 0x59#8), (0x1007, 0x3E#8), (0x1008, 0x09#8), (0x1009, 0x1B#8),
        (0x100A, 0x9E#8), (0x100B, 0x3C#8), (0x100F, 0xA5#8)]))
      (fun t => readByte t.mem 0x100C == 0xFF#8 && readByte t.mem 0x100D == 0x01#8 && readByte t.mem 0x100E == 0x00#8 &&
        readByte t.mem 0x100F == 0xA5#8 && read32 t.mem 0x1000 == 0x3ED32618#32 &&
        read32 t.mem 0x1008 == 0x3C9E1B09#32) = true := by decide +kernel

/-- V-T10: overlap, adjacency, alignment of the input only, the top of the address space. -/
theorem test_torgb_contract :
    breach [⟨0x2000, 64⟩] (.torgbfromxyz 0x2000#32 0x2008#32 1#32) = some .overlap ∧
    breach [⟨0x2000, 64⟩] (.torgbfromxyz 0x2000#32 0x200C#32 1#32) = none ∧
    breach [⟨0x2000, 64⟩] (.torgbfromxyz 0x2001#32 0x2020#32 1#32) = some .misaligned ∧
    breach [⟨0x2000, 64⟩] (.torgbfromxyz 0x2000#32 0x2021#32 1#32) = none ∧
    breach [⟨0xFFFFFF00, 256⟩] (.torgbfromxyz 0xFFFFFFF8#32 0xFFFFFF00#32 1#32) = some .bufferRange ∧
    breach [⟨0xFFFFFF00, 256⟩] (.torgbfromxyz 0xFFFFFFF4#32 0xFFFFFF00#32 1#32) = none := by decide

/-- V-S4: a reset during a command gives no `DONE` and discards the held packet (R138). -/
theorem test_reset_while_busy :
    isNext (step { running yCmd 1#32 [] with rst := true, cmd := some (encode rCmd) })
      (fun t => t.phase == .idle && t.cmd.isNone && t.replies.isEmpty && t.status == 0#32) = true := by decide

/-! ## Witnesses: the hypotheses of each obligation hold of something -/

theorem running_yCmd : Running (running yCmd 0#32 [(0x1000, 0xFF#8)]) yCmd := ⟨rfl, by decide, by decide⟩

theorem running_yCmd_last : Running (running yCmd 1#32 []) yCmd := ⟨rfl, by decide, by decide⟩

theorem running_yCmd_end : Running (running yCmd 2#32 []) yCmd := ⟨rfl, by decide, by decide⟩

theorem running_xCmd : Running (running xCmd 0#32 []) xCmd := ⟨rfl, by decide, by decide⟩

theorem running_rCmd : Running (running rCmd 0#32 []) rCmd := ⟨rfl, by decide, by decide⟩

theorem offered_yCmd : Offered (offer yCmd) yCmd := ⟨rfl, rfl, rfl, rfl, by decide⟩

theorem offered_xCmd : Offered (offer xCmd) xCmd := ⟨rfl, rfl, rfl, rfl, by decide⟩

theorem offered_rCmd : Offered (offer rCmd) rCmd := ⟨rfl, rfl, rfl, rfl, by decide⟩

/-- N = 0 at any address (V-Y12). -/
theorem offered_empty :
    Offered (offer (.toycbcr 0xFFFFFFFF#32 0#32)) (.toycbcr 0xFFFFFFFF#32 0#32) ∧
      npixOf (.toycbcr 0xFFFFFFFF#32 0#32) = 0#32 := ⟨⟨rfl, rfl, rfl, rfl, by decide⟩, rfl⟩

theorem witness_IllegalPacketFaults :
    ∃ (s : State) (p : Packet), s.phase = .idle ∧ s.rst = false ∧ s.env = [] ∧ s.cmd = some p ∧ Packet.legal p = false :=
  ⟨{ State.reset with cmd := some [0x00000001#32, 0x1000#32] }, _, rfl, rfl, rfl, rfl, by decide⟩

theorem witness_StepRunsDecoded_idle :
    ∃ (s : State) (p : Packet) (i : Instr), s.phase = .idle ∧ s.rst = false ∧ s.env = [] ∧ s.cmd = some p ∧
      decode p = .ok i := ⟨offer yCmd, encode yCmd, yCmd, rfl, rfl, rfl, rfl, by decide⟩

theorem witness_StepRunsDecoded_busy :
    ∃ (s : State) (i : Instr), s.phase = .busy ∧ s.rst = false ∧ s.env = [] ∧ s.regs.latched = some i :=
  ⟨running yCmd 1#32 [], yCmd, rfl, rfl, rfl, by decide⟩

theorem witness_StepRunsDecoded_input :
    ∃ (s : State) (rest : List Input) (p : Packet) (i : Instr), s.phase = .idle ∧ s.rst = false ∧
      s.env = .block :: rest ∧ s.cmd = some p ∧ decode p = .ok i :=
  ⟨{ offer rCmd with env := [.block, .readStatus] }, _, _, rCmd, rfl, rfl, rfl, rfl, by decide⟩

theorem witness_StepRunsDecoded_input_busy :
    ∃ (s : State) (rest : List Input) (i : Instr), s.phase = .busy ∧ s.rst = false ∧ s.env = .block :: rest ∧
      s.regs.latched = some i :=
  ⟨{ running yCmd 2#32 [] with env := [.block] }, _, yCmd, rfl, rfl, rfl, by decide⟩

theorem witness_ToycbcrAccepted :
    ∃ (s : State) (buf npix : Word), s.phase = .idle ∧ s.rst = false ∧ s.env = [] ∧
      s.cmd = some [0x00000001#32, buf, npix] ∧ breach s.owned (.toycbcr buf npix) = none :=
  ⟨offer yCmd, 0x1000#32, 2#32, rfl, rfl, rfl, rfl, by decide⟩

theorem witness_ToxyzAccepted :
    ∃ (s : State) (buf npix m0 m1 m2 m3 m4 m5 m6 m7 m8 : Word), s.phase = .idle ∧ s.rst = false ∧ s.env = [] ∧
      s.cmd = some [0x00000002#32, buf, npix, m0, m1, m2, m3, m4, m5, m6, m7, m8] ∧
      breach s.owned (.toxyz buf npix ⟨m0, m1, m2, m3, m4, m5, m6, m7, m8⟩) = none :=
  ⟨offer xCmd, 0x1000#32, 1#32, _, _, _, _, _, _, _, _, _, rfl, rfl, rfl, rfl, by decide⟩

theorem witness_TorgbfromxyzAccepted :
    ∃ (s : State) (inp out npix : Word), s.phase = .idle ∧ s.rst = false ∧ s.env = [] ∧
      s.cmd = some [0x00000003#32, inp, out, npix] ∧ breach s.owned (.torgbfromxyz inp out npix) = none :=
  ⟨offer rCmd, 0x1000#32, 0x100C#32, 1#32, rfl, rfl, rfl, rfl, by decide⟩

theorem witness_CompletionEmitsDone :
    (∃ (i : Instr) (s : State), Running s i ∧ s.regs.pix = s.regs.n) ∧
    (∃ (i : Instr) (s : State), Offered s i ∧ npixOf i = 0#32) :=
  ⟨⟨_, _, running_yCmd_end, by decide⟩, ⟨_, _, offered_empty⟩⟩

theorem witness_ToycbcrPixelStep :
    ∃ (buf npix : Word) (s : State), Running s (.toycbcr buf npix) ∧ s.regs.pix < npix :=
  ⟨_, _, _, running_yCmd_last, by decide⟩

theorem witness_ToxyzPixelStep :
    ∃ (buf npix : Word) (m : Coeffs) (s : State), Running s (.toxyz buf npix m) ∧ s.regs.pix < npix :=
  ⟨_, _, _, _, running_xCmd, by decide⟩

theorem witness_TorgbfromxyzPixelStep :
    ∃ (inp out npix : Word) (s : State), Running s (.torgbfromxyz inp out npix) ∧ s.regs.pix < npix :=
  ⟨_, _, _, _, running_rCmd, by decide⟩

/-- Acceptance, a pixel step with a byte outside the pixel, and a command held by another (R17). -/
theorem witness_ExecFrame :
    (∃ (i : Instr) (s t : State), exec i s = .next t ∧ s.phase = .idle) ∧
    (∃ (i : Instr) (s t : State) (a : Nat), exec i s = .next t ∧ s.phase = .busy ∧ t.phase = .busy ∧
      (pixelSpan i s.regs.pix.toNat).has a = false) ∧
    (∃ (i : Instr) (s t : State), exec i s = .next t ∧ s.phase = .busy ∧ s.regs.latched ≠ some i) :=
  ⟨⟨yCmd, offer yCmd, _, exec_idle rfl (by decide), rfl⟩,
    ⟨yCmd, running yCmd 0#32 [], _, 0x1003, (exec_busy rfl (by decide) (by decide)).trans (if_pos (by decide)), rfl, rfl,
      by decide⟩,
    ⟨xCmd, running yCmd 0#32 [], _, exec_busy_held rfl (by decide), rfl, by decide⟩⟩

/-- A byte just above the footprint; and two memories that agree on it and differ above it. -/
theorem witness_BlockKeepsToFootprint :
    (∃ (i : Instr) (s t : State) (a : Nat), Running s i ∧ s.rst = false ∧ s.env = [] ∧ step s = .next t ∧
      (writeSpan i).has a = false) ∧
    (∃ (i : Instr) (s : State) (mem' : List Host.Cell) (t t' : State), Running s i ∧ s.regs.pix < s.regs.n ∧
      mem' ≠ s.mem ∧ (∀ a, (readSpan i).has a = true → readByte mem' a = readByte s.mem a) ∧
      exec i s = .next t ∧ exec i { s with mem := mem' } = .next t') := by
  constructor
  · obtain ⟨t, ht, _⟩ := next_of_isNext (o := step (running yCmd 1#32 [])) (p := fun _ => true) (by decide)
    exact ⟨yCmd, _, t, 0x1006, running_yCmd_last, rfl, rfl, ht, by decide⟩
  · refine ⟨yCmd, running yCmd 1#32 [], [(0x1006, 1#8)], _, _, running_yCmd_last, by decide, by decide, ?_,
      (exec_busy rfl (by decide) (by decide)).trans (if_pos (by decide)),
      (exec_busy rfl (by decide) (by decide)).trans (if_pos (by decide))⟩
    intro a ha
    have h := span_has.1 ha
    simp only [yCmd, readSpan] at h
    have h2 : ¬(0x1006 = a) := by
      have : (4096#32).toNat + 3 * (2#32).toNat = 4102 := by decide
      omega
    simp [readByte, running, h2]

theorem witness_ElementAddressesExist :
    ∃ (owned : List Region) (i : Instr) (p a b : Nat), breach owned i = none ∧ p < (npixOf i).toNat ∧
      (pixelSpan i p).has a = true ∧ (pixelReads i p).has b = true :=
  ⟨[⟨0xFFFFFF00, 256⟩], .torgbfromxyz 0xFFFFFFF4#32 0xFFFFFF00#32 1#32, 0, 0xFFFFFF02, 0xFFFFFFFF, by decide, by decide,
    by decide, by decide⟩

theorem witness_WriteOrderIrrelevant :
    (∃ (b i : Nat) (o : Out8) (ws : List Host.Cell),
      ws.Perm [(b + 3 * i + 0, o.c0), (b + 3 * i + 1, o.c1), (b + 3 * i + 2, o.c2)] ∧
      ws ≠ [(b + 3 * i + 0, o.c0), (b + 3 * i + 1, o.c1), (b + 3 * i + 2, o.c2)]) ∧
    (∃ (b i : Nat) (o : Out32) (ws : List (Nat × Word)),
      ws.Perm [(b + 12 * i + 0, o.c0), (b + 12 * i + 4, o.c1), (b + 12 * i + 8, o.c2)] ∧
      ws ≠ [(b + 12 * i + 0, o.c0), (b + 12 * i + 4, o.c1), (b + 12 * i + 8, o.c2)]) :=
  ⟨⟨0, 0, ⟨1#8, 2#8, 3#8⟩, [(2, 3#8), (0, 1#8), (1, 2#8)], by decide, by decide⟩,
    ⟨0, 1, ⟨1#32, 2#32, 3#32⟩, [(20, 3#32), (12, 1#32), (16, 2#32)], by decide, by decide⟩⟩

/-- A packet presented, and a held one at a pixel step and at completion. -/
theorem witness_PacketHeldWhileBusy :
    (∃ (s : State) (p : Packet) (rest : List Input), s.phase = .busy ∧ s.rst = false ∧ s.cmd = none ∧
      s.env = .present p :: rest ∧ ∃ i, decode p = .ok i ∧ breach s.owned i = none) ∧
    (∃ (s t : State) (p : Packet), s.phase = .busy ∧ s.rst = false ∧ s.cmd = some p ∧ step s = .next t) ∧
    (∃ (s t : State) (p : Packet), s.phase = .busy ∧ s.rst = false ∧ s.cmd = some p ∧ s.regs.pix = s.regs.n ∧
      step s = .next t) ∧
    (∃ (s : State) (i : Instr), Offered s i) := by
  refine ⟨⟨{ running yCmd 1#32 [] with env := [.present (encode rCmd)] }, _, _, rfl, rfl, rfl, rfl,
      rCmd, by decide, by decide⟩, ?_, ?_,
    ⟨_, _, offered_rCmd⟩⟩
  · obtain ⟨t, ht, _⟩ := next_of_isNext (o := step { running yCmd 1#32 [] with cmd := some (encode rCmd) })
      (p := fun _ => true) (by decide)
    exact ⟨_, t, _, rfl, rfl, rfl, ht⟩
  · obtain ⟨t, ht, _⟩ := next_of_isNext (o := step { running yCmd 2#32 [] with cmd := some (encode rCmd) })
      (p := fun _ => true) (by decide)
    exact ⟨_, t, _, rfl, rfl, rfl, by decide, ht⟩

/-- A host's store outside the footprint while the block stays `BUSY`. -/
theorem witness_LatchedCommandUnalterable :
    ∃ s t : State, step s = .next t ∧ s.phase = .busy ∧ t.phase = .busy := by
  obtain ⟨t, ht, hp⟩ := next_of_isNext (o := step { running yCmd 1#32 [] with env := [.write .host 0x1006#32 1#8] })
    (p := fun t => t.phase == .busy) (by decide)
  exact ⟨_, t, ht, rfl, by simpa using hp⟩

theorem witness_PhaseChangesOnly :
    (∃ s t : State, step s = .next t ∧ s.phase = .idle ∧ t.phase = .busy) ∧
    (∃ s t : State, step s = .next t ∧ s.phase = .busy ∧ t.phase = .idle ∧ s.rst = true) ∧
    (∃ s t : State, step s = .next t ∧ s.phase = .busy ∧ t.phase = .idle ∧ s.rst = false) := by
  refine ⟨?_, ⟨{ running yCmd 1#32 [] with rst := true }, _, step_reset rfl, rfl, rfl, rfl⟩, ?_⟩
  · obtain ⟨t, ht, hp⟩ := next_of_isNext (o := step (offer yCmd)) (p := fun t => t.phase == .busy) (by decide)
    exact ⟨_, t, ht, rfl, by simpa using hp⟩
  · obtain ⟨t, ht, hp⟩ := next_of_isNext (o := step (running yCmd 2#32 [])) (p := fun t => t.phase == .idle) (by decide)
    exact ⟨_, t, ht, rfl, by simpa using hp, rfl⟩

/-- A step that gives a `DONE`. -/
theorem witness_DoneOnlyAtCompletion :
    ∃ s t : State, step s = .next t ∧ t.doneCount = s.doneCount + 1 := by
  obtain ⟨t, ht, hp⟩ := next_of_isNext (o := step (running yCmd 2#32 [])) (p := fun t => t.doneCount == 1) (by decide)
  have h1 : t.doneCount = 1 := by simpa using hp
  exact ⟨_, t, ht, h1⟩

theorem witness_StatusRegister :
    ∃ (s : State) (rest : List Input), s.rst = false ∧ s.env = .readStatus :: rest :=
  ⟨{ running yCmd 1#32 [] with env := [.readStatus] }, _, rfl, rfl⟩

theorem witness_BusyBlockProgresses :
    ∃ s : State, Inv s = true ∧ s.phase = .busy ∧ s.rst = false ∧ s.env = [] :=
  ⟨running yCmd 2#32 [], by decide, rfl, rfl, rfl⟩

theorem witness_ResetTakesPriority :
    (∃ (s : State) (rest : List Input), s.rst = false ∧ s.phase = .busy ∧ s.env = .reset :: rest) ∧
    (∃ s : State, s.rst = true ∧ s.phase = .busy ∧ s.env ≠ []) :=
  ⟨⟨{ running yCmd 1#32 [] with env := [.reset] }, _, rfl, rfl, rfl⟩,
    ⟨{ running yCmd 1#32 [] with rst := true, env := [.block] }, rfl, rfl, by decide⟩⟩

theorem witness_ResetSparesMemoryOutside :
    (∃ s t : State, s.rst = true ∧ s.phase = .idle ∧ step s = .next t) ∧
    (∃ (s t : State) (i : Instr) (a : Nat), s.rst = true ∧ s.phase = .busy ∧ s.regs.latched = some i ∧
      step s = .next t ∧ (writeSpan i).has a = false) ∧
    (∃ (s t : State) (inp out npix : Word) (a : Nat), s.rst = true ∧ Running s (.torgbfromxyz inp out npix) ∧
      step s = .next t ∧ inp.toNat ≤ a ∧ a < inp.toNat + 12 * npix.toNat) :=
  ⟨⟨{ offer yCmd with rst := true }, _, rfl, rfl, step_reset rfl⟩,
    ⟨{ running yCmd 1#32 [] with rst := true }, _, yCmd, 0x1006, rfl, rfl, by decide, step_reset rfl, by decide⟩,
    ⟨{ running rCmd 0#32 [] with rst := true }, _, _, _, _, 0x100B, rfl, running_rCmd, step_reset rfl, by decide,
      by decide⟩⟩

theorem witness_ReadyAfterReset :
    ∃ (s : State) (i : Instr), s.rst = true ∧ s.env = [.present (encode i)] ∧ breach s.owned i = none :=
  ⟨{ running yCmd 1#32 [] with rst := true, env := [.present (encode rCmd)] }, rCmd, rfl, rfl, by decide⟩

theorem witness_AlignmentRule :
    (∃ (buf npix : Word) (s : State), s.phase = .idle ∧ buf.toNat % 4 ≠ 0 ∧
      covered s.owned (readSpan (.toycbcr buf npix)) = true) ∧
    (∃ (buf npix : Word) (m : Coeffs) (s : State), s.phase = .idle ∧ npix ≠ 0#32 ∧
      covered s.owned (readSpan (.toxyz buf npix m)) = true) ∧
    (∃ (inp out npix : Word) (s : State), s.phase = .idle ∧ npix ≠ 0#32 ∧ out.toNat % 4 ≠ 0 ∧
      covered s.owned (readSpan (.torgbfromxyz inp out npix)) = true ∧
      covered s.owned (writeSpan (.torgbfromxyz inp out npix)) = true ∧
      (readSpan (.torgbfromxyz inp out npix)).meets (writeSpan (.torgbfromxyz inp out npix)) = false) ∧
    (∃ b : Nat, b % 4 = 0) :=
  ⟨⟨0x1001#32, 1#32, offer yCmd, rfl, by decide, by decide⟩,
    ⟨0x1003#32, 1#32, identM, offer yCmd, rfl, by decide, by decide⟩,
    ⟨0x1000#32, 0x100D#32, 1#32, { offer yCmd with owned := [⟨0x1000, 0x40⟩] }, rfl, by decide, by decide, by decide, by decide,
      by decide⟩, ⟨4, rfl⟩⟩

theorem witness_MisalignedFaults :
    (∃ (buf npix : Word) (m : Coeffs) (s : State), s.phase = .idle ∧ npix ≠ 0#32 ∧ buf.toNat % 4 ≠ 0 ∧
      covered s.owned (readSpan (.toxyz buf npix m)) = true) ∧
    (∃ (inp out npix : Word) (s : State), s.phase = .idle ∧ npix ≠ 0#32 ∧ inp.toNat % 4 ≠ 0 ∧
      covered s.owned (readSpan (.torgbfromxyz inp out npix)) = true ∧
      covered s.owned (writeSpan (.torgbfromxyz inp out npix)) = true) :=
  ⟨⟨0x1003#32, 1#32, identM, offer yCmd, rfl, by decide, by decide, by decide⟩,
    ⟨0x1001#32, 0x100C#32, 1#32, offer yCmd, rfl, by decide, by decide, by decide, by decide⟩⟩

/-- A read and a write footprint, past the address space and past the region, offered and presented; and a presented packet
that breaks its contract otherwise. -/
theorem witness_BufferRangeFaults :
    (∃ (i : Instr) (s : State) (p : Span), s.phase = .idle ∧ p = readSpan i ∧ p.len ≠ 0 ∧ 2 ^ 32 < p.base + p.len) ∧
    (∃ (i : Instr) (s : State) (p : Span), s.phase = .idle ∧ p = writeSpan i ∧ p.len ≠ 0 ∧
      ∀ r ∈ s.owned, ¬(r.base ≤ p.base ∧ p.base + p.len ≤ r.base + r.size)) ∧
    (∃ (i : Instr) (s : State) (p : Span) (rest : List Input), s.rst = false ∧ s.cmd = none ∧
      s.env = .present (encode i) :: rest ∧ p = writeSpan i ∧ p.len ≠ 0 ∧
      ∀ r ∈ s.owned, ¬(r.base ≤ p.base ∧ p.base + p.len ≤ r.base + r.size)) ∧
    (∃ (i : Instr) (s : State) (rest : List Input), s.rst = false ∧ s.cmd = none ∧ s.env = .present (encode i) :: rest ∧
      breach s.owned i = some .overlap) :=
  ⟨⟨.toycbcr 0xFFFFFFFE#32 1#32, State.reset, _, rfl, rfl, by decide, by decide⟩,
    ⟨.torgbfromxyz 0x1000#32 0x100D#32 1#32, offer yCmd, _, rfl, rfl, by decide, by decide⟩,
    ⟨.torgbfromxyz 0x1000#32 0x100D#32 1#32,
      { running yCmd 1#32 [] with env := [.present (encode (.torgbfromxyz 0x1000#32 0x100D#32 1#32))] }, _, _, rfl, rfl, rfl,
      rfl, by decide, by decide⟩,
    ⟨.torgbfromxyz 0x1000#32 0x100B#32 1#32,
      { running yCmd 1#32 [] with env := [.present (encode (.torgbfromxyz 0x1000#32 0x100B#32 1#32))] }, _, rfl, rfl, rfl,
      by decide⟩⟩

/-- Buffers that share exactly one byte, and adjacent ones. -/
theorem witness_OverlapFaults :
    (∃ (inp out npix : Word) (s : State) (a : Nat), s.phase = .idle ∧
      covered s.owned (readSpan (.torgbfromxyz inp out npix)) = true ∧
      covered s.owned (writeSpan (.torgbfromxyz inp out npix)) = true ∧ inp.toNat % 4 = 0 ∧
      inp.toNat ≤ a ∧ a < inp.toNat + 12 * npix.toNat ∧ out.toNat ≤ a ∧ a < out.toNat + 3 * npix.toNat) ∧
    (∃ (inp out npix : Word) (s : State), s.phase = .idle ∧
      covered s.owned (readSpan (.torgbfromxyz inp out npix)) = true ∧
      covered s.owned (writeSpan (.torgbfromxyz inp out npix)) = true ∧ inp.toNat % 4 = 0 ∧
      ∀ a, inp.toNat ≤ a → a < inp.toNat + 12 * npix.toNat → ¬(out.toNat ≤ a ∧ a < out.toNat + 3 * npix.toNat)) :=
  ⟨⟨0x1000#32, 0x100B#32, 1#32, offer yCmd, 0x100B, rfl, by decide, by decide, by decide, by decide, by decide,
      by decide, by decide⟩,
    ⟨0x1000#32, 0x100C#32, 1#32, offer yCmd, rfl, by decide, by decide, by decide, by
      intro a h1 h2 h3
      have e1 : (0x1000#32).toNat = 4096 := by decide
      have e2 : (0x100C#32).toNat = 4108 := by decide
      have e3 : (1#32).toNat = 1 := by decide
      rw [e1, e3] at h2; rw [e2] at h3; omega⟩⟩

/-- Each access in and out: 0x1005 is the last byte of TOYCBCR's footprint and 0x1006 the first above it; reading 0x100B, the
last byte of TORGBFROMXYZ's input, is allowed and writing it is not. -/
theorem witness_ExclusiveFootprint :
    (∃ (i : Instr) (s : State) (who : Agent) (addr : Word) (rest : List Input), s.rst = false ∧ s.phase = .busy ∧
      s.regs.latched = some i ∧ s.env = .read who addr :: rest ∧ (writeSpan i).has addr.toNat = true) ∧
    (∃ (i : Instr) (s : State) (who : Agent) (addr : Word) (rest : List Input), s.rst = false ∧ s.phase = .busy ∧
      s.regs.latched = some i ∧ s.env = .read who addr :: rest ∧ (writeSpan i).has addr.toNat = false ∧
      (readSpan i).has addr.toNat = true ∧ s.heldCmd = none ∧ releasedAt s addr.toNat = false) ∧
    (∃ (i : Instr) (s : State) (who : Agent) (addr : Word) (v : Byte) (rest : List Input), s.rst = false ∧
      s.phase = .busy ∧ s.regs.latched = some i ∧ s.env = .write who addr v :: rest ∧
      ((writeSpan i).has addr.toNat || (readSpan i).has addr.toNat) = true) ∧
    (∃ (i : Instr) (s : State) (who : Agent) (addr : Word) (v : Byte) (rest : List Input), s.rst = false ∧
      s.phase = .busy ∧ s.regs.latched = some i ∧ s.env = .write who addr v :: rest ∧
      ((writeSpan i).has addr.toNat || (readSpan i).has addr.toNat) = false ∧
      (∃ j, s.heldCmd = some j ∧ ((writeSpan j).has addr.toNat || (readSpan j).has addr.toNat) = false) ∧
      releasedAt s addr.toNat = false) :=
  ⟨⟨yCmd, { running yCmd 1#32 [] with env := [.read .host 0x1005#32] }, _, _, _, rfl, rfl, by decide, rfl, by decide⟩,
    ⟨rCmd, { running rCmd 0#32 [] with env := [.read .other 0x100B#32] }, _, _, _, rfl, rfl, by decide, rfl, by decide,
      by decide, rfl, by decide⟩,
    ⟨rCmd, { running rCmd 0#32 [] with env := [.write .other 0x100B#32 1#8] }, _, _, _, _, rfl, rfl, by decide, rfl,
      by decide⟩,
    ⟨yCmd, { running yCmd 1#32 [] with env := [.write .host 0x1006#32 1#8], cmd := some (encode yCmd) }, _, _, _, _, rfl, rfl,
      by decide, rfl, by decide, ⟨yCmd, by decide, by decide⟩, by decide⟩⟩

/-- The byte just above a held packet's footprint, the last bytes inside it, a region given back, and its last byte. -/
theorem witness_HostReadsWhatItWrote :
    (∃ (s : State) (addr : Word) (v : Byte) (rest : List Input) (i : Instr), s.rst = false ∧ s.phase = .idle ∧
      s.heldCmd = some i ∧ ((writeSpan i).has addr.toNat || (readSpan i).has addr.toNat) = false ∧
      releasedAt s addr.toNat = false ∧ s.env = .write .host addr v :: .read .host addr :: rest) ∧
    (∃ (s : State) (p : Packet) (i : Instr) (who : Agent) (addr : Word) (rest : List Input), s.rst = false ∧
      s.cmd = some p ∧ decode p = .ok i ∧ s.env = .read who addr :: rest ∧ (writeSpan i).has addr.toNat = true) ∧
    (∃ (s : State) (p : Packet) (i : Instr) (who : Agent) (addr : Word) (v : Byte) (rest : List Input), s.rst = false ∧
      s.cmd = some p ∧ decode p = .ok i ∧ s.env = .write who addr v :: rest ∧
      ((writeSpan i).has addr.toNat || (readSpan i).has addr.toNat) = true) ∧
    (∃ (s : State) (base : Word) (size : Nat) (rest : List Input), s.rst = false ∧ s.env = .deallocate base size :: rest ∧
      ⟨base.toNat, size⟩ ∈ s.owned ∧ s.runningCmd = none ∧
      ∃ i, s.heldCmd = some i ∧ breach (s.owned.erase ⟨base.toNat, size⟩) i = none) ∧
    (∃ (s : State) (r : Region) (who : Agent) (addr : Word) (v : Byte) (rest : List Input), s.rst = false ∧
      r ∈ s.released ∧ r.base ≤ addr.toNat ∧ addr.toNat < r.base + r.size ∧
      (∀ q ∈ s.owned, ¬(q.base ≤ addr.toNat ∧ addr.toNat < q.base + q.size)) ∧ s.env = .write who addr v :: rest ∧
      intrudes s true addr.toNat = false) :=
  ⟨⟨{ offer yCmd with env := [.write .host 0x1006#32 7#8, .read .host 0x1006#32] }, _, _, _, yCmd, rfl, rfl, by decide,
      by decide, by decide, rfl⟩,
    ⟨{ offer rCmd with env := [.read .host 0x100E#32] }, _, rCmd, _, _, _, rfl, rfl, by decide, rfl, by decide⟩,
    ⟨{ offer rCmd with env := [.write .host 0x100B#32 1#8] }, _, rCmd, _, _, _, _, rfl, rfl, by decide, rfl, by decide⟩,
    ⟨{ offer rCmd with owned := ⟨0x2000, 4⟩ :: arena, env := [.deallocate 0x2000#32 4] }, _, _, _, rfl, rfl, by decide, rfl,
      rCmd, by decide, by decide⟩,
    ⟨{ State.reset with released := arena, env := [.write .host 0x100E#32 1#8] }, ⟨0x1000, 15⟩, _, _, _, _, rfl, by decide,
      by decide, by decide, by decide, rfl, by decide⟩⟩

/-- R53: a byte of a region given back is refused, and is ordinary again once a region that holds it is obtained. -/
theorem test_released_region :
    step { State.reset with released := arena, env := [.read .host 0x1000#32] } = .refused .allocatorMisuse ∧
    isNext (step { State.reset with released := arena, owned := arena, env := [.read .host 0x1000#32] })
      (fun t => t.replies == [.data 0x1000#32 0#8]) = true := ⟨rfl, by decide⟩

/-- R132: a run is over after the one `DONE` owed, and not where a reset withheld it. -/
theorem test_end_of_run :
    isNext (step (running yCmd 2#32 [])) State.final = true ∧
    isNext (step { running yCmd 2#32 [] with rst := true }) (fun t => !t.final) = true := by decide

/-- The region of a buffer in place, the region of TORGBFROMXYZ's output alone, and the region of a held packet beside a running
command. -/
theorem witness_FreeingFootprintFaults :
    (∃ (s : State) (i : Instr) (p : Span) (base : Word) (size : Nat) (rest : List Input), s.rst = false ∧
      s.runningCmd = some i ∧ s.env = .deallocate base size :: rest ∧ ⟨base.toNat, size⟩ ∈ s.owned ∧
      p = readSpan i ∧ p.len ≠ 0 ∧
      ∀ r ∈ s.owned.erase ⟨base.toNat, size⟩, ¬(r.base ≤ p.base ∧ p.base + p.len ≤ r.base + r.size)) ∧
    (∃ (s : State) (i : Instr) (p : Span) (base : Word) (size : Nat) (rest : List Input), s.rst = false ∧
      s.runningCmd = some i ∧ s.env = .deallocate base size :: rest ∧ ⟨base.toNat, size⟩ ∈ s.owned ∧
      p = writeSpan i ∧ p.len ≠ 0 ∧ covered (s.owned.erase ⟨base.toNat, size⟩) (readSpan i) = true ∧
      ∀ r ∈ s.owned.erase ⟨base.toNat, size⟩, ¬(r.base ≤ p.base ∧ p.base + p.len ≤ r.base + r.size)) ∧
    (∃ (s : State) (i j : Instr) (p : Span) (base : Word) (size : Nat) (rest : List Input), s.rst = false ∧
      s.heldCmd = some i ∧ s.runningCmd = some j ∧ breach (s.owned.erase ⟨base.toNat, size⟩) j = none ∧
      s.env = .deallocate base size :: rest ∧ ⟨base.toNat, size⟩ ∈ s.owned ∧ p = readSpan i ∧ p.len ≠ 0 ∧
      ∀ r ∈ s.owned.erase ⟨base.toNat, size⟩, ¬(r.base ≤ p.base ∧ p.base + p.len ≤ r.base + r.size)) :=
  ⟨⟨{ running yCmd 1#32 [] with env := [.deallocate 0x1000#32 15] }, yCmd, _, 0x1000#32, 15, [], rfl, by decide, rfl,
      by decide, rfl, by decide, by decide⟩,
    ⟨{ running rCmd 0#32 [] with owned := [⟨0x1000, 12⟩, ⟨0x100C, 3⟩], env := [.deallocate 0x100C#32 3] }, rCmd, _, 0x100C#32, 3,
      [], rfl, by decide, rfl, by decide, rfl, by decide, by decide, by decide⟩,
    ⟨{ running yCmd 1#32 [] with
        owned := ⟨0x2000, 12⟩ :: arena, cmd := some (encode (.toxyz 0x2000#32 1#32 identM)), env := [.deallocate 0x2000#32 12] },
      .toxyz 0x2000#32 1#32 identM, yCmd, _, 0x2000#32, 12, [], rfl, by decide, by decide, by decide, rfl, by decide, rfl,
      by decide, by decide⟩⟩

/-- R142: a packet presented before its region is obtained is a violation, at a `BUSY` block too; so is giving its region back
while it is held. -/
theorem test_region_before_presenting :
    isFault (step { State.reset with env := [.present (encode yCmd), .allocated 0x1000#32 15] }) .bufferRange = true ∧
    isFault (step { running yCmd 1#32 [] with env := [.present (encode (.toycbcr 0x2000#32 1#32))] }) .bufferRange = true ∧
    isFault (step { offer yCmd with env := [.deallocate 0x1000#32 15] }) .bufferRange = true := by decide

theorem witness_AllocationIsExclusive :
    ∃ (s t : State) (base : Word) (size : Nat) (rest : List Input), s.rst = false ∧
      s.env = .allocated base size :: rest ∧ step s = .next t := by
  obtain ⟨t, ht, _⟩ := next_of_isNext (o := step { offer yCmd with env := [.allocated 0x100F#32 2] })
    (p := fun _ => true) (by decide)
  exact ⟨_, t, _, _, _, rfl, rfl, ht⟩

theorem witness_StepKeepsInv : ∃ s t : State, Inv s = true ∧ s.phase = .busy ∧ step s = .next t := by
  obtain ⟨t, ht, _⟩ := next_of_isNext (o := step (running yCmd 1#32 [])) (p := fun _ => true) (by decide)
  exact ⟨_, t, by decide, rfl, ht⟩

theorem witness_WholeCommands :
    (∃ (buf npix : Word) (s : State), Offered s (.toycbcr buf npix)) ∧
    (∃ (buf npix : Word) (m : Coeffs) (s : State), Offered s (.toxyz buf npix m)) ∧
    (∃ (inp out npix : Word) (s : State), Offered s (.torgbfromxyz inp out npix)) :=
  ⟨⟨_, _, _, offered_yCmd⟩, ⟨_, _, _, _, offered_xCmd⟩, ⟨_, _, _, _, offered_rCmd⟩⟩

/-- Different dead registers in `IDLE`; a different snapshot, `A1` and matrix under TOYCBCR in `BUSY`. -/
theorem witness_DeadRegistersUnobservable :
    (∃ s t : State, SameLive s t ∧ s ≠ t ∧ s.phase = .idle) ∧ (∃ s t : State, SameLive s t ∧ s ≠ t ∧ s.phase = .busy) :=
  ⟨⟨offer yCmd, { offer yCmd with regs := { State.reset.regs with a0 := 5#32 } }, ⟨rfl, fun h => absurd h (by decide)⟩,
      by decide, rfl⟩,
    ⟨running yCmd 1#32 [],
      { running yCmd 1#32 [] with
        regs := { (running yCmd 1#32 []).regs with snap := ⟨1#32, 2#32, 3#32⟩, a1 := 4#32, m := identM } },
      ⟨rfl, fun _ => ⟨rfl, rfl, rfl, rfl, by decide, by decide⟩⟩, by decide, rfl⟩⟩

/-- Finite operands of every clause: below the bound and, for the sum, the product and the quotient, above it. -/
theorem witness_Nearest :
    (∃ (a b : Word) (na nb : Bool) (ma mb : Nat), classify a = .fin na ma ∧ classify b = .fin nb mb ∧ mb ≠ 0 ∧
      classify (fadd a b) = .fin true 2 ∧ classify (fmul a b) = .fin true 0) ∧
    (∃ (a b : Word) (na nb : Bool) (ma mb : Nat), classify a = .fin na ma ∧ classify b = .fin nb mb ∧
      classify (fadd a b) = .inf false ∧ classify (fmul a b) = .inf false) ∧
    (∃ (a b : Word) (na nb : Bool) (ma mb : Nat), classify a = .fin na ma ∧ classify b = .fin nb mb ∧ mb ≠ 0 ∧
      classify (fdiv a b) = .inf true) ∧
    (∃ (a c : Word) (ma : Nat) (nc : Bool) (mc : Nat), classify a = .fin false ma ∧ classify c = .fin nc mc) := by
  have h1 : classify 0x00000001#32 = .fin false 1 := by decide
  have h3 : classify 0x80000003#32 = .fin true 3 := by decide
  have hm : classify 0x7F7FFFFF#32 = .fin false ((2 ^ 24 - 1) * 2 ^ 253) := by decide +kernel
  exact ⟨⟨_, _, _, _, _, _, h1, h3, by decide, by decide, by decide⟩,
    ⟨_, _, _, _, _, _, hm, hm, by decide +kernel, by decide +kernel⟩,
    ⟨_, _, _, _, _, _, hm, h3, by decide, by decide +kernel⟩, ⟨_, _, _, _, _, h1, h3⟩⟩

/-- Halfway between the two smallest subnormals, rounded to the even one, 2. -/
theorem witness_TiesGoToEven :
    ∃ num den p : Nat, 0 < den ∧ p < 0x7F800000 ∧ roundMag num den < 0x7F800000 ∧ p ≠ roundMag num den ∧
      ((num : Int) - (den * fMag (withSign false p) : Nat)).natAbs =
        ((num : Int) - (den * fMag (withSign false (roundMag num den)) : Nat)).natAbs :=
  ⟨3, 2, 1, by decide, by decide, by decide, by decide, by decide⟩

/-- Both sides of the overflow threshold. -/
theorem witness_OverflowRoundsToInfinity :
    classify (packRound true ((2 ^ 25 - 1) * 2 ^ 252) 1) = .inf true ∧
    classify (packRound false ((2 ^ 25 - 1) * 2 ^ 252 - 1) 1) = .fin false ((2 ^ 24 - 1) * 2 ^ 253) := by decide +kernel

theorem witness_OneNanPattern :
    classify (fadd 0x7F800000#32 0xFF800000#32) = .nan ∧ classify (fsub 0x7F800000#32 0x7F800000#32) = .nan ∧
    classify (fmul 0#32 0x7F800000#32) = .nan ∧ classify (fdiv 0#32 0#32) = .nan ∧
    classify (fsqrt 0xBF800000#32) = .nan := by decide

/-- Operands of every clause: a NaN, the infinities, the zeros, and two finite values whose sum is zero. -/
theorem witness_SpecialOperands :
    classify 0xFFC12345#32 = .nan ∧ classify 0x7F800000#32 = .inf false ∧ classify 0xFF800000#32 = .inf true ∧
    classify 0x80000000#32 = .fin true 0 ∧ classify 0x00000000#32 = .fin false 0 ∧
    classify 0x80000001#32 = .fin true 1 ∧ classify 0x00000001#32 = .fin false 1 ∧
    ratOf true 1 + ratOf false 1 = 0 ∧ ratOf true 0 + ratOf true 0 = 0 ∧ ratOf true 0 - ratOf false 0 = 0 := by
  refine ⟨by decide, by decide, by decide, by decide, by decide, by decide, by decide, ?_, ?_, ?_⟩ <;>
    norm_num [ratOf, signed]

/-- Operands of every clause: a NaN, the two zeros, the largest finite value and the infinities. -/
theorem witness_FleComparesValues :
    classify 0x7F800001#32 = .nan ∧ classify 0x80000000#32 = .fin true 0 ∧ classify 0x00000000#32 = .fin false 0 ∧
    classify 0x7F7FFFFF#32 = .fin false ((2 ^ 24 - 1) * 2 ^ 253) ∧ classify 0x7F800000#32 = .inf false ∧
    classify 0xFF800000#32 = .inf true := by decide +kernel

/-- A finite value whose integer is below 0, above 255, and at both ends of the range. -/
theorem witness_QuantizerRoundsAndSaturates :
    (∃ x, classify x = .nan) ∧ (∃ x, classify x = .inf false) ∧ (∃ x, classify x = .inf true) ∧
    (∃ x neg mag, classify x = .fin neg mag ∧ rha neg mag = -1) ∧
    (∃ x neg mag, classify x = .fin neg mag ∧ rha neg mag = 256) ∧
    (∃ x neg mag, classify x = .fin neg mag ∧ rha neg mag = 255) ∧
    (∃ x neg mag, classify x = .fin neg mag ∧ rha neg mag = 0) :=
  ⟨⟨0x7FC00000#32, by decide⟩, ⟨0x7F800000#32, by decide⟩, ⟨0xFF800000#32, by decide⟩,
    ⟨0xBF000000#32, true, 2 ^ 148, by decide +kernel, by decide +kernel⟩,
    ⟨0x437F8000#32, false, 511 * 2 ^ 148, by decide +kernel, by decide +kernel⟩,
    ⟨0x437E8000#32, false, 509 * 2 ^ 148, by decide +kernel, by decide +kernel⟩,
    ⟨0x3EFFFFFF#32, false, 16777215 * 2 ^ 124, by decide +kernel, by decide +kernel⟩⟩

theorem witness_ClampFirstAgrees : ∃ (x : Word) (neg : Bool) (mag : Nat), classify x = .fin neg mag ∧ mag ≠ 0 :=
  ⟨0x437F8000#32, false, 511 * 2 ^ 148, by decide +kernel, by decide +kernel⟩

theorem witness_Gamma :
    (∃ v m, classify v = .fin true m ∧ m ≠ 0) ∧ (∃ v n, classify v = .fin n 0) ∧ (∃ v, classify v = .inf true) ∧
    (∃ v, classify v = .inf false) ∧ (∃ v, classify v = .nan) ∧ (∃ v, AboveOne v ∧ v ≠ 0x3F800001#32) :=
  ⟨⟨0x80000001#32, 1, by decide, by decide⟩, ⟨0x80000000#32, true, by decide⟩, ⟨0xFF800000#32, by decide⟩,
    ⟨0x7F800000#32, by decide⟩, ⟨0x7FC00000#32, by decide⟩,
    ⟨0x3F800002#32, .inr ⟨8388610 * 2 ^ 126, by decide +kernel, by norm_num [ratOf, signed]⟩, by decide⟩⟩

/-- The value just below zero and the one just above 1. -/
theorem witness_OutOfGamutClamped :
    (∃ (v : Word) (neg : Bool) (m : Nat), classify v = .fin neg m ∧ ratOf neg m < 0) ∧
    (∃ (v : Word) (neg : Bool) (m : Nat), classify v = .fin neg m ∧ 1 < ratOf neg m) :=
  ⟨⟨0x80000001#32, true, 1, by decide, by norm_num [ratOf, signed]⟩,
    ⟨0x3F800001#32, false, 8388609 * 2 ^ 126, by decide +kernel, by norm_num [ratOf, signed]⟩⟩

theorem witness_NanPoisonsPixel :
    ∃ p : Snapshot, classify p.s0 = .nan ∨ classify p.s1 = .nan ∨ classify p.s2 = .nan :=
  ⟨⟨0#32, 0#32, 0xFFC12345#32⟩, .inr (.inr (by decide))⟩

/-- Finite coefficients of either sign, a zero with the sign bit set, and the coefficients that are not finite. -/
theorem witness_BlackPixelGivesZero :
    classify 0xBF800000#32 = .fin true (2 ^ 149) ∧ classify 0x3F800000#32 = .fin false (2 ^ 149) ∧
    classify 0x80000000#32 = .fin true 0 ∧ classify 0xFF800000#32 = .inf true ∧ classify 0x7F800001#32 = .nan := by
  decide +kernel

end Sys2Proof.Tests
end

section
/-! PROOF. What the block does on behalf of a command, the effects a step can have, and a pixel as a change of memory:
the lemmas the statements about the state stand on. -/

namespace Sys2Proof.Machine

/-! ## The effects of a step -/

/-- Everything a step that answers a next state can have done: a reset, one of the block's four moves, or one of the inputs.
`rest` is what is left to come. -/
inductive StepEffect (s : State) : State → Prop where
  /-- A requested reset (R30). -/
  | reset (hr : s.rst = true) : StepEffect s (resetStep s)
  /-- The block, `IDLE` with no packet, does nothing (R135). -/
  | stay (rest : List Input) (hr : s.rst = false) (hp : s.phase = .idle) (hc : s.cmd = none) :
      StepEffect s { s with env := rest }
  /-- The held packet is accepted (R27). -/
  | accept (rest : List Input) (p : Packet) (i : Instr) (hr : s.rst = false) (hp : s.phase = .idle)
      (hc : s.cmd = some p) (hd : decode p = .ok i) (hb : breach s.owned i = none) :
      StepEffect s ({ s with env := rest }.takePacket.accept i)
  /-- The running command takes a pixel step (R28). -/
  | pixel (rest : List Input) (i : Instr) (hr : s.rst = false) (hi : Running s i) (hlt : s.regs.pix < s.regs.n) :
      StepEffect s (pixelRule i { s with env := rest }).nextPixel
  /-- The running command completes (R29). -/
  | complete (rest : List Input) (hr : s.rst = false) (hp : s.phase = .busy) (hn : s.regs.pix = s.regs.n) :
      StepEffect s { s with env := rest }.complete
  /-- A packet is presented and held (R17). -/
  | present (rest : List Input) (p : Packet) (hr : s.rst = false) (hc : s.cmd = none)
      (hb : heldBreach { s with env := rest, cmd := some p } = none) :
      StepEffect s { s with env := rest, cmd := some p, presented := s.presented + 1 }
  /-- A reset is requested (R137). -/
  | request (rest : List Input) (hr : s.rst = false) : StepEffect s { s with env := rest, rst := true }
  /-- The host or another agent reads; what the host is given is no `DONE` (R25, R131). -/
  | reply (rest : List Input) (rs : List Reply) (hr : s.rst = false)
      (hrs : rs = s.replies ∨ ∃ r, r ≠ Reply.done ∧ rs = r :: s.replies) :
      StepEffect s { s with env := rest, replies := rs }
  /-- An agent writes a byte (R44). -/
  | write (rest : List Input) (addr : Word) (v : Byte) (hr : s.rst = false)
      (hi : intrudes s true addr.toNat = false) :
      StepEffect s { s with env := rest, mem := writeByte s.mem addr.toNat v }
  /-- The host obtains a region (R52). -/
  | allocated (rest : List Input) (base : Word) (size : Nat) (hr : s.rst = false)
      (ha : allocatable s.owned base.toNat size = true) :
      StepEffect s { s with
        env := rest, owned := ⟨base.toNat, size⟩ :: s.owned, mem := fillFree s.draws base.toNat size s.mem,
        draws := s.draws + 1 }
  /-- The host gives a region back (R53). -/
  | freed (rest : List Input) (q : Region) (hr : s.rst = false) (hq : q ∈ s.owned)
      (hb : standingBreach { s with env := rest, owned := s.owned.erase q } = none) :
      StepEffect s { s with env := rest, owned := s.owned.erase q, released := q :: s.released }

/-- The block's move has one of the effects of a step, whatever is left to come. -/
theorem stepEffect_of_blockStep {s t : State} {rest : List Input} (hr : s.rst = false)
    (h : blockStep { s with env := rest } = .next t) : StepEffect s t := by
  rcases blockStep_effects h with ⟨hp, hc, rfl⟩ | ⟨p, i, hp, hc, hd, hb, rfl⟩ | ⟨i, hi, hlt, rfl⟩ | ⟨hp, hn, rfl⟩
  · exact .stay rest hr hp hc
  · exact .accept rest p i hr hp hc hd hb
  · exact .pixel rest i hr hi hlt
  · exact .complete rest hr hp hn

/-- A step that answers a next state had one of the effects. -/
theorem stepEffect_of_step {s t : State} (h : step s = .next t) : StepEffect s t := by
  rcases step_cases h with ⟨hr, rfl⟩ | ⟨hr, _, hb⟩ | ⟨e, rest, hr, _, hi⟩
  · exact .reset hr
  · exact stepEffect_of_blockStep (rest := s.env) hr hb
  · rcases inputStep_cases hi with ⟨_, hb⟩ | ⟨_, _, _, _, hb⟩ | ⟨p, _, hc, hb, rfl⟩ | ⟨_, rfl⟩ | ⟨_, rfl⟩ |
      ⟨_, addr, rs, _, _, _, hrs, rfl⟩ | ⟨_, addr, v, _, hx, _, rfl⟩ | ⟨base, size, _, ha, rfl⟩ |
      ⟨base, size, _, hq, hb, rfl⟩
    · exact stepEffect_of_blockStep hr hb
    · exact stepEffect_of_blockStep (rest := s.env) hr hb
    · exact .present rest p hr hc hb
    · exact .request rest hr
    · exact .reply rest _ hr (.inr ⟨_, by simp, rfl⟩)
    · exact .reply rest rs hr (hrs.imp_right fun h => ⟨_, by simp, h⟩)
    · exact .write rest addr v hr hx
    · exact .allocated rest base size hr ha
    · exact .freed rest _ hr hq hb

/-! ## A pixel as a change of memory -/

/-- What a command loads into the snapshot registers at pixel p (R22). -/
def pixelSnap (i : Instr) (mem : List Host.Cell) (p : Nat) : Snapshot :=
  match i with
  | .toycbcr buf _ => snapshot8 mem buf.toNat p
  | .toxyz buf _ _ => snapshot32 mem buf.toNat p
  | .torgbfromxyz inp _ _ => snapshot32 mem inp.toNat p

/-- Memory after a command has stored what it computes from a snapshot into pixel p. -/
def pixelStore (i : Instr) (mem : List Host.Cell) (p : Nat) (snap : Snapshot) : List Host.Cell :=
  match i with
  | .toycbcr buf _ => storePixel8 mem buf.toNat p (toycbcrOut snap)
  | .toxyz buf _ mat => storePixel32 mem buf.toNat p (toxyzOut mat snap)
  | .torgbfromxyz _ out _ => storePixel8 mem out.toNat p (torgbOut snap)

/-- Memory after the pixel rule of a command at pixel p. -/
def pixelMem (i : Instr) (mem : List Host.Cell) (p : Nat) : List Host.Cell := pixelStore i mem p (pixelSnap i mem p)

/-- The pixel rule of the latched command reads its operands from the command alone: no other register matters (R21). -/
theorem pixelRule_latched {i : Instr} {s : State} (hl : s.regs.latched = some i) :
    pixelRule i s =
      s.pixelDone (pixelSnap i s.mem s.regs.pix.toNat) (pixelMem i s.mem s.regs.pix.toNat) := by
  cases i with
  | toycbcr b n => obtain ⟨rfl, _⟩ := latched_toycbcr hl; rfl
  | toxyz b n m => obtain ⟨rfl, _, rfl⟩ := latched_toxyz hl; rfl
  | torgbfromxyz a b n => obtain ⟨rfl, rfl, _⟩ := latched_torgbfromxyz hl; rfl

/-- A pixel changes no byte outside those it writes. -/
theorem readByte_pixelStore_outside (i : Instr) (mem : List Host.Cell) (p : Nat) (snap : Snapshot) {a : Nat}
    (ha : (pixelSpan i p).has a = false) : readByte (pixelStore i mem p snap) a = readByte mem a := by
  cases i
  · exact readByte_storePixel8_outside _ _ (span_has_not.1 ha)
  · exact readByte_storePixel32_outside _ _ (span_has_not.1 ha)
  · exact readByte_storePixel8_outside _ _ (span_has_not.1 ha)

/-- Inside the pixel, three byte stores leave the same bytes over every memory. -/
theorem readByte_storePixel8_inside (m m' : List Host.Cell) {b p a : Nat} (o : Out8) (h : ea8 b p 0 ≤ a)
    (h' : a < ea8 b p 0 + 3) : readByte (storePixel8 m b p o) a = readByte (storePixel8 m' b p o) a := by
  simp only [ea8] at h h'
  rw [readByte_storePixel8, readByte_storePixel8]
  rcases (by omega : a = b + 3 * p + 2 ∨ a = b + 3 * p + 1 ∨ a = b + 3 * p + 0) with h | h | h <;> simp [ea8, h]

/-- Inside an element, a store leaves the same bytes over every memory; outside, what was there before. -/
theorem readByte_write32_congr {m m' : List Host.Cell} {e a : Nat} (v : Word)
    (h : a < e ∨ e + 4 ≤ a → readByte m a = readByte m' a) :
    readByte (write32 m e v) a = readByte (write32 m' e v) a := by
  by_cases ha : a < e ∨ e + 4 ≤ a
  · rw [readByte_write32_outside _ _ ha, readByte_write32_outside _ _ ha, h ha]
  · rw [readByte_write32, readByte_write32]
    rcases (by omega : a = e + 3 ∨ a = e + 2 ∨ a = e + 1 ∨ a = e) with h | h | h | h <;> simp [h]

/-- Inside the pixel, three element stores leave the same bytes over every memory. -/
theorem readByte_storePixel32_inside (m m' : List Host.Cell) {b p a : Nat} (o : Out32) (h : ea32 b p 0 ≤ a)
    (h' : a < ea32 b p 0 + 12) : readByte (storePixel32 m b p o) a = readByte (storePixel32 m' b p o) a := by
  simp only [ea32] at h h'
  refine readByte_write32_congr _ fun h2 => readByte_write32_congr _ fun h1 => readByte_write32_congr _ fun h0 => ?_
  simp only [ea32] at h0 h1 h2
  omega

/-- The bytes a pixel writes depend on its snapshot alone. -/
theorem readByte_pixelStore_inside (i : Instr) (m m' : List Host.Cell) (p : Nat) (snap : Snapshot) {a : Nat}
    (ha : (pixelSpan i p).has a = true) : readByte (pixelStore i m p snap) a = readByte (pixelStore i m' p snap) a := by
  obtain ⟨h, h'⟩ := span_has.1 ha
  cases i
  · exact readByte_storePixel8_inside _ _ _ h h'
  · exact readByte_storePixel32_inside _ _ _ h h'
  · exact readByte_storePixel8_inside _ _ _ h h'

theorem snapshot8_congr {m m' : List Host.Cell} {b p : Nat}
    (h : ∀ a, ea8 b p 0 ≤ a → a < ea8 b p 0 + 3 → readByte m' a = readByte m a) :
    snapshot8 m' b p = snapshot8 m b p := by
  have hc : ∀ c < 3, readByte m' (ea8 b p c) = readByte m (ea8 b p c) := fun c hc =>
    h _ (by simp only [ea8]; omega) (by simp only [ea8]; omega)
  simp only [snapshot8, hc 0 (by omega), hc 1 (by omega), hc 2 (by omega)]

theorem snapshot32_congr {m m' : List Host.Cell} {b p : Nat}
    (h : ∀ a, ea32 b p 0 ≤ a → a < ea32 b p 0 + 12 → readByte m' a = readByte m a) :
    snapshot32 m' b p = snapshot32 m b p := by
  have hc : ∀ c < 3, read32 m' (ea32 b p c) = read32 m (ea32 b p c) := fun c hc =>
    read32_congr fun k hk => h _ (by simp only [ea32]; omega) (by simp only [ea32]; omega)
  simp only [snapshot32, hc 0 (by omega), hc 1 (by omega), hc 2 (by omega)]

/-- The snapshot depends on the bytes the pixel reads alone. -/
theorem pixelSnap_congr {i : Instr} {m m' : List Host.Cell} {p : Nat}
    (h : ∀ a, (pixelReads i p).has a = true → readByte m' a = readByte m a) : pixelSnap i m' p = pixelSnap i m p := by
  cases i
  · exact snapshot8_congr fun a h1 h2 => h a (span_has.2 ⟨h1, h2⟩)
  · exact snapshot32_congr fun a h1 h2 => h a (span_has.2 ⟨h1, h2⟩)
  · exact snapshot32_congr fun a h1 h2 => h a (span_has.2 ⟨h1, h2⟩)

/-- Over memories that agree on what a pixel reads, it writes the same bytes. -/
theorem readByte_pixelMem_congr {i : Instr} {m m' : List Host.Cell} {p a : Nat}
    (h : ∀ a, (pixelReads i p).has a = true → readByte m' a = readByte m a) (ha : (pixelSpan i p).has a = true) :
    readByte (pixelMem i m' p) a = readByte (pixelMem i m p) a := by
  rw [pixelMem, pixelSnap_congr h]
  exact readByte_pixelStore_inside i m' m p _ ha

/-- The bytes a pixel below the count reads lie inside the read footprint. -/
theorem pixelReads_sub (i : Instr) (p a : Nat) (hp : p < (npixOf i).toNat) (ha : (pixelReads i p).has a = true) :
    (readSpan i).has a = true := by
  cases i <;> simp only [pixelReads, readSpan, span_has, npixOf, ea8, ea32] at * <;> omega

/-! ## Contracts -/

/-- A packet made by the encoder decodes to its command (R59 to R61). -/
theorem decode_encode (i : Instr) : decode (encode i) = .ok i := by
  cases i with
  | toycbcr buf npix =>
    obtain ⟨_, _, ho, hm⟩ := Laws.Header.toycbcr buf npix
    simp [decode, encode, ho, hm, Instr.opcode, decodeU]
  | toxyz buf npix m =>
    obtain ⟨_, _, ho, hm⟩ := Laws.Header.toxyz buf npix m
    simp [decode, encode, ho, hm, Instr.opcode, decodeM]
  | torgbfromxyz inp out npix =>
    obtain ⟨_, _, ho, hm⟩ := Laws.Header.torgbfromxyz inp out npix
    simp [decode, encode, ho, hm, Instr.opcode, decodeD]

theorem Running.phase_eq {s : State} {i : Instr} (h : Running s i) : s.phase = .busy := h.1

theorem Running.latched_eq {s : State} {i : Instr} (h : Running s i) : s.regs.latched = some i := h.2.1

/-- The write footprint of a kept contract lies in the address space. -/
theorem writeSpan_bound {owned : List Region} {i : Instr} (h : breach owned i = none) :
    (writeSpan i).base + (writeSpan i).len ≤ 2 ^ 32 := by
  by_cases hl : (writeSpan i).len = 0
  · have hbase : (writeSpan i).base < 2 ^ 32 := by cases i <;> exact BitVec.isLt _
    omega
  · exact covered_bound (covered_of_breach h).2 hl

/-- With no wrap at the end of the write footprint, none at the end of a pixel of it. -/
theorem pixelSpan_bound {owned : List Region} {i : Instr} {p : Nat} (h : breach owned i = none)
    (hp : p < (npixOf i).toNat) : (pixelSpan i p).base + (pixelSpan i p).len ≤ 2 ^ 32 := by
  have hw := writeSpan_bound h
  cases i <;> simp only [pixelSpan, writeSpan, npixOf, ea8, ea32] at * <;> omega

/-- The buffers of a kept TORGBFROMXYZ share no byte (R56). -/
theorem meets_of_breach_torgbfromxyz {owned : List Region} {inp out npix : Word}
    (h : breach owned (.torgbfromxyz inp out npix) = none) :
    (readSpan (.torgbfromxyz inp out npix)).meets (writeSpan (.torgbfromxyz inp out npix)) = false := by
  simp only [breach] at h
  split at h
  · cases h
  · split at h
    · cases h
    · split at h
      · cases h
      · next hm => exact Bool.eq_false_of_not_eq_true hm

end Sys2Proof.Machine
end

section
/-! PROOF. The invariant of the machine, part by part, and the statements about `DONE` and `PHASE`
(10_state.md R17 to R23, R29). -/

namespace Sys2Proof.Machine

/-! ## The tokens counted -/

theorem doneCount_congr {s t : State} (h : t.replies = s.replies) : t.doneCount = s.doneCount := by
  rw [State.doneCount, State.doneCount, h]

theorem doneCount_cons_done {s t : State} (h : t.replies = .done :: s.replies) : t.doneCount = s.doneCount + 1 := by
  rw [State.doneCount, State.doneCount, h, List.countP_cons_of_pos (by simp)]

theorem doneCount_cons_other {s t : State} {r : Reply} (hr : r ≠ .done) (h : t.replies = r :: s.replies) :
    t.doneCount = s.doneCount := by
  rw [State.doneCount, State.doneCount, h, List.countP_cons_of_neg (by simpa using hr)]

/-- A step gives at most one `DONE`, and only by completion. -/
theorem doneCount_effect {s t : State} (h : StepEffect s t) :
    t.doneCount = s.doneCount ∨
      (t.doneCount = s.doneCount + 1 ∧ s.rst = false ∧ s.phase = .busy ∧ s.regs.pix = s.regs.n ∧ t.phase = .idle) := by
  cases h with
  | complete rest hr hp hn => exact .inr ⟨doneCount_cons_done rfl, hr, hp, hn, rfl⟩
  | reply rest rs hr hrs =>
    rcases hrs with rfl | ⟨r, hne, rfl⟩
    · exact .inl rfl
    · exact .inl (doneCount_cons_other hne rfl)
  | pixel rest i hr hi hlt =>
    obtain ⟨snap, mem, he⟩ := pixelRule_eq i { s with env := rest }
    exact .inl (he ▸ rfl)
  | _ => exact .inl (doneCount_congr rfl)

/-- The packets presented grow by at least as much as the `DONE` given and still to come: only a presentation adds to what is
owed, and a reset loses what was in flight (R132). -/
theorem owed_effect {s t : State} (h : StepEffect s t) :
    s.presented + (t.doneCount + t.inFlight) ≤ t.presented + (s.doneCount + s.inFlight) := by
  cases h with
  | reset hr => simp [State.doneCount, State.inFlight]
  | accept rest p i hr hp hc hd hb => simp [State.doneCount, State.inFlight, hp, hc]
  | pixel rest i hr hi hlt =>
    obtain ⟨snap, mem, he⟩ := pixelRule_eq i { s with env := rest }
    simp [State.doneCount, State.inFlight, he]
  | complete rest hr hp hn => simp [State.doneCount, State.inFlight, hp]; omega
  | present rest p hr hc hb => simp [State.doneCount, State.inFlight, hc]; omega
  | reply rest rs hr hrs =>
    rcases hrs with rfl | ⟨r, hne, rfl⟩
    · exact le_rfl
    · simp [State.doneCount, State.inFlight, hne]
  | _ => exact le_rfl

/-- Settles O22: of the effects of a step only completion gives a `DONE`, and only presentation adds to what is owed. -/
theorem doneOnlyAtCompletion : Obligations.DoneOnlyAtCompletion :=
  ⟨fun _ _ h => doneCount_effect (stepEffect_of_step h), fun _ _ h => owed_effect (stepEffect_of_step h)⟩

/-! ## The phase -/

/-- Settles O21: acceptance is the one effect that leaves `IDLE`, completion and reset the two that leave `BUSY`. -/
theorem phaseChangesOnly : Obligations.PhaseChangesOnly := by
  constructor
  · intro s t h hs ht
    cases stepEffect_of_step h with
    | accept rest p i hr hp hc hd hb => exact ⟨p, i, hc, hd, latched_latch _ _, latch_pix _ _, rfl⟩
    | pixel rest i hr hi hlt => cases hs.symm.trans hi.phase_eq
    | reset => cases ht
    | complete => cases ht
    | _ => cases hs.symm.trans ht
  · intro s t h hs ht
    cases stepEffect_of_step h with
    | reset hr => exact .inl hr
    | complete rest hr hp hn => exact .inr ⟨hn, rfl⟩
    | accept => cases ht
    | pixel rest i hr hi hlt =>
      obtain ⟨snap, mem, he⟩ := pixelRule_eq i { s with env := rest }
      rw [he] at ht
      cases hs.symm.trans ht
    | _ => cases hs.symm.trans ht

/-! ## The parts of the invariant -/

theorem inv_iff {s : State} :
    Inv s = true ↔ memWf s.mem = true ∧ memBounded s.mem = true ∧ ownedWf s.owned = true ∧ busyWf s = true ∧
      heldBreach s = none ∧ s.doneCount + s.inFlight ≤ s.presented := by
  simp [Inv, and_assoc]

/-- In `BUSY` a command runs and `PIX` has not passed its count. -/
theorem busyWf_iff {s : State} :
    busyWf s = true ↔ (s.phase = .busy → s.regs.pix ≤ s.regs.n ∧ ∃ i, Running s i) := by
  cases hp : s.phase with
  | idle => simp [busyWf, hp]
  | busy => cases hl : s.regs.latched <;> simp [busyWf, Running, hp, hl]

theorem memBounded_storePixel8 {mem : List Host.Cell} {b i : Nat} (o : Out8) (hb : ea8 b i 0 + 3 ≤ 2 ^ 32)
    (h : memBounded mem = true) : memBounded (storePixel8 mem b i o) = true := by
  have hc : ∀ c < 3, ea8 b i c < 2 ^ 32 := fun c hc => by simp only [ea8] at *; omega
  exact memBounded_writeByte _ _ _ (hc 2 (by decide)) (memBounded_writeByte _ _ _ (hc 1 (by decide))
    (memBounded_writeByte _ _ _ (hc 0 (by decide)) h))

theorem memBounded_storePixel32 {mem : List Host.Cell} {b i : Nat} (o : Out32) (hb : ea32 b i 0 + 12 ≤ 2 ^ 32)
    (h : memBounded mem = true) : memBounded (storePixel32 mem b i o) = true := by
  have hc : ∀ c < 3, ea32 b i c + 4 ≤ 2 ^ 32 := fun c hc => by simp only [ea32] at *; omega
  exact memBounded_write32 _ _ _ (hc 2 (by decide)) (memBounded_write32 _ _ _ (hc 1 (by decide))
    (memBounded_write32 _ _ _ (hc 0 (by decide)) h))

/-- A pixel of a kept contract writes no address that does not exist. -/
theorem memBounded_pixelMem {owned : List Region} {i : Instr} {mem : List Host.Cell} {p : Nat}
    (hb : breach owned i = none) (hp : p < (npixOf i).toNat) (h : memBounded mem = true) :
    memBounded (pixelMem i mem p) = true := by
  have hs := pixelSpan_bound hb hp
  cases i
  · exact memBounded_storePixel8 _ hs h
  · exact memBounded_storePixel32 _ hs h
  · exact memBounded_storePixel8 _ hs h

theorem memWf_resetMem {s : State} (h : memWf s.mem = true) : memWf (resetMem s) = true := by
  unfold resetMem
  split
  · exact h
  · split
    · exact h
    · exact memWf_fillFree _ _ _ _ h

theorem memBounded_resetMem {s : State} (hw : busyWf s = true) (h : memBounded s.mem = true) :
    memBounded (resetMem s) = true := by
  cases hp : s.phase with
  | idle => simpa only [resetMem, hp] using h
  | busy =>
    obtain ⟨_, i, _, hl, hb⟩ := busyWf_iff.1 hw hp
    simpa only [resetMem, hp, hl] using memBounded_fillFree _ _ _ _ (writeSpan_bound hb) h

theorem memWf_effect {s t : State} (h : StepEffect s t) (hm : memWf s.mem = true) : memWf t.mem = true := by
  cases h with
  | reset => exact memWf_resetMem hm
  | pixel rest i => exact memWf_pixelRule i { s with env := rest } hm
  | write => exact memWf_writeByte _ _ _ hm
  | allocated => exact memWf_fillFree _ _ _ _ hm
  | _ => exact hm

theorem memBounded_effect {s t : State} (h : StepEffect s t) (hw : busyWf s = true) (hm : memBounded s.mem = true) :
    memBounded t.mem = true := by
  cases h with
  | reset => exact memBounded_resetMem hw hm
  | pixel rest i hr hi hlt =>
    obtain ⟨_, hl, hb⟩ := hi
    rw [State.nextPixel_mem, pixelRule_latched (s := { s with env := rest }) hl]
    exact memBounded_pixelMem hb (latched_n hl ▸ hlt) hm
  | write rest addr => exact memBounded_writeByte _ _ _ addr.isLt hm
  | allocated rest base size hr ha =>
    simp only [allocatable, Bool.and_eq_true, decide_eq_true_eq] at ha
    exact memBounded_fillFree _ _ _ _ ha.1 hm
  | _ => exact hm

theorem allocatable_erase {owned : List Region} {base size : Nat} (q : Region)
    (h : allocatable owned base size = true) : allocatable (owned.erase q) base size = true := by
  simp only [allocatable, Bool.and_eq_true, List.all_eq_true] at h ⊢
  exact ⟨h.1, fun r hr => h.2 r (List.mem_of_mem_erase hr)⟩

theorem ownedWf_erase (owned : List Region) (q : Region) (h : ownedWf owned = true) :
    ownedWf (owned.erase q) = true := by
  induction owned with
  | nil => exact h
  | cons r t ih =>
    simp only [ownedWf, Bool.and_eq_true] at h
    by_cases hq : r = q
    · rw [hq, List.erase_cons_head]; exact h.2
    · rw [List.erase_cons_tail (by simpa using hq), ownedWf, Bool.and_eq_true]
      exact ⟨allocatable_erase q h.1, ih h.2⟩

theorem ownedWf_effect {s t : State} (h : StepEffect s t) (ho : ownedWf s.owned = true) : ownedWf t.owned = true := by
  cases h with
  | pixel rest i =>
    obtain ⟨snap, mem, he⟩ := pixelRule_eq i { s with env := rest }
    rw [he]; exact ho
  | allocated rest base size hr ha => exact Bool.and_eq_true_iff.2 ⟨ha, ho⟩
  | freed rest q => exact ownedWf_erase _ q ho
  | _ => exact ho

/-- A pixel step below the count leaves the command running, one pixel further, and not past the count (R23). -/
theorem busyWf_pixel {s : State} {i : Instr} (hi : Running s i) (hlt : s.regs.pix < s.regs.n) :
    busyWf (pixelRule i s).nextPixel = true := by
  obtain ⟨snap, mem, he⟩ := pixelRule_eq i s
  rw [he]
  refine busyWf_iff.2 fun _ => ⟨?_, i, hi⟩
  have hsucc := pix_succ hlt
  have hlt' : s.regs.pix.toNat < s.regs.n.toNat := hlt
  change (s.regs.pix + 1#32).toNat ≤ s.regs.n.toNat
  omega

theorem busyWf_effect {s t : State} (h : StepEffect s t) (hw : busyWf s = true) : busyWf t = true := by
  cases h with
  | reset => rfl
  | accept rest p i hr hp hc hd hb =>
    refine busyWf_iff.2 fun _ => ⟨?_, i, rfl, latched_latch _ _, hb⟩
    rw [State.accept_regs, latch_pix]
    exact Nat.zero_le _
  | pixel rest i hr hi hlt => exact busyWf_pixel (s := { s with env := rest }) hi hlt
  | complete => rfl
  | allocated rest base size =>
    refine busyWf_iff.2 fun hp => ?_
    obtain ⟨hle, i, _, hl, hb⟩ := busyWf_iff.1 hw hp
    exact ⟨hle, i, hp, hl, breach_cons _ hb⟩
  | freed rest q hr hq hb =>
    refine busyWf_iff.2 fun hp => ?_
    obtain ⟨hle, i, _, hl, _⟩ := busyWf_iff.1 hw hp
    have hrun := runningBreach_eq_none.1 (standingBreach_eq_none.1 hb).1
    exact ⟨hle, i, hp, hl, hrun i ((runningCmd_busy _ hp).trans hl)⟩
  | _ => exact hw

theorem heldBreach_of_cmd_none {s : State} (h : s.cmd = none) : heldBreach s = none := by
  rw [heldBreach, heldCmd_none s h, Option.bind_none]

theorem heldBreach_effect {s t : State} (h : StepEffect s t) (hb : heldBreach s = none) : heldBreach t = none := by
  cases h with
  | reset => exact heldBreach_of_cmd_none rfl
  | accept => exact heldBreach_of_cmd_none rfl
  | pixel rest i =>
    obtain ⟨snap, mem, he⟩ := pixelRule_eq i { s with env := rest }
    rw [he]; exact hb
  | present rest p hr hc hb' => exact hb'
  | allocated rest base size =>
    exact heldBreach_eq_none.2 fun i hi => breach_cons _ (heldBreach_eq_none.1 hb i hi)
  | freed rest q hr hq hb' => exact (standingBreach_eq_none.1 hb').2
  | _ => exact hb

/-- Settles O37: every effect of a step keeps each part of the invariant. -/
theorem stepKeepsInv : Obligations.StepKeepsInv := by
  intro s t hs h
  obtain ⟨hm, hmb, ho, hw, hb, hn⟩ := inv_iff.1 hs
  have he := stepEffect_of_step h
  have howed := owed_effect he
  exact inv_iff.2 ⟨memWf_effect he hm, memBounded_effect he hw hmb, ownedWf_effect he ho, busyWf_effect he hw,
    heldBreach_effect he hb, by omega⟩

/-- Settles O38: at reset memory and regions are empty, the block is `IDLE` and nothing is held or owed. -/
theorem resetHasInv : Obligations.ResetHasInv := rfl

end Sys2Proof.Machine
end

section
/-! PROOF. Dead registers cannot be observed (10_state.md R15, R21, R22). A state and the same state with other registers
are stepped side by side; what they agree on is the latched command, `PIX` and `N`, and no function of the model looks
further. -/

namespace Sys2Proof.Machine

/-- Two outcomes of the same kind, with the same fault or refusal, or with next states that differ in dead registers only. -/
def SameOutcome : Host.Outcome State Fault Refusal → Host.Outcome State Fault Refusal → Prop
  | .next s, .next t => SameLive s t
  | .fault f, .fault g => f = g
  | .refused f, .refused g => f = g
  | _, _ => False

/-- The state with other registers, everything else as it is. -/
def State.withRegs (s : State) (q : Regs) : State := { s with regs := q }

@[simp] theorem State.withRegs_phase (s : State) (q : Regs) : (s.withRegs q).phase = s.phase := rfl
@[simp] theorem State.withRegs_regs (s : State) (q : Regs) : (s.withRegs q).regs = q := rfl
@[simp] theorem State.withRegs_cmd (s : State) (q : Regs) : (s.withRegs q).cmd = s.cmd := rfl
@[simp] theorem State.withRegs_owned (s : State) (q : Regs) : (s.withRegs q).owned = s.owned := rfl

/-- `q` may stand for the registers of `s`: it holds the same live values where there are any. -/
def LiveRegs (s : State) (q : Regs) : Prop := s.phase = .busy → s.regs.sameLive q

theorem sameLive_of_liveRegs {s : State} {q : Regs} (h : LiveRegs s q) : SameLive s (s.withRegs q) := ⟨rfl, h⟩

theorem SameLive.refl (s : State) : SameLive s s := ⟨rfl, fun _ => ⟨rfl, rfl, rfl, rfl, fun _ => rfl, fun _ => rfl⟩⟩

/-! ## What live registers determine -/

/-- Registers with the same live values hold the same command. -/
theorem latched_of_sameLive {r q : Regs} (h : r.sameLive q) : q.latched = r.latched := by
  obtain ⟨hop, ha0, hn, _, hm, ha1⟩ := h
  simp only [Regs.latched, hop, ha0, hn]
  split
  · rfl
  · split
    · next h2 => rw [hm h2]
    · split
      · next h3 => rw [ha1 h3]
      · rfl

/-- What a pixel step changes of the registers keeps live values the same. -/
theorem sameLive_pixel {r q : Regs} (h : r.sameLive q) (snap : Snapshot) :
    ({ r with snap := snap, pix := r.pix + 1#32 } : Regs).sameLive { q with snap := snap, pix := q.pix + 1#32 } := by
  obtain ⟨hop, ha0, hn, hpix, hm, ha1⟩ := h
  exact ⟨hop, ha0, hn, congrArg (· + 1#32) hpix, hm, ha1⟩

section
variable {s : State} {q : Regs} (h : LiveRegs s q)
include h

theorem runningCmd_liveRegs : (s.withRegs q).runningCmd = s.runningCmd := by
  cases hp : s.phase with
  | idle => rw [runningCmd_idle s hp]; exact runningCmd_idle _ hp
  | busy => rw [runningCmd_busy s hp, ← latched_of_sameLive (h hp)]; exact runningCmd_busy _ hp

theorem intrudes_liveRegs (write : Bool) (a : Nat) : intrudes (s.withRegs q) write a = intrudes s write a := by
  rw [intrudes, runningCmd_liveRegs h]; rfl

theorem standingBreach_liveRegs : standingBreach (s.withRegs q) = standingBreach s := by
  rw [standingBreach, runningBreach, runningCmd_liveRegs h]; rfl

theorem resetStep_liveRegs : resetStep (s.withRegs q) = resetStep s := by
  have hmem : resetMem (s.withRegs q) = resetMem s := by
    cases hp : s.phase with
    | idle => rw [resetMem, resetMem, State.withRegs_phase, hp]; rfl
    | busy =>
      rw [resetMem, resetMem, State.withRegs_phase, hp, State.withRegs_regs, latched_of_sameLive (h hp)]; rfl
  rw [resetStep, hmem]; rfl

/-! ## The block -/

/-- The pixel rule of the running command reads and writes the same over the same live registers. -/
theorem pixel_liveRegs {i : Instr} (hp : s.phase = .busy) (hl : s.regs.latched = some i) :
    SameLive (pixelRule i s).nextPixel (pixelRule i (s.withRegs q)).nextPixel := by
  have hlq : (s.withRegs q).regs.latched = some i := (latched_of_sameLive (h hp)).trans hl
  obtain ⟨_, _, _, hpix, _, _⟩ := h hp
  rw [pixelRule_latched hl, pixelRule_latched hlq, State.withRegs_regs, hpix]
  exact ⟨rfl, fun _ => sameLive_pixel (h hp) _⟩

theorem advance_liveRegs {i : Instr} (hp : s.phase = .busy) (hl : s.regs.latched = some i) :
    SameOutcome (advance (pixelRule i) s) (advance (pixelRule i) (s.withRegs q)) := by
  obtain ⟨_, _, hn, hpix, _, _⟩ := h hp
  rw [advance, advance, State.withRegs_regs, hn, hpix]
  split
  · exact pixel_liveRegs h hp hl
  · split
    · exact SameLive.refl _
    · rfl

theorem exec_liveRegs (i : Instr) : SameOutcome (exec i s) (exec i (s.withRegs q)) := by
  cases hp : s.phase with
  | idle =>
    have hpq : (s.withRegs q).phase = .idle := hp
    cases hb : breach s.owned i with
    | some f => rw [exec_idle_breach hp hb, exec_idle_breach hpq hb]; rfl
    | none => rw [exec_idle hp hb, exec_idle hpq hb]; exact SameLive.refl _
  | busy =>
    have hpq : (s.withRegs q).phase = .busy := hp
    have hlq : (s.withRegs q).regs.latched = s.regs.latched := latched_of_sameLive (h hp)
    by_cases hl : s.regs.latched = some i
    · cases hb : breach s.owned i with
      | some f => rw [exec_busy_breach hp hl hb, exec_busy_breach hpq (hlq.trans hl) hb]; rfl
      | none => rw [exec_busy hp hl hb, exec_busy hpq (hlq.trans hl) hb]; exact advance_liveRegs h hp hl
    · rw [exec_busy_held hp hl, exec_busy_held hpq (hlq.trans_ne hl)]
      exact sameLive_of_liveRegs h

theorem idleStep_liveRegs (hp : s.phase = .idle) : SameOutcome (idleStep s) (idleStep (s.withRegs q)) := by
  rw [idleStep, idleStep, State.withRegs_cmd]
  split
  · exact sameLive_of_liveRegs h
  · split
    · rfl
    · next i _ =>
      have hbusy : LiveRegs s.takePacket q := fun hb => absurd (hp.symm.trans hb) (by decide)
      exact exec_liveRegs hbusy i

theorem busyStep_liveRegs (hp : s.phase = .busy) : SameOutcome (busyStep s) (busyStep (s.withRegs q)) := by
  obtain ⟨_, _, hn, hpix, _, _⟩ := h hp
  rw [busyStep, busyStep, State.withRegs_regs, latched_of_sameLive (h hp), hn, hpix]
  split
  · exact exec_liveRegs h _
  · split
    · exact SameLive.refl _
    · rfl

theorem blockStep_liveRegs : SameOutcome (blockStep s) (blockStep (s.withRegs q)) := by
  cases hp : s.phase with
  | idle => rw [blockStep, blockStep, State.withRegs_phase, hp]; exact idleStep_liveRegs h hp
  | busy => rw [blockStep, blockStep, State.withRegs_phase, hp]; exact busyStep_liveRegs h hp

/-! ## The inputs and the step -/

theorem agentRead_liveRegs (who : Agent) (addr : Word) :
    SameOutcome (agentRead who addr s) (agentRead who addr (s.withRegs q)) := by
  unfold agentRead
  rw [intrudes_liveRegs h, show releasedAt (s.withRegs q) = releasedAt s from rfl]
  split
  · rfl
  · split
    · rfl
    · cases who <;> exact ⟨rfl, h⟩

theorem agentWrite_liveRegs (who : Agent) (addr : Word) (v : Byte) :
    SameOutcome (agentWrite who addr v s) (agentWrite who addr v (s.withRegs q)) := by
  rw [agentWrite, agentWrite, intrudes_liveRegs h, show releasedAt (s.withRegs q) = releasedAt s from rfl]
  split
  · rfl
  · split
    · rfl
    · exact ⟨rfl, h⟩

theorem obtainRegion_liveRegs (base : Word) (size : Nat) :
    SameOutcome (obtainRegion base size s) (obtainRegion base size (s.withRegs q)) := by
  rw [obtainRegion, obtainRegion, State.withRegs_owned]
  split
  · exact ⟨rfl, h⟩
  · rfl

theorem freeRegion_liveRegs (base : Word) (size : Nat) :
    SameOutcome (freeRegion base size s) (freeRegion base size (s.withRegs q)) := by
  have hb : standingBreach { s.withRegs q with owned := s.owned.erase ⟨base.toNat, size⟩ } =
      standingBreach { s with owned := s.owned.erase ⟨base.toNat, size⟩ } :=
    standingBreach_liveRegs (s := { s with owned := _ }) h
  rw [freeRegion, freeRegion, State.withRegs_owned, hb]
  split
  · split
    · rfl
    · exact ⟨rfl, h⟩
  · rfl

theorem presentPacket_liveRegs (p : Packet) :
    SameOutcome (presentPacket p s) (presentPacket p (s.withRegs q)) := by
  have hb : heldBreach { s.withRegs q with cmd := some p } = heldBreach { s with cmd := some p } := rfl
  rw [presentPacket, presentPacket, hb]
  split
  · rfl
  · exact ⟨rfl, h⟩

theorem inputStep_liveRegs (e : Input) (rest : List Input) :
    SameOutcome (inputStep e rest s) (inputStep e rest (s.withRegs q)) := by
  have hrest : LiveRegs { s with env := rest } q := h
  cases e with
  | block => exact blockStep_liveRegs hrest
  | present p =>
    rw [inputStep, inputStep, State.withRegs_cmd]
    split
    · exact presentPacket_liveRegs hrest p
    · exact blockStep_liveRegs h
  | reset => exact ⟨rfl, h⟩
  | readStatus => exact ⟨rfl, h⟩
  | read who addr => exact agentRead_liveRegs hrest who addr
  | write who addr v => exact agentWrite_liveRegs hrest who addr v
  | allocated base size => exact obtainRegion_liveRegs hrest base size
  | deallocate base size => exact freeRegion_liveRegs hrest base size

theorem step_liveRegs : SameOutcome (step s) (step (s.withRegs q)) := by
  cases hr : s.rst with
  | true =>
    have hrq : (s.withRegs q).rst = true := hr
    rw [step_reset hr, step_reset hrq, resetStep_liveRegs h]
    exact SameLive.refl _
  | false =>
    have hrq : (s.withRegs q).rst = false := hr
    cases he : s.env with
    | nil =>
      have heq : (s.withRegs q).env = [] := he
      rw [step_block hr he, step_block hrq heq]
      exact blockStep_liveRegs h
    | cons e rest =>
      have heq : (s.withRegs q).env = e :: rest := he
      rw [step_input hr he, step_input hrq heq]
      exact inputStep_liveRegs h e rest

end

/-- Settles O42: steps side by side give the same outcome up to dead registers. -/
theorem deadRegistersUnobservable : Obligations.DeadRegistersUnobservable := by
  intro s t h
  obtain ⟨ht, hlive⟩ := h
  rw [ht]
  exact step_liveRegs hlive

end Sys2Proof.Machine
end

section
/-! PROOF. What one step of the block does on behalf of a command, what it leaves unchanged, whole commands, and what the state
holds (10_state.md R17, R19, R25, R27 to R29, R31, R32). -/

namespace Sys2Proof.Machine

/-! ## Which command a step runs -/

theorem blockStep_idle {s : State} {p : Packet} {i : Instr} (hp : s.phase = .idle) (hc : s.cmd = some p)
    (hd : decode p = .ok i) : blockStep s = exec i s.takePacket := by
  simp only [blockStep, hp, idleStep, hc, hd]

theorem blockStep_busy {s : State} {i : Instr} (hp : s.phase = .busy) (hl : s.regs.latched = some i) :
    blockStep s = exec i s := by
  simp only [blockStep, hp, busyStep, hl]

theorem step_input_block {s : State} {rest : List Input} (hr : s.rst = false) (he : s.env = .block :: rest) :
    step s = blockStep { s with env := rest } := step_input hr he

/-- Settles O6: the step is the block's, and the block's is `exec` of the held or the latched command. -/
theorem stepRunsDecoded : Obligations.StepRunsDecoded := by
  refine ⟨?_, ?_, ?_, ?_⟩
  · intro s p i hp hr he hc hd
    rw [step_block hr he, blockStep_idle hp hc hd]; rfl
  · intro s i hp hr he hl
    rw [step_block hr he, blockStep_busy hp hl]
  · intro s rest p i hp hr he hc hd
    rw [step_input_block hr he, blockStep_idle (s := { s with env := rest }) hp hc hd]; rfl
  · intro s rest i hp hr he hl
    rw [step_input_block hr he, blockStep_busy (s := { s with env := rest }) hp hl]

/-- The step of an offered command accepts it (R27). -/
theorem step_offered {s : State} {i : Instr} (h : Offered s i) : step s = .next (s.takePacket.accept i) := by
  obtain ⟨hp, hr, he, hc, hb⟩ := h
  rw [step_block hr he, blockStep_idle hp hc (decode_encode i), exec_idle (s := s.takePacket) hp hb]

/-- The command accepted runs (R27). -/
theorem running_accept {s : State} {i : Instr} (h : breach s.owned i = none) : Running (s.accept i) i :=
  ⟨rfl, latched_latch _ _, h⟩

/-! ## What exec does to a running command -/

theorem exec_pixel {s : State} {i : Instr} (h : Running s i) (hlt : s.regs.pix < s.regs.n) :
    exec i s = .next (pixelRule i s).nextPixel := by
  obtain ⟨hp, hl, hb⟩ := h
  rw [exec_busy hp hl hb, advance, if_pos hlt]

theorem exec_complete {s : State} {i : Instr} (h : Running s i) (hn : s.regs.pix = s.regs.n) :
    exec i s = .next s.complete := by
  have hlt : ¬s.regs.pix < s.regs.n := by rw [hn]; exact BitVec.lt_irrefl _
  obtain ⟨hp, hl, hb⟩ := h
  rw [exec_busy hp hl hb, advance, if_neg hlt, if_pos hn]

theorem step_running {s : State} {i : Instr} (h : Running s i) (hr : s.rst = false) (he : s.env = []) :
    step s = exec i s := by
  obtain ⟨hp, hl, _⟩ := h
  rw [step_block hr he, blockStep_busy hp hl]

/-- Settles O14: acceptance, a held command, a pixel step and completion each keep the frame. -/
theorem execFrame : Obligations.ExecFrame := by
  intro i s t h
  rcases exec_cases h with ⟨hp, _, rfl⟩ | ⟨_, _, rfl⟩ | ⟨hp, hl, _, _, rfl⟩ | ⟨hp, _, _, _, rfl⟩
  · exact ⟨rfl, rfl, rfl, rfl, rfl, rfl, fun _ => rfl, fun _ _ => rfl, fun hb _ => by cases hp.symm.trans hb⟩
  · exact ⟨rfl, rfl, rfl, rfl, rfl, rfl, fun _ => rfl, fun _ _ => rfl, fun _ _ => ⟨rfl, rfl⟩⟩
  · have hmem : ∀ a, (pixelSpan i s.regs.pix.toNat).has a = false →
        readByte (pixelRule i s).nextPixel.mem a = readByte s.mem a := fun _ ha => readByte_pixelRule_outside hl ha
    obtain ⟨snap, mem, he⟩ := pixelRule_eq i s
    rw [he] at hmem ⊢
    exact ⟨rfl, rfl, rfl, rfl, rfl, rfl, fun hb => (by cases hp.symm.trans hb), hmem, fun _ _ => ⟨rfl, rfl⟩⟩
  · exact ⟨rfl, rfl, rfl, rfl, rfl, rfl, fun _ => rfl, fun _ _ => rfl, fun _ hb => by cases hb⟩

/-- What exec does for a running command changes no byte outside its write footprint (R19). -/
theorem readByte_exec_outside {s t : State} {i : Instr} (hi : Running s i) (h : exec i s = .next t) {a : Nat}
    (ha : (writeSpan i).has a = false) : readByte t.mem a = readByte s.mem a := by
  obtain ⟨hp, hl, _⟩ := hi
  rcases exec_cases h with ⟨hp', _⟩ | ⟨_, hl', _⟩ | ⟨_, _, _, hlt, rfl⟩ | ⟨_, _, _, _, rfl⟩
  · cases hp.symm.trans hp'
  · exact absurd hl hl'
  · refine readByte_pixelRule_outside hl (Bool.eq_false_of_not_eq_true fun hin => ?_)
    exact absurd (pixelSpan_sub i _ a (latched_n hl ▸ hlt) hin) (by rw [ha]; decide)
  · rfl

/-- Settles O15: a pixel writes inside the write footprint, and what it loads and writes depends on what it reads. -/
theorem blockKeepsToFootprint : Obligations.BlockKeepsToFootprint := by
  constructor
  · intro i s t hi hr he h a ha
    rw [step_running hi hr he] at h
    exact readByte_exec_outside hi h ha
  · intro i s mem' t t' hi hlt hmem h h'
    have hl : s.regs.latched = some i := hi.latched_eq
    rw [exec_pixel hi hlt, pixelRule_latched hl] at h
    rw [exec_pixel (s := { s with mem := mem' }) hi hlt, pixelRule_latched (s := { s with mem := mem' }) hl] at h'
    cases h
    cases h'
    have hreads : ∀ a, (pixelReads i s.regs.pix.toNat).has a = true → readByte mem' a = readByte s.mem a :=
      fun a ha => hmem a (pixelReads_sub i _ a (latched_n hl ▸ hlt) ha)
    refine ⟨?_, fun a ha => readByte_pixelMem_congr hreads ha⟩
    simp only [State.nextPixel, State.pixelDone, pixelSnap_congr hreads]

/-! ## A packet held, STATUS, reset values -/

theorem heldBreach_present {s : State} {p : Packet} (h : ∀ i, decode p = .ok i → breach s.owned i = none) :
    heldBreach { s with cmd := some p } = none := by
  refine heldBreach_eq_none.2 fun i hi => h i ?_
  rw [heldCmd_some rfl] at hi
  cases hd : decode p with
  | error e => rw [hd] at hi; cases hi
  | ok j => rw [hd] at hi; cases hi; rfl

/-- From `BUSY`, without a reset, a held packet stays held whatever happens (R17). -/
theorem cmd_effect_busy {s t : State} {p : Packet} (h : StepEffect s t) (hp : s.phase = .busy) (hr : s.rst = false)
    (hc : s.cmd = some p) : t.cmd = some p := by
  cases h with
  | reset hr' => cases hr.symm.trans hr'
  | accept rest q i hr hp' => cases hp.symm.trans hp'
  | pixel rest i =>
    obtain ⟨snap, mem, he⟩ := pixelRule_eq i { s with env := rest }
    rw [he]; exact hc
  | present rest q hr hc' => cases hc.symm.trans hc'
  | _ => exact hc

/-- Settles O19: presentation stores the packet, no effect on a `BUSY` block takes it, and acceptance does. -/
theorem packetHeldWhileBusy : Obligations.PacketHeldWhileBusy := by
  refine ⟨?_, ?_, ?_⟩
  · intro s p rest _ hr hc he hb
    have hheld : heldBreach { s with env := rest, cmd := some p } = none :=
      heldBreach_present (s := { s with env := rest }) hb
    rw [step_input hr he]
    simp only [inputStep, hc, presentPacket, hheld]
  · intro s t p hp hr hc h
    exact cmd_effect_busy (stepEffect_of_step h) hp hr hc
  · intro s i h
    exact ⟨_, step_offered h, rfl, rfl, latched_latch _ _⟩

/-- Settles O23: `STATUS` is one of two constants, by the phase. -/
theorem statusRegister : Obligations.StatusRegister := by
  refine ⟨fun s => ?_, fun s rest hr he => step_input hr he, rfl⟩
  cases hp : s.phase with
  | idle => rw [status_idle s hp]; decide
  | busy => rw [status_busy s hp]; decide

/-- Settles O25: the fields of the reset state. -/
theorem resetValues : Obligations.ResetValues := ⟨rfl, rfl, rfl, rfl, rfl⟩

/-! ## Whole commands -/

/-- Memory after the first k pixels of a command. -/
def pixelsMem (i : Instr) (mem : List Host.Cell) : Nat → List Host.Cell
  | 0 => mem
  | k + 1 => pixelMem i (pixelsMem i mem k) k

theorem run_succ {M : Host.Core} {k : Nat} {s t : M.State} (h : M.step s = .next t) : M.run (k + 1) s = M.run k t := by
  rw [Host.Core.run, h]

theorem runSteps_succ {k : Nat} {s t : State} (h : step s = .next t) : runSteps (k + 1) s = runSteps k t :=
  run_succ (M := Sys2Proof.core) h

/-- A running command left alone with k pixels to go takes k pixel steps and completes (R28, R29). -/
theorem runSteps_running {i : Instr} {mem : List Host.Cell} {k : Nat} {s : State} (hi : Running s i)
    (hr : s.rst = false) (he : s.env = []) (hk : s.regs.pix.toNat + k = s.regs.n.toNat)
    (hmem : s.mem = pixelsMem i mem s.regs.pix.toNat) :
    runSteps (k + 1) s = .next { s with mem := pixelsMem i mem s.regs.n.toNat }.complete := by
  induction k generalizing s with
  | zero =>
    have hn : s.regs.pix = s.regs.n := BitVec.eq_of_toNat_eq hk
    rw [runSteps_succ ((step_running hi hr he).trans (exec_complete hi hn)), ← hn, ← hmem]
    rfl
  | succ k ih =>
    have hlt : s.regs.pix < s.regs.n := by change s.regs.pix.toNat < s.regs.n.toNat; omega
    have hsucc := pix_succ hlt
    have hstep := (step_running hi hr he).trans (exec_pixel hi hlt)
    rw [pixelRule_latched hi.latched_eq] at hstep
    rw [runSteps_succ hstep]
    refine ih hi hr he ?_ ?_
    · change (s.regs.pix + 1#32).toNat + k = s.regs.n.toNat
      omega
    · change pixelMem i s.mem s.regs.pix.toNat = pixelsMem i mem (s.regs.pix + 1#32).toNat
      rw [hsucc, hmem]; rfl

/-- An offered command left alone: acceptance, its pixels, completion (R31). -/
theorem runSteps_offered {s : State} {i : Instr} (h : Offered s i) :
    runSteps ((npixOf i).toNat + 2) s =
      .next { s.takePacket.accept i with mem := pixelsMem i s.mem (npixOf i).toNat }.complete := by
  have haccept := step_offered h
  obtain ⟨_, hr, he, _, hb⟩ := h
  have hi : Running (s.takePacket.accept i) i := running_accept hb
  have hn : npixOf i = (s.takePacket.accept i).regs.n := latched_n hi.latched_eq
  have hpix : (s.takePacket.accept i).regs.pix.toNat = 0 := by rw [State.accept_regs, latch_pix]; rfl
  rw [runSteps_succ haccept, hn]
  exact runSteps_running hi hr he (by omega) (by rw [hpix]; rfl)

/-- Settles O10: at `PIX = N` exec completes, and with N = 0 completion follows acceptance. -/
theorem completionEmitsDone : Obligations.CompletionEmitsDone := by
  constructor
  · intro i s hi hn
    exact ⟨_, exec_complete hi hn, rfl, rfl, rfl, rfl, rfl, rfl, rfl, rfl, rfl⟩
  · intro i s h hn
    have hrun := runSteps_offered h
    rw [hn] at hrun
    exact ⟨_, hrun, rfl, rfl, rfl, rfl⟩

/-- No byte of two different pixels of a command is the same. -/
theorem pixelSpan_disjoint (i : Instr) {p q a : Nat} (hpq : p ≠ q) (hp : (pixelSpan i p).has a = true) :
    (pixelSpan i q).has a = false := by
  rw [span_has_not]
  rw [span_has] at hp
  cases i <;> simp only [pixelSpan, ea8, ea32] at * <;> omega

/-- Under a kept contract what a pixel reads is written by no other pixel: the in-place commands read what they write, and the
buffers of TORGBFROMXYZ share no byte (R56). -/
theorem pixelReads_disjoint {owned : List Region} {i : Instr} {p q a : Nat} (hb : breach owned i = none)
    (hp : p < (npixOf i).toNat) (hq : q < (npixOf i).toNat) (hpq : p ≠ q) (ha : (pixelReads i p).has a = true) :
    (pixelSpan i q).has a = false := by
  cases i with
  | toycbcr buf npix => exact pixelSpan_disjoint (.toycbcr buf npix) hpq ha
  | toxyz buf npix m => exact pixelSpan_disjoint (.toxyz buf npix m) hpq ha
  | torgbfromxyz inp out npix =>
    refine Bool.eq_false_of_not_eq_true fun hw => ?_
    have hread := span_has.1 (pixelReads_sub _ p a hp ha)
    have hwrite := span_has.1 (pixelSpan_sub _ q a hq hw)
    have hmeets := meets_of_breach_torgbfromxyz hb
    simp only [Span.meets, Bool.and_eq_false_iff, bne_eq_false_iff_eq, decide_eq_false_iff_not] at hmeets
    omega

/-- A byte that none of the first k pixels writes is as it was. -/
theorem readByte_pixelsMem_outside {i : Instr} {mem : List Host.Cell} {k a : Nat}
    (h : ∀ p < k, (pixelSpan i p).has a = false) : readByte (pixelsMem i mem k) a = readByte mem a := by
  induction k with
  | zero => rfl
  | succ k ih =>
    exact (readByte_pixelStore_outside i _ k _ (h k (Nat.lt_succ_self k))).trans
      (ih fun p hp => h p (Nat.lt_succ_of_lt hp))

/-- After k pixels every one of them holds what it computes from the initial memory (R152). -/
theorem readByte_pixelsMem_inside {owned : List Region} {i : Instr} (hb : breach owned i = none)
    {mem : List Host.Cell} {k p a : Nat} (hk : k ≤ (npixOf i).toNat) (hp : p < k)
    (ha : (pixelSpan i p).has a = true) : readByte (pixelsMem i mem k) a = readByte (pixelMem i mem p) a := by
  induction k with
  | zero => omega
  | succ k ih =>
    by_cases hpk : p = k
    · subst hpk
      refine readByte_pixelMem_congr (fun x hx => readByte_pixelsMem_outside fun q hq => ?_) ha
      exact pixelReads_disjoint hb (by omega) (by omega) (by omega) hx
    · rw [pixelsMem, pixelMem, readByte_pixelStore_outside i _ k _ (pixelSpan_disjoint i hpk ha)]
      exact ih (by omega) (by omega)

/-- A byte outside the write footprint is as it was after all pixels. -/
theorem readByte_pixelsMem_frame (i : Instr) (mem : List Host.Cell) {a : Nat} (ha : (writeSpan i).has a = false) :
    readByte (pixelsMem i mem (npixOf i).toNat) a = readByte mem a := by
  refine readByte_pixelsMem_outside fun p hp => Bool.eq_false_of_not_eq_true fun hin => ?_
  exact absurd (pixelSpan_sub i p a hp hin) (by rw [ha]; decide)

/-- What every offered command does, left alone: all but the contents of the pixels. -/
theorem whole_command {s : State} {i : Instr} (h : Offered s i) :
    ∃ t, runSteps ((npixOf i).toNat + 2) s = .next t ∧ t.mem = pixelsMem i s.mem (npixOf i).toNat ∧
      t.phase = .idle ∧ t.cmd = none ∧ t.replies = .done :: s.replies ∧ t.owned = s.owned ∧
      t.released = s.released ∧ t.presented = s.presented ∧ (s.presented = s.doneCount + 1 → t.final = true) := by
  refine ⟨_, runSteps_offered h, rfl, rfl, rfl, rfl, rfl, rfl, rfl, fun howed => ?_⟩
  obtain ⟨_, hr, he, _, _⟩ := h
  simp only [State.final, Bool.and_eq_true, beq_iff_eq]
  exact ⟨⟨⟨⟨rfl, rfl⟩, by simpa using hr⟩, by simpa using he⟩, howed.trans (doneCount_cons_done rfl).symm⟩

/-- A memory that agrees with a byte pixel's stores on the pixel holds the three bytes stored. -/
theorem channels_of_storePixel8 {m mem : List Host.Cell} {b p : Nat} {o : Out8}
    (h : ∀ a, Span.has ⟨ea8 b p 0, 3⟩ a = true → readByte m a = readByte (storePixel8 mem b p o) a) :
    readByte m (ea8 b p 0) = o.c0 ∧ readByte m (ea8 b p 1) = o.c1 ∧ readByte m (ea8 b p 2) = o.c2 := by
  have hc : ∀ c < 3, readByte m (ea8 b p c) = readByte (storePixel8 mem b p o) (ea8 b p c) := fun c hc =>
    h _ (span_has.2 (by simp only [ea8]; omega))
  rw [hc 0 (by decide), hc 1 (by decide), hc 2 (by decide)]
  simp [readByte_storePixel8, ea8]

/-- A memory that agrees with a float pixel's stores on the pixel holds the three elements stored. -/
theorem elements_of_storePixel32 {m mem : List Host.Cell} {b p : Nat} {o : Out32}
    (h : ∀ a, Span.has ⟨ea32 b p 0, 12⟩ a = true → readByte m a = readByte (storePixel32 mem b p o) a) :
    read32 m (ea32 b p 0) = o.c0 ∧ read32 m (ea32 b p 1) = o.c1 ∧ read32 m (ea32 b p 2) = o.c2 := by
  have hc : ∀ c < 3, read32 m (ea32 b p c) = read32 (storePixel32 mem b p o) (ea32 b p c) := fun c hc =>
    read32_congr fun k hk => h _ (span_has.2 (by simp only [ea32]; omega))
  rw [hc 0 (by decide), hc 1 (by decide), hc 2 (by decide)]
  exact read32_storePixel32 mem b p o

/-- Settles O39: the run of an offered command, the bytes of a byte pixel, and the frame. -/
theorem toycbcrWholeCommand : Obligations.ToycbcrWholeCommand := by
  intro buf npix s h
  obtain ⟨t, hrun, hmem, hp, hc, hrep, ho, hrel, hpres, hfin⟩ := whole_command h
  obtain ⟨_, _, _, _, hb⟩ := h
  refine ⟨t, hrun, hp, hc, hrep, ho, hrel, hpres, hfin, ?_, ?_⟩ <;> rw [hmem]
  · exact fun p hlt => channels_of_storePixel8 fun a ha => readByte_pixelsMem_inside hb le_rfl hlt ha
  · exact fun a ha => readByte_pixelsMem_frame (.toycbcr buf npix) s.mem (span_has_not.2 ha)

/-- Settles O40: the run of an offered command, the elements of a float pixel, and the frame. -/
theorem toxyzWholeCommand : Obligations.ToxyzWholeCommand := by
  intro buf npix m s h
  obtain ⟨t, hrun, hmem, hp, hc, hrep, ho, hrel, hpres, hfin⟩ := whole_command h
  obtain ⟨_, _, _, _, hb⟩ := h
  refine ⟨t, hrun, hp, hc, hrep, ho, hrel, hpres, hfin, ?_, ?_⟩ <;> rw [hmem]
  · exact fun p hlt => elements_of_storePixel32 fun a ha => readByte_pixelsMem_inside hb le_rfl hlt ha
  · exact fun a ha => readByte_pixelsMem_frame (.toxyz buf npix m) s.mem (span_has_not.2 ha)

/-- Settles O41: the run of an offered command, the bytes of a byte pixel of the output buffer, and the frame. -/
theorem torgbfromxyzWholeCommand : Obligations.TorgbfromxyzWholeCommand := by
  intro inp out npix s h
  obtain ⟨t, hrun, hmem, hp, hc, hrep, ho, hrel, hpres, hfin⟩ := whole_command h
  obtain ⟨_, _, _, _, hb⟩ := h
  refine ⟨t, hrun, hp, hc, hrep, ho, hrel, hpres, hfin, ?_, ?_⟩ <;> rw [hmem]
  · exact fun p hlt => channels_of_storePixel8 fun a ha => readByte_pixelsMem_inside hb le_rfl hlt ha
  · exact fun a ha => readByte_pixelsMem_frame (.torgbfromxyz inp out npix) s.mem (span_has_not.2 ha)

end Sys2Proof.Machine
end

section
/-! PROOF. Memory and its rules: the byte order of an element, the caller's contract clause by clause, what another agent may
touch, and the regions of the host (20_memory.md R36 to R56; 60_exceptions.md R121, R131). -/

namespace Sys2Proof.Machine

/-! ## Elements and the latched command -/

/-- Settles O17: each byte is the last one written at its address, and the four of them join to the word. -/
theorem elementIsLittleEndian : Obligations.ElementIsLittleEndian := by
  intro mem a v
  refine ⟨?_, ?_, ?_, ?_, rfl, read32_write32_same mem a v⟩ <;> simp [readByte_write32]

/-- Settles O20: acceptance, completion and reset do not lead from `BUSY` to `BUSY`, a pixel step writes the snapshot and `PIX`
alone, and no other effect writes a register. -/
theorem latchedCommandUnalterable : Obligations.LatchedCommandUnalterable := by
  intro s t h hs ht
  cases stepEffect_of_step h with
  | accept rest p i hr hp => cases hs.symm.trans hp
  | complete => cases ht
  | reset => cases ht
  | pixel rest i =>
    obtain ⟨snap, mem, he⟩ := pixelRule_eq i { s with env := rest }
    rw [he]
    exact ⟨rfl, rfl, rfl, rfl, rfl⟩
  | _ => exact ⟨rfl, rfl, rfl, rfl, rfl⟩

/-! ## The contract, clause by clause -/

/-- Two spans meet exactly when they have an address in common. -/
theorem meets_iff {p q : Span} : p.meets q = true ↔ ∃ a, p.has a = true ∧ q.has a = true := by
  simp only [Span.meets, Bool.and_eq_true, bne_iff_ne, decide_eq_true_eq, span_has]
  constructor
  · intro h
    exact ⟨max p.base q.base, by omega, by omega⟩
  · rintro ⟨a, hp, hq⟩
    omega

theorem meets_eq_false_iff {p q : Span} : p.meets q = false ↔ ∀ a, p.has a = true → ¬q.has a = true := by
  rw [← Bool.not_eq_true, meets_iff, not_exists]
  simp only [not_and]

/-- A non-empty interval past 2^32, or inside no one owned region, is not covered (R40). -/
theorem covered_eq_false {owned : List Region} {p : Span} (hl : p.len ≠ 0)
    (h : 2 ^ 32 < p.base + p.len ∨ ∀ r ∈ owned, ¬(r.base ≤ p.base ∧ p.base + p.len ≤ r.base + r.size)) :
    covered owned p = false := by
  refine Bool.eq_false_of_not_eq_true fun hc => ?_
  simp only [covered, Bool.or_eq_true, beq_iff_eq, hl, false_or, Bool.and_eq_true, decide_eq_true_eq,
    List.any_eq_true] at hc
  obtain ⟨hbound, r, hr, hin⟩ := hc
  rcases h with h | h
  · omega
  · exact h r hr hin

/-- Alignment asks for a multiple of 4 where N > 0, and nothing else (R41). -/
theorem aligned_iff {base npix : Word} : aligned base npix = true ↔ npix = 0#32 ∨ base.toNat % 4 = 0 := by
  have hlow : base.extractLsb' 0 2 = 0#2 ↔ base.toNat % 4 = 0 := by simp [← BitVec.toNat_inj]
  simp [aligned, hlow]

/-- A footprint not covered is `BufferRange`, before every other violation (R40; log entry 10). -/
theorem breach_of_not_covered {owned : List Region} {i : Instr} {p : Span} (hp : p = readSpan i ∨ p = writeSpan i)
    (hc : covered owned p = false) : breach owned i = some .bufferRange := by
  rcases hp with rfl | rfl
  · cases i <;> simp [breach, hc]
  · cases i with
    | toycbcr buf npix => exact if_neg (ne_true_of_eq_false hc)
    | toxyz buf npix m => exact if_pos (by rw [Bool.not_eq_true']; exact hc)
    | torgbfromxyz inp out npix => simp [breach, hc]

theorem breach_toycbcr_of_covered {owned : List Region} {buf npix : Word}
    (hc : covered owned (readSpan (.toycbcr buf npix)) = true) : breach owned (.toycbcr buf npix) = none := by
  simp [breach, hc]

/-- With its range kept, TOXYZ can only be misaligned (R41, R42). -/
theorem breach_toxyz_of_covered {owned : List Region} {buf npix : Word} {m : Coeffs}
    (hc : covered owned (readSpan (.toxyz buf npix m)) = true) :
    breach owned (.toxyz buf npix m) = if aligned buf npix then none else some .misaligned := by
  cases ha : aligned buf npix <;> simp [breach, hc, ha]

/-- With its ranges kept, TORGBFROMXYZ can be misaligned, and if it is not, have overlapping buffers (R41, R42, R56). -/
theorem breach_torgbfromxyz_of_covered {owned : List Region} {inp out npix : Word}
    (hr : covered owned (readSpan (.torgbfromxyz inp out npix)) = true)
    (hw : covered owned (writeSpan (.torgbfromxyz inp out npix)) = true) :
    breach owned (.torgbfromxyz inp out npix) =
      if aligned inp npix then
        if (readSpan (.torgbfromxyz inp out npix)).meets (writeSpan (.torgbfromxyz inp out npix)) then some .overlap
        else none
      else some .misaligned := by
  cases ha : aligned inp npix <;> simp [breach, hr, hw, ha]

/-! ## Acceptance and presentation under the contract -/

/-- An `IDLE` block accepts exactly the commands that keep their contract (R27, R121). -/
theorem exec_idle_next_iff {i : Instr} {s : State} (hp : s.phase = .idle) :
    (∃ t, exec i s = .next t) ↔ breach s.owned i = none := by
  cases hb : breach s.owned i with
  | none => simp [exec_idle hp hb]
  | some f => simp [exec_idle_breach hp hb]

/-- Settles O29: with the range kept and the buffers disjoint, alignment is all that is left of the contract. -/
theorem alignmentRule : Obligations.AlignmentRule := by
  refine ⟨?_, ?_, ?_, fun b i c hb => by simp only [ea32]; omega⟩
  · exact fun buf npix s hp hc => (exec_idle_next_iff hp).2 (breach_toycbcr_of_covered hc)
  · intro buf npix m s hp hc
    rw [exec_idle_next_iff hp, breach_toxyz_of_covered hc, ← aligned_iff]
    simp
  · intro inp out npix s hp hr hw hm
    rw [exec_idle_next_iff hp, breach_torgbfromxyz_of_covered hr hw, hm, ← aligned_iff]
    simp

theorem aligned_eq_false {base npix : Word} (hn : npix ≠ 0#32) (hb : base.toNat % 4 ≠ 0) :
    aligned base npix = false :=
  Bool.eq_false_of_not_eq_true fun h => (aligned_iff.1 h).elim hn hb

/-- A command that faults where its ranges are kept faults in every `IDLE` state: not keeping them is a violation too. -/
theorem exec_idle_fault_of_covered {i : Instr} {s : State} {f : Fault} (hp : s.phase = .idle)
    (h : covered s.owned (readSpan i) = true → covered s.owned (writeSpan i) = true → exec i s = .fault f) :
    ∃ g, exec i s = .fault g := by
  cases hb : breach s.owned i with
  | some g => exact ⟨g, exec_idle_breach hp hb⟩
  | none =>
    obtain ⟨hr, hw⟩ := covered_of_breach hb
    exact ⟨f, h hr hw⟩

/-- Settles O30: with the ranges kept the fault is `Misaligned`, so there is one in every case. -/
theorem misalignedFaults : Obligations.MisalignedFaults := by
  constructor
  · intro buf npix m s hp hn hb
    have hmis : covered s.owned (readSpan (.toxyz buf npix m)) = true →
        exec (.toxyz buf npix m) s = .fault .misaligned := fun hc =>
      exec_idle_breach hp (by simp [breach_toxyz_of_covered hc, aligned_eq_false hn hb])
    exact ⟨exec_idle_fault_of_covered hp fun hr _ => hmis hr, hmis⟩
  · intro inp out npix s hp hn hb
    have hmis : covered s.owned (readSpan (.torgbfromxyz inp out npix)) = true →
        covered s.owned (writeSpan (.torgbfromxyz inp out npix)) = true →
        exec (.torgbfromxyz inp out npix) s = .fault .misaligned := fun hr hw =>
      exec_idle_breach hp (by simp [breach_torgbfromxyz_of_covered hr hw, aligned_eq_false hn hb])
    exact ⟨exec_idle_fault_of_covered hp hmis, hmis⟩

theorem heldCmd_of_decode {s : State} {p : Packet} {i : Instr} (hc : s.cmd = some p) (hd : decode p = .ok i) :
    s.heldCmd = some i := by
  rw [heldCmd_some hc, hd]; rfl

/-- Presenting a packet whose contract is not kept is that packet's violation (R131, R142; log entry 27). -/
theorem step_present_breach {s : State} {i : Instr} {f : Fault} {rest : List Input} (hr : s.rst = false)
    (hc : s.cmd = none) (he : s.env = .present (encode i) :: rest) (hb : breach s.owned i = some f) :
    step s = .fault f := by
  have hheld : heldBreach { s with env := rest, cmd := some (encode i) } = some f := by
    rw [heldBreach, heldCmd_of_decode rfl (decode_encode i)]; exact hb
  rw [step_input hr he]
  simp only [inputStep, hc, presentPacket, hheld]

/-- Settles O31: such a footprint is not covered, which is the contract's first clause, asked at both places. -/
theorem bufferRangeFaults : Obligations.BufferRangeFaults := by
  refine ⟨?_, ?_, fun i s f rest hr hc he hb => step_present_breach hr hc he hb⟩
  · intro i s p hp hspan hl h
    exact exec_idle_breach hp (breach_of_not_covered hspan (covered_eq_false hl h))
  · intro i s p rest hr hc he hspan hl h
    exact step_present_breach hr hc he (breach_of_not_covered hspan (covered_eq_false hl h))

/-- Settles O32: with range and alignment kept, whether the buffers meet is all that is left of the contract. -/
theorem overlapFaults : Obligations.OverlapFaults := by
  refine ⟨fun buf npix m => ⟨rfl, rfl⟩, fun inp out npix s hp hr hw ha => ?_⟩
  have hal : aligned inp npix = true := aligned_iff.2 (.inr ha)
  constructor
  · rintro ⟨a, hi, hi', ho, ho'⟩
    have hm : (readSpan (.torgbfromxyz inp out npix)).meets (writeSpan (.torgbfromxyz inp out npix)) = true :=
      meets_iff.2 ⟨a, span_has.2 ⟨hi, hi'⟩, span_has.2 ⟨ho, ho'⟩⟩
    exact exec_idle_breach hp (by simp [breach_torgbfromxyz_of_covered hr hw, hal, hm])
  · intro hdis
    have hm : (readSpan (.torgbfromxyz inp out npix)).meets (writeSpan (.torgbfromxyz inp out npix)) = false := by
      refine meets_eq_false_iff.2 fun a hin hout => ?_
      obtain ⟨hi, hi'⟩ := span_has.1 hin
      exact hdis a hi hi' (span_has.1 hout)
    exact exec_idle hp (by simp [breach_torgbfromxyz_of_covered hr hw, hal, hm])

/-! ## Reads and writes of another agent -/

@[simp] theorem touches_read (a : Nat) (i : Instr) : touches false a i = (writeSpan i).has a := by
  simp [touches]

@[simp] theorem touches_write (a : Nat) (i : Instr) :
    touches true a i = ((writeSpan i).has a || (readSpan i).has a) := by
  simp [touches]

section

variable {s : State} {who : Agent} {addr : Word} {v : Byte} {rest : List Input}

theorem step_read_intrudes (hr : s.rst = false) (he : s.env = .read who addr :: rest)
    (hi : intrudes s false addr.toNat = true) : step s = .fault .concurrentAccess := by
  rw [step_input hr he]
  exact if_pos hi

theorem step_write_intrudes (hr : s.rst = false) (he : s.env = .write who addr v :: rest)
    (hi : intrudes s true addr.toNat = true) : step s = .fault .concurrentAccess := by
  rw [step_input hr he]
  exact if_pos hi

theorem step_read_released (hr : s.rst = false) (he : s.env = .read who addr :: rest)
    (hi : intrudes s false addr.toNat = false) (hrel : releasedAt s addr.toNat = true) :
    step s = .refused .allocatorMisuse := by
  rw [step_input hr he]
  exact (if_neg (ne_true_of_eq_false hi)).trans (if_pos hrel)

theorem step_write_released (hr : s.rst = false) (he : s.env = .write who addr v :: rest)
    (hi : intrudes s true addr.toNat = false) (hrel : releasedAt s addr.toNat = true) :
    step s = .refused .allocatorMisuse := by
  rw [step_input hr he]
  exact (if_neg (ne_true_of_eq_false hi)).trans (if_pos hrel)

/-- Any other read gives the host the byte, another agent nothing, and changes nothing else (R44, R131). -/
theorem step_read (hr : s.rst = false) (he : s.env = .read who addr :: rest)
    (hi : intrudes s false addr.toNat = false) (hrel : releasedAt s addr.toNat = false) :
    step s = .next { s with
      env := rest,
      replies := if who = .host then .data addr (readByte s.mem addr.toNat) :: s.replies else s.replies } := by
  rw [step_input hr he]
  refine (if_neg (ne_true_of_eq_false hi)).trans ((if_neg (ne_true_of_eq_false hrel)).trans ?_)
  cases who <;> rfl

/-- Any other write stores its byte and changes nothing else (R44, R131). -/
theorem step_write (hr : s.rst = false) (he : s.env = .write who addr v :: rest)
    (hi : intrudes s true addr.toNat = false) (hrel : releasedAt s addr.toNat = false) :
    step s = .next { s with env := rest, mem := writeByte s.mem addr.toNat v } := by
  rw [step_input hr he]
  exact (if_neg (ne_true_of_eq_false hi)).trans (if_neg (ne_true_of_eq_false hrel))

end

/-- Settles O33: what R47 forbids intrudes on the running command; an access that touches neither it nor the held command, nor
a region given back, is ordinary. -/
theorem exclusiveFootprint : Obligations.ExclusiveFootprint := by
  intro i s who addr v rest hr hp hl
  have hrun : s.runningCmd = some i := (runningCmd_busy s hp).trans hl
  have hfree : ∀ w, touches w addr.toNat i = false →
      (∀ j, s.heldCmd = some j → touches w addr.toNat j = false) → intrudes s w addr.toNat = false :=
    fun w hi hj => intrudes_eq_false.2 ⟨fun j h => by cases hrun.symm.trans h; exact hi, hj⟩
  refine ⟨?_, ?_, ?_, ?_⟩
  · intro he hin
    exact step_read_intrudes hr he (intrudes_of_running hrun (by simpa using hin))
  · intro he hout hheld hrel
    exact ⟨_, step_read hr he (hfree false (by simpa using hout) (by simpa using hheld)) hrel, rfl, rfl⟩
  · intro he hin
    exact step_write_intrudes hr he (intrudes_of_running hrun (by simpa using hin))
  · intro he hout hheld hrel
    exact ⟨_, step_write hr he (hfree true (by simpa using hout) (by simpa using hheld)) hrel,
      readByte_writeByte_same _ _ _, rfl, fun a ha => readByte_writeByte_ne _ _ ha⟩

/-! ## The regions of the host -/

/-- A write forbids all that a read does (R47). -/
theorem intrudes_read_of_write {s : State} {a : Nat} (h : intrudes s true a = false) : intrudes s false a = false := by
  simp only [intrudes_eq_false, touches_read, touches_write, Bool.or_eq_false_iff] at h ⊢
  obtain ⟨hrun, hheld⟩ := h
  exact ⟨fun i hi => (hrun i hi).1, fun i hi => (hheld i hi).1⟩

theorem releasedAt_of_mem {s : State} {r : Region} {a : Nat} (hr : r ∈ s.released) (h : r.base ≤ a)
    (h' : a < r.base + r.size) (ho : ∀ q ∈ s.owned, ¬(q.base ≤ a ∧ a < q.base + q.size)) :
    releasedAt s a = true := by
  have hrel : regionsHave s.released a = true := regionsHave_iff.2 ⟨r, hr, h, h'⟩
  have hown : regionsHave s.owned a = false := Bool.eq_false_of_not_eq_true fun hin =>
    (regionsHave_iff.1 hin).elim fun q hq => ho q hq.1 hq.2
  simp [releasedAt, hrel, hown]

section

variable {s : State} {base : Word} {size : Nat} {rest : List Input}

/-- Freeing an owned region that a presented command needs is that command's violation (R53; log entry 27). -/
theorem step_deallocate_breach {f : Fault} (hr : s.rst = false) (he : s.env = .deallocate base size :: rest)
    (hq : ⟨base.toNat, size⟩ ∈ s.owned)
    (hb : standingBreach { s with env := rest, owned := s.owned.erase ⟨base.toNat, size⟩ } = some f) :
    step s = .fault f := by
  rw [step_input hr he]
  simp only [inputStep, freeRegion, List.contains_iff_mem, hq, if_true, hb]

/-- Freeing an owned region that no presented command needs gives it back (R53). -/
theorem step_deallocate (hr : s.rst = false) (he : s.env = .deallocate base size :: rest)
    (hq : ⟨base.toNat, size⟩ ∈ s.owned)
    (hb : standingBreach { s with env := rest, owned := s.owned.erase ⟨base.toNat, size⟩ } = none) :
    step s = .next { s with
      env := rest, owned := s.owned.erase ⟨base.toNat, size⟩, released := ⟨base.toNat, size⟩ :: s.released } := by
  rw [step_input hr he]
  simp only [inputStep, freeRegion, List.contains_iff_mem, hq, if_true, hb]

end

/-- In `IDLE` with nothing of a held packet touched, a byte the host writes is the byte it reads next (R44). -/
theorem host_write_read {s : State} {addr : Word} {v : Byte} {rest : List Input} (hr : s.rst = false)
    (he : s.env = .write .host addr v :: .read .host addr :: rest) (hi : intrudes s true addr.toNat = false)
    (hrel : releasedAt s addr.toNat = false) :
    runSteps 2 s = .next { s with
      env := rest, mem := writeByte s.mem addr.toNat v, replies := .data addr v :: s.replies } := by
  have hread := step_read (s := { s with env := .read .host addr :: rest, mem := writeByte s.mem addr.toNat v }) hr rfl
    (intrudes_read_of_write hi) hrel
  rw [if_pos rfl, readByte_writeByte_same] at hread
  rw [runSteps_succ (step_write hr he hi hrel), runSteps_succ hread]
  rfl

/-- Settles O34: a write and a read of the host in turn, a held packet's footprint, a region given back, and accesses to it. -/
theorem hostReadsWhatItWrote : Obligations.HostReadsWhatItWrote := by
  refine ⟨?_, ?_, ?_, ?_⟩
  · intro s addr v rest hr hp hheld hrel he
    have hi : intrudes s true addr.toNat = false :=
      intrudes_eq_false.2 ⟨by simp [hp], by simpa using hheld⟩
    exact ⟨_, host_write_read hr he hi hrel, rfl, rfl, fun a ha => readByte_writeByte_ne _ _ ha⟩
  · intro s p i who addr v rest hr hc hd
    have hheld : s.heldCmd = some i := heldCmd_of_decode hc hd
    exact ⟨fun he hin => step_read_intrudes hr he (intrudes_of_held hheld (by simpa using hin)),
      fun he hin => step_write_intrudes hr he (intrudes_of_held hheld (by simpa using hin))⟩
  · intro s base size rest hr he hq hb
    refine step_deallocate hr he hq (standingBreach_eq_none.2 ⟨?_, ?_⟩)
    · exact runningBreach_eq_none.2 fun i hi => hb i (.inl hi)
    · exact heldBreach_eq_none.2 fun i hi => hb i (.inr hi)
  · intro s r who addr v rest hr hmem hlo hhi hown
    have hrel : releasedAt s addr.toNat = true := releasedAt_of_mem hmem hlo hhi hown
    exact ⟨fun he hi => step_read_released hr he hi hrel, fun he hi => step_write_released hr he hi hrel⟩

/-- The running command's violation is the standing one; where it has none, the held command's is. -/
theorem standingBreach_of_breach {s : State} {i : Instr} {f : Fault} (hb : breach s.owned i = some f)
    (h : s.runningCmd = some i ∨ (s.heldCmd = some i ∧ ∀ j, s.runningCmd = some j → breach s.owned j = none)) :
    standingBreach s = some f := by
  rcases h with hrun | ⟨hheld, hrun⟩
  · simp [standingBreach, runningBreach, hrun, hb]
  · rw [standingBreach, runningBreach_eq_none.2 hrun]
    simp [heldBreach, hheld, hb]

/-- Settles O35: without the region the footprint is not covered, and that is the standing violation. -/
theorem freeingFootprintFaults : Obligations.FreeingFootprintFaults := by
  intro s i p base size rest hr hcmd he hq hspan hl hno
  have hb : breach (s.owned.erase ⟨base.toNat, size⟩) i = some .bufferRange :=
    breach_of_not_covered hspan (covered_eq_false hl (.inr hno))
  exact step_deallocate_breach hr he hq
    (standingBreach_of_breach (s := { s with env := rest, owned := s.owned.erase ⟨base.toNat, size⟩ }) hb hcmd)

/-- An allocatable region lies in the address space and shares no byte with an owned one (R52). -/
theorem allocatable_iff {owned : List Region} {base size : Nat} :
    allocatable owned base size = true ↔
      base + size ≤ 2 ^ 32 ∧
        ∀ r ∈ owned, ∀ a, base ≤ a → a < base + size → ¬(r.base ≤ a ∧ a < r.base + r.size) := by
  simp only [allocatable, Bool.and_eq_true, decide_eq_true_eq, List.all_eq_true, Bool.not_eq_true',
    meets_eq_false_iff, span_has, and_imp]

/-- Settles O36: the region was allocatable, and its free contents stay inside it. -/
theorem allocationIsExclusive : Obligations.AllocationIsExclusive := by
  intro s t base size rest hr he h
  rw [step_input hr he] at h
  simp only [inputStep, obtainRegion] at h
  split at h
  · next ha =>
    cases h
    obtain ⟨hbound, hdis⟩ := allocatable_iff.1 ha
    exact ⟨rfl, hbound, hdis, fun a ha => readByte_fillFree_outside _ _ _ _ ha, rfl, rfl, rfl, rfl, rfl⟩
  · cases h

end Sys2Proof.Machine
end

section
/-! PROOF. The packet of a command: decoder and encoder as inverses, legality by the table, and what acceptance latches from
each format (30_encoding.md R57 to R66, R72). -/

namespace Sys2Proof.Machine

/-! ## Decoder and encoder -/

/-- The two fields are all of a header (R58). -/
theorem header_ext {w w' : Word} (hm : headerMbz w = headerMbz w') (ho : headerOpc w = headerOpc w') : w = w' := by
  have hm := congrArg BitVec.toNat hm
  have ho := congrArg BitVec.toNat ho
  simp only [headerMbz, headerOpc, BitVec.extractLsb'_toNat] at hm ho
  apply BitVec.eq_of_toNat_eq
  omega

/-- A zero `MBZ` over the opcode of a command is its header (R64). -/
theorem eq_header {w : Word} (i : Instr) (hm : headerMbz w = 0#24) (ho : headerOpc w = i.opcode) : w = i.header := by
  have hi : headerOpc i.header = i.opcode ∧ headerMbz i.header = 0#24 := by
    cases i
    · exact (Laws.Header.toycbcr _ _).2.2
    · exact (Laws.Header.toxyz _ _ _).2.2
    · exact (Laws.Header.torgbfromxyz _ _ _).2.2
  exact header_ext (hm.trans hi.2.symm) (ho.trans hi.1.symm)

theorem decodeU_ok {ws : List Word} {i : Instr} (h : decodeU ws = .ok i) :
    ∃ buf npix, ws = [buf, npix] ∧ i = .toycbcr buf npix := by
  unfold decodeU at h
  split at h
  · cases h; exact ⟨_, _, rfl, rfl⟩
  · cases h

theorem decodeM_ok {ws : List Word} {i : Instr} (h : decodeM ws = .ok i) :
    ∃ buf npix m, ws = [buf, npix, m.m0, m.m1, m.m2, m.m3, m.m4, m.m5, m.m6, m.m7, m.m8] ∧ i = .toxyz buf npix m := by
  unfold decodeM at h
  split at h
  · cases h; exact ⟨_, _, _, rfl, rfl⟩
  · cases h

theorem decodeD_ok {ws : List Word} {i : Instr} (h : decodeD ws = .ok i) :
    ∃ inp out npix, ws = [inp, out, npix] ∧ i = .torgbfromxyz inp out npix := by
  unfold decodeD at h
  split at h
  · cases h; exact ⟨_, _, _, rfl, rfl⟩
  · cases h

/-- What the decoder accepts is the packet of the command it answers (R59 to R61, R64, R65). -/
theorem eq_encode_of_decode {p : Packet} {i : Instr} (h : decode p = .ok i) : p = encode i := by
  cases p with
  | nil => cases h
  | cons w0 ws =>
    simp only [decode] at h
    split at h
    · cases h
    · next hm =>
      have hm := not_not.1 hm
      split at h
      · next ho =>
        obtain ⟨buf, npix, rfl, rfl⟩ := decodeU_ok h
        exact congrArg (· :: _) (eq_header (.toycbcr buf npix) hm ho)
      · split at h
        · next ho =>
          obtain ⟨buf, npix, m, rfl, rfl⟩ := decodeM_ok h
          exact congrArg (· :: _) (eq_header (.toxyz buf npix m) hm ho)
        · split at h
          · next ho =>
            obtain ⟨inp, out, npix, rfl, rfl⟩ := decodeD_ok h
            exact congrArg (· :: _) (eq_header (.torgbfromxyz inp out npix) hm ho)
          · cases h

/-- Settles O1: a packet made by the encoder decodes, and the decoder takes no other. -/
theorem decodeIffEncode : Obligations.DecodeIffEncode :=
  fun _ i => ⟨eq_encode_of_decode, fun h => h ▸ decode_encode i⟩

/-! ## Legal packets -/

theorem legal_cons_iff {w0 : Word} {ws : List Word} :
    Packet.legal (w0 :: ws) = true ↔
      (w0 = 0x00000001#32 ∧ (w0 :: ws).length = 3) ∨ (w0 = 0x00000002#32 ∧ (w0 :: ws).length = 12) ∨
        (w0 = 0x00000003#32 ∧ (w0 :: ws).length = 4) := by
  simp only [Packet.legal, Bool.or_eq_true, Bool.and_eq_true, beq_iff_eq, or_assoc]

theorem legal_encode (i : Instr) : Packet.legal (encode i) = true := by cases i <;> rfl

/-- Header and length determine the format; every value of its operands is some command's (R62, R63, R65). -/
theorem exists_encode_of_legal {p : Packet} (h : Packet.legal p = true) : ∃ i, p = encode i := by
  cases p with
  | nil => cases h
  | cons w0 ws =>
    rcases legal_cons_iff.1 h with ⟨rfl, hl⟩ | ⟨rfl, hl⟩ | ⟨rfl, hl⟩
    · match ws, hl with
      | [buf, npix], _ => exact ⟨.toycbcr buf npix, rfl⟩
    · match ws, hl with
      | [buf, npix, m0, m1, m2, m3, m4, m5, m6, m7, m8], _ =>
        exact ⟨.toxyz buf npix ⟨m0, m1, m2, m3, m4, m5, m6, m7, m8⟩, rfl⟩
    · match ws, hl with
      | [inp, out, npix], _ => exact ⟨.torgbfromxyz inp out npix, rfl⟩

/-- A packet decodes exactly when it is legal (R65). -/
theorem exists_decode_iff_legal {p : Packet} : (∃ i, decode p = .ok i) ↔ Packet.legal p = true := by
  constructor
  · rintro ⟨i, h⟩
    rw [eq_encode_of_decode h]
    exact legal_encode i
  · intro h
    obtain ⟨i, rfl⟩ := exists_encode_of_legal h
    exact ⟨i, decode_encode i⟩

/-- Settles O2: decoding is legality, and legality is the table. -/
theorem legalExactlyByTable : Obligations.LegalExactlyByTable :=
  ⟨fun _ _ => exists_decode_iff_legal.trans legal_cons_iff, fun h => Bool.false_ne_true (exists_decode_iff_legal.1 h)⟩

/-- Settles O3: each worked packet is the encoder's packet of its command. -/
theorem workedPacketsDecode : Obligations.WorkedPacketsDecode :=
  ⟨decode_encode (.toycbcr _ _), decode_encode (.toxyz _ _ ⟨_, _, _, _, _, _, _, _, _⟩),
    decode_encode (.torgbfromxyz _ _ _)⟩

theorem blockStep_illegal {s : State} {p : Packet} {e : Illegal} (hp : s.phase = .idle) (hc : s.cmd = some p)
    (hd : decode p = .error e) : blockStep s = .fault .illegalCommand := by
  simp only [blockStep, hp, idleStep, hc, hd]

/-- Settles O4: an illegal packet does not decode, so the block's step is the violation. -/
theorem illegalPacketFaults : Obligations.IllegalPacketFaults := by
  intro s p hp hr he hc hlegal
  rw [step_block hr he]
  cases hd : decode p with
  | error e => exact blockStep_illegal hp hc hd
  | ok i => cases hlegal.symm.trans (exists_decode_iff_legal.1 ⟨i, hd⟩)

/-! ## Acceptance of each format -/

/-- Settles O7: the packet offers TOYCBCR, and acceptance latches its operands. -/
theorem toycbcrAccepted : Obligations.ToycbcrAccepted := fun _ buf npix hp hr he hc hb =>
  ⟨_, step_offered (i := .toycbcr buf npix) ⟨hp, hr, he, hc, hb⟩,
    rfl, rfl, rfl, rfl, rfl, rfl, rfl, rfl, rfl, rfl, rfl, rfl, rfl⟩

/-- Settles O8: the packet offers TOXYZ, and acceptance latches its operands and its matrix. -/
theorem toxyzAccepted : Obligations.ToxyzAccepted := fun _ buf npix m0 m1 m2 m3 m4 m5 m6 m7 m8 hp hr he hc hb =>
  ⟨_, step_offered (i := .toxyz buf npix ⟨m0, m1, m2, m3, m4, m5, m6, m7, m8⟩) ⟨hp, hr, he, hc, hb⟩,
    rfl, rfl, rfl, rfl, rfl, rfl, rfl, rfl, rfl, rfl, rfl, rfl, rfl, rfl⟩

/-- Settles O9: the packet offers TORGBFROMXYZ, and acceptance latches its operands. -/
theorem torgbfromxyzAccepted : Obligations.TorgbfromxyzAccepted := fun _ inp out npix hp hr he hc hb =>
  ⟨_, step_offered (i := .torgbfromxyz inp out npix) ⟨hp, hr, he, hc, hb⟩,
    rfl, rfl, rfl, rfl, rfl, rfl, rfl, rfl, rfl, rfl, rfl, rfl, rfl, rfl⟩

end Sys2Proof.Machine
end

section
/-! PROOF. The text of a command read back: digits, operands, the pieces of a line, the line (30_encoding.md R69 to R72). -/

namespace Sys2Proof.Machine

/-! ## Digits -/

theorem hexDigit_hexChar {d : Nat} (h : d < 16) : hexDigit (hexChar d) = some d := by
  have hall : ∀ d : Fin 16, hexDigit (hexChar d) = some d.val := by decide
  exact hall ⟨d, h⟩

theorem length_hexDigits (n v : Nat) : (hexDigits n v).length = n := by
  induction n generalizing v with
  | zero => rfl
  | succ n ih => rw [hexDigits, List.length_append, ih, List.length_singleton]

/-- A digit read after others is one more place. -/
theorem digitsValue_append_singleton {digit : Char → Option Nat} {base acc v d : Nat} {l : List Char} {c : Char}
    (hl : digitsValue digit base acc l = some v) (hc : digit c = some d) :
    digitsValue digit base acc (l ++ [c]) = some (v * base + d) := by
  induction l generalizing acc with
  | nil => cases hl; simp [digitsValue, hc]
  | cons x t ih =>
    simp only [List.cons_append, digitsValue] at hl ⊢
    split at hl
    · cases hl
    · next hx => exact ih hl

/-- The digits printed of a number read back as the number, as far as n places hold it. -/
theorem digitsValue_hexDigits (n v : Nat) : digitsValue hexDigit 16 0 (hexDigits n v) = some (v % 16 ^ n) := by
  induction n generalizing v with
  | zero => simp [hexDigits, digitsValue, Nat.mod_one]
  | succ n ih =>
    rw [hexDigits, digitsValue_append_singleton (ih _) (hexDigit_hexChar (Nat.mod_lt v (by decide))), Nat.pow_succ']
    congr 1
    rw [Nat.mod_mul]
    omega

theorem digitsValue_hexDigits_word (w : Word) : digitsValue hexDigit 16 0 (hexDigits 8 w.toNat) = some w.toNat := by
  exact (digitsValue_hexDigits 8 _).trans (congrArg some (Nat.mod_eq_of_lt w.isLt))

/-! ## Operands (R70) -/

theorem wordOperand_textWord (w : Word) : wordOperand (textWord w) = .ok w := by
  have hne : (hexDigits 8 w.toNat).isEmpty = false := by
    rw [List.isEmpty_eq_false_iff_exists_mem]; exact ⟨_, List.mem_append_right _ (List.mem_singleton_self _)⟩
  have hv : integerValue (textWord w) = some w.toNat := by
    rw [textWord, integerValue, digits1, hne]; exact digitsValue_hexDigits_word w
  simp only [wordOperand, hv, if_pos w.isLt, BitVec.ofNat_toNat, BitVec.setWidth_eq]

theorem coefOperand_textCoef (w : Word) : coefOperand (textCoef w) = .ok w := by
  have hv : coefficientValue (textCoef w) = some w := by
    rw [textCoef, coefficientValue, if_pos (length_hexDigits 8 _), digitsValue_hexDigits_word, Option.map_some,
      BitVec.ofNat_toNat, BitVec.setWidth_eq]
  rw [coefOperand, hv]

/-! ## The pieces of a line (R69) -/

/-- A character of a mnemonic or of an operand: no white space, no comma, no comment mark. -/
def isPlain (c : Char) : Bool := !isBlank c && c != ',' && c != '#'

theorem isPlain_iff {c : Char} : isPlain c = true ↔ isBlank c = false ∧ c ≠ ',' ∧ c ≠ '#' := by
  simp [isPlain, and_assoc]

/-- A piece of a printed line, a mnemonic or an operand: not empty, and every character plain. -/
def PlainText (t : List Char) : Prop := t ≠ [] ∧ ∀ c ∈ t, isPlain c = true

theorem isPlain_hexDigits (n v : Nat) : ∀ c ∈ hexDigits n v, isPlain c = true := by
  induction n generalizing v with
  | zero => simp [hexDigits]
  | succ n ih =>
    have hall : ∀ d : Fin 16, isPlain (hexChar d) = true := by decide
    intro c hc
    rcases List.mem_append.1 hc with h | h
    · exact ih _ c h
    · rw [List.mem_singleton.1 h]; exact hall ⟨v % 16, Nat.mod_lt v (by decide)⟩

theorem plainText_marked_hexDigits {c d : Char} (hc : isPlain c = true) (hd : isPlain d = true) (n v : Nat) :
    PlainText (c :: d :: hexDigits n v) :=
  ⟨List.cons_ne_nil _ _, List.forall_mem_cons.2 ⟨hc, List.forall_mem_cons.2 ⟨hd, isPlain_hexDigits n v⟩⟩⟩

theorem plainText_textWord (w : Word) : PlainText (textWord w) := plainText_marked_hexDigits rfl rfl 8 _

theorem plainText_textCoef (w : Word) : PlainText (textCoef w) := plainText_marked_hexDigits rfl rfl 8 _

/-! ### White space -/

theorem trimBlank_cons_blank {c : Char} (h : isBlank c = true) (l : List Char) : trimBlank (c :: l) = trimBlank l := by
  rw [trimBlank, List.dropWhile_cons_of_pos h, trimBlank]

/-- Text whose first and last characters are not white space is left as it is. -/
theorem trimBlank_eq_self {l : List Char} (hne : l ≠ []) (hhead : isBlank (l.head hne) = false)
    (hlast : isBlank (l.getLast hne) = false) : trimBlank l = l := by
  have hfront : l.dropWhile isBlank = l := by
    cases l with
    | nil => rfl
    | cons c t => exact List.dropWhile_cons_of_neg (by simpa using hhead)
  have hback : l.reverse.dropWhile isBlank = l.reverse := by
    cases hr : l.reverse with
    | nil => rfl
    | cons c t =>
      obtain rfl : l = t.reverse ++ [c] := by rw [← List.reverse_reverse l, hr, List.reverse_cons]
      exact List.dropWhile_cons_of_neg (by simpa using hlast)
  rw [trimBlank, hfront, hback, List.reverse_reverse]

theorem isBlank_of_mem {t : List Char} (ht : PlainText t) {c : Char} (hc : c ∈ t) : isBlank c = false :=
  (isPlain_iff.1 (ht.2 c hc)).1

theorem trimBlank_plainText {t : List Char} (ht : PlainText t) : trimBlank t = t :=
  trimBlank_eq_self ht.1 (isBlank_of_mem ht (List.head_mem _)) (isBlank_of_mem ht (List.getLast_mem _))

/-! ### Commas -/

theorem splitComma_ne_nil (l : List Char) : splitComma l ≠ [] := by
  cases l with
  | nil => exact List.cons_ne_nil _ _
  | cons c t =>
    rw [splitComma]
    split
    · exact List.cons_ne_nil _ _
    · split <;> exact List.cons_ne_nil _ _

/-- A character that is no comma belongs to the first piece of what follows it. -/
theorem splitComma_cons {c : Char} (hc : c ≠ ',') {l h : List Char} {r : List (List Char)} (hl : splitComma l = h :: r) :
    splitComma (c :: l) = (c :: h) :: r := by
  rw [splitComma, if_neg hc, hl]

theorem splitComma_plain_append {t : List Char} (ht : ∀ c ∈ t, isPlain c = true) {l h : List Char} {r : List (List Char)}
    (hl : splitComma l = h :: r) : splitComma (t ++ l) = (t ++ h) :: r := by
  induction t with
  | nil => exact hl
  | cons c t ih =>
    obtain ⟨hc, ht⟩ := List.forall_mem_cons.1 ht
    exact splitComma_cons (isPlain_iff.1 hc).2.1 (ih ht)

/-- White space in front of an operand list is trimmed with its first operand. -/
theorem trimmed_splitComma_blank {c : Char} (hb : isBlank c = true) (hc : c ≠ ',') (l : List Char) :
    (splitComma (c :: l)).map trimBlank = (splitComma l).map trimBlank := by
  obtain ⟨h, r, hl⟩ := List.exists_cons_of_ne_nil (splitComma_ne_nil l)
  rw [splitComma_cons hc hl, hl, List.map_cons, List.map_cons, trimBlank_cons_blank hb]

theorem joinOperands_cons_cons (t u : List Char) (us : List (List Char)) :
    joinOperands (t :: u :: us) = t ++ ',' :: ' ' :: joinOperands (u :: us) := by
  rw [joinOperands, List.append_assoc]
  · rfl
  · exact List.cons_ne_nil _ _

/-- Operands joined with commas and spaces come apart into the same operands. -/
theorem trimmed_splitComma_joinOperands {ts : List (List Char)} (hne : ts ≠ []) (hts : ∀ t ∈ ts, PlainText t) :
    (splitComma (joinOperands ts)).map trimBlank = ts := by
  induction ts with
  | nil => exact absurd rfl hne
  | cons t rest ih =>
    obtain ⟨ht, hrest⟩ := List.forall_mem_cons.1 hts
    cases rest with
    | nil =>
      have hsplit : splitComma (t ++ []) = [t ++ []] := splitComma_plain_append ht.2 rfl
      rw [List.append_nil] at hsplit
      rw [joinOperands, hsplit, List.map_singleton, trimBlank_plainText ht]
    | cons u us =>
      have hsplit : splitComma (t ++ ',' :: ' ' :: joinOperands (u :: us)) =
          (t ++ []) :: splitComma (' ' :: joinOperands (u :: us)) := splitComma_plain_append ht.2 rfl
      rw [joinOperands_cons_cons, hsplit, List.append_nil, List.map_cons, trimmed_splitComma_blank rfl (by decide),
        ih (List.cons_ne_nil _ _) hrest, trimBlank_plainText ht]

/-! ### The printed line -/

theorem dropComment_plain_append {t : List Char} (ht : PlainText t) (l : List Char) :
    dropComment (t ++ l) = t ++ dropComment l :=
  List.takeWhile_append_of_pos fun c hc => bne_iff_ne.2 (isPlain_iff.1 (ht.2 c hc)).2.2

/-- No comment starts in joined operands. -/
theorem dropComment_joinOperands {ts : List (List Char)} (hts : ∀ t ∈ ts, PlainText t) :
    dropComment (joinOperands ts) = joinOperands ts := by
  induction ts with
  | nil => rfl
  | cons t rest ih =>
    obtain ⟨ht, hrest⟩ := List.forall_mem_cons.1 hts
    cases rest with
    | nil => simpa [joinOperands, dropComment] using dropComment_plain_append ht []
    | cons u us =>
      have hsep (l : List Char) : dropComment (',' :: ' ' :: l) = ',' :: ' ' :: dropComment l := rfl
      rw [joinOperands_cons_cons, dropComment_plain_append ht, hsep, ih hrest]

theorem joinOperands_ne_nil {ts : List (List Char)} (hne : ts ≠ []) (hts : ∀ t ∈ ts, PlainText t) :
    joinOperands ts ≠ [] := by
  cases ts with
  | nil => exact absurd rfl hne
  | cons t rest =>
    have ht := (hts t List.mem_cons_self).1
    cases rest with
    | nil => exact ht
    | cons u us => rw [joinOperands_cons_cons]; exact List.append_ne_nil_of_left_ne_nil ht _

/-- Joined operands end with the last operand, hence not with white space. -/
theorem isBlank_getLast_joinOperands {ts : List (List Char)} (hts : ∀ t ∈ ts, PlainText t)
    (hj : joinOperands ts ≠ []) :
    isBlank ((joinOperands ts).getLast hj) = false := by
  induction ts with
  | nil => exact absurd rfl hj
  | cons t rest ih =>
    obtain ⟨ht, hrest⟩ := List.forall_mem_cons.1 hts
    cases rest with
    | nil => exact isBlank_of_mem ht (List.getLast_mem hj)
    | cons u us =>
      have hju := joinOperands_ne_nil (List.cons_ne_nil u us) hrest
      simpa only [joinOperands_cons_cons, List.getLast_append_of_ne_nil _ (List.cons_ne_nil _ _),
        List.getLast_cons (List.cons_ne_nil _ _), List.getLast_cons hju] using ih hrest hju

/-- What a mnemonic and its operands assemble to. -/
def assemblePieces (name : List Char) (args : List (List Char)) : Except AsmError (Option Instr) :=
  if name = nameToycbcr then (asmToycbcr args).map some
  else if name = nameToxyz then (asmToxyz args).map some
  else if name = nameTorgbfromxyz then (asmTorgbfromxyz args).map some
  else .error .unknownMnemonic

/-- A line printed from a mnemonic and operands comes apart into the same pieces. -/
theorem assembleLine_printed {name : List Char} {ts : List (List Char)} (hname : PlainText name) (hne : ts ≠ [])
    (hts : ∀ t ∈ ts, PlainText t) :
    assembleLine (name ++ ' ' :: joinOperands ts) = assemblePieces (name.map Char.toLower) ts := by
  have hj := joinOperands_ne_nil hne hts
  have hline : name ++ ' ' :: joinOperands ts ≠ [] := List.append_ne_nil_of_left_ne_nil hname.1 _
  have hcomment : dropComment (name ++ ' ' :: joinOperands ts) = name ++ ' ' :: joinOperands ts := by
    have hsep : dropComment (' ' :: joinOperands ts) = ' ' :: dropComment (joinOperands ts) := rfl
    rw [dropComment_plain_append hname, hsep, dropComment_joinOperands hts]
  have htrim : trimBlank (name ++ ' ' :: joinOperands ts) = name ++ ' ' :: joinOperands ts := by
    refine trimBlank_eq_self hline ?_ ?_
    · simpa only [List.head_append_of_ne_nil hname.1] using isBlank_of_mem hname (List.head_mem hname.1)
    · simpa only [List.getLast_append_of_ne_nil _ (List.cons_ne_nil _ _), List.getLast_cons hj]
        using isBlank_getLast_joinOperands hts hj
  have hword : ∀ c ∈ name, (!isBlank c) = true := fun c hc => by rw [isBlank_of_mem hname hc]; rfl
  have hfirst : (name ++ ' ' :: joinOperands ts).takeWhile (fun c => !isBlank c) = name := by
    rw [List.takeWhile_append_of_pos hword]; exact List.append_nil _
  have hrest : (name ++ ' ' :: joinOperands ts).dropWhile (fun c => !isBlank c) = ' ' :: joinOperands ts := by
    rw [List.dropWhile_append_of_pos hword]; rfl
  have hargs : (splitComma (' ' :: joinOperands ts)).map trimBlank = ts := by
    rw [trimmed_splitComma_blank rfl (by decide), trimmed_splitComma_joinOperands hne hts]
  rw [assembleLine, hcomment, htrim, if_neg (by simp)]
  simp only [hfirst, hrest, hargs, assemblePieces]

/-! ### The line of a command -/

/-- The mnemonic a command is printed with. -/
def mnemonicOf : Instr → List Char
  | .toycbcr _ _ => nameToycbcr
  | .toxyz _ _ _ => nameToxyz
  | .torgbfromxyz _ _ _ => nameTorgbfromxyz

/-- The operands a command is printed with. -/
def operandsOf : Instr → List (List Char)
  | .toycbcr buf npix => [textWord buf, textWord npix]
  | .toxyz buf npix m =>
    [textWord buf, textWord npix, textCoef m.m0, textCoef m.m1, textCoef m.m2, textCoef m.m3, textCoef m.m4,
      textCoef m.m5, textCoef m.m6, textCoef m.m7, textCoef m.m8]
  | .torgbfromxyz inp out npix => [textWord inp, textWord out, textWord npix]

theorem disassemble_eq (i : Instr) : disassemble i = mnemonicOf i ++ ' ' :: joinOperands (operandsOf i) := by
  cases i <;> exact List.append_assoc _ [' '] _

theorem plainText_mnemonicOf (i : Instr) : PlainText (mnemonicOf i) := by
  have hall : (mnemonicOf i).all isPlain = true := by cases i <;> rfl
  exact ⟨by cases i <;> exact List.cons_ne_nil _ _, List.all_eq_true.1 hall⟩

theorem toLower_mnemonicOf (i : Instr) : (mnemonicOf i).map Char.toLower = mnemonicOf i := by
  cases i <;> rfl

theorem operandsOf_ne_nil (i : Instr) : operandsOf i ≠ [] := by
  cases i <;> exact List.cons_ne_nil _ _

theorem plainText_operandsOf (i : Instr) : ∀ t ∈ operandsOf i, PlainText t := by
  cases i <;> simp [operandsOf, plainText_textWord, plainText_textCoef]

/-- Each operand reads back as the word it was printed from (R70). -/
theorem assemblePieces_of_command (i : Instr) : assemblePieces (mnemonicOf i) (operandsOf i) = .ok (some i) := by
  cases i with
  | toycbcr buf npix =>
    have hargs : asmToycbcr (operandsOf (.toycbcr buf npix)) = .ok (.toycbcr buf npix) := by
      simp only [operandsOf, asmToycbcr, wordOperand_textWord]; rfl
    rw [mnemonicOf, assemblePieces, if_pos rfl, hargs]; rfl
  | toxyz buf npix m =>
    have hargs : asmToxyz (operandsOf (.toxyz buf npix m)) = .ok (.toxyz buf npix m) := by
      simp only [operandsOf, asmToxyz, wordOperand_textWord, coefOperand_textCoef]; rfl
    rw [mnemonicOf, assemblePieces, if_neg (by decide), if_pos rfl, hargs]; rfl
  | torgbfromxyz inp out npix =>
    have hargs : asmTorgbfromxyz (operandsOf (.torgbfromxyz inp out npix)) = .ok (.torgbfromxyz inp out npix) := by
      simp only [operandsOf, asmTorgbfromxyz, wordOperand_textWord]; rfl
    rw [mnemonicOf, assemblePieces, if_neg (by decide), if_neg (by decide), if_pos rfl, hargs]; rfl

/-- Settles O5: the printed line comes apart into its pieces, and the pieces assemble to the command. -/
theorem textRoundTrip : Obligations.TextRoundTrip := by
  intro i
  rw [disassemble_eq, assembleLine_printed (plainText_mnemonicOf i) (operandsOf_ne_nil i) (plainText_operandsOf i),
    toLower_mnemonicOf, assemblePieces_of_command]

end Sys2Proof.Machine
end

section
/-! PROOF. The addresses of a pixel under a kept contract (40_numerics.md R88). -/

namespace Sys2Proof.Machine

/-- What lies in a covered span lies in the address space. -/
theorem lt_of_covered {owned : List Region} {p : Span} {a : Nat} (h : covered owned p = true) (ha : p.has a = true) :
    a < 2 ^ 32 := by
  obtain ⟨hlo, hhi⟩ := span_has.1 ha
  exact lt_of_lt_of_le hhi (covered_bound h (by omega))

/-- Settles O16: the pixel's bytes lie in the footprints, and the footprints are covered. -/
theorem elementAddressesExist : Obligations.ElementAddressesExist := by
  intro owned i p a hb hp
  obtain ⟨hread, hwrite⟩ := covered_of_breach hb
  refine ⟨fun ha => ?_, fun ha => ?_⟩
  · have hw := pixelSpan_sub i p a hp ha
    exact ⟨hw, lt_of_covered hwrite hw⟩
  · have hr := pixelReads_sub i p a hp ha
    exact ⟨hr, lt_of_covered hread hr⟩

end Sys2Proof.Machine
end

section
/-! PROOF. Finite values as rationals: the arithmetic of signed magnitudes, which the statements about exact results use
(40_numerics.md R74). -/

namespace Sys2Proof.Machine

theorem ratOf_false (mag : Nat) : ratOf false mag = (mag : ℚ) / 2 ^ 149 := by simp [ratOf, signed]

theorem ratOf_eq_zero_iff (neg : Bool) (mag : Nat) : ratOf neg mag = 0 ↔ mag = 0 := by
  cases neg <;> simp [ratOf, signed]

theorem ratOf_not (neg : Bool) (mag : Nat) : ratOf (!neg) mag = -ratOf neg mag := by
  cases neg <;> simp [ratOf, signed, neg_div]

theorem ratOf_add (na nb : Bool) (ma mb : Nat) :
    ratOf na ma + ratOf nb mb = ((signed na ma + signed nb mb : Int) : ℚ) / 2 ^ 149 := by
  rw [ratOf, ratOf, ← add_div, Int.cast_add]

theorem abs_ratOf (neg : Bool) (mag : Nat) : |ratOf neg mag| = (mag : ℚ) / 2 ^ 149 := by
  cases neg <;> simp [ratOf, signed, abs_div]

theorem ratOf_false_nonneg (mag : Nat) : 0 ≤ ratOf false mag := by
  rw [← abs_eq_self, abs_ratOf]; rfl

theorem ratOf_true_nonpos (mag : Nat) : ratOf true mag ≤ 0 := by
  rw [show ratOf true mag = -ratOf false mag from ratOf_not false mag, neg_nonpos]
  exact ratOf_false_nonneg mag

theorem ratOf_zero (neg : Bool) : ratOf neg 0 = 0 := (ratOf_eq_zero_iff neg 0).2 rfl

theorem ratOf_mul (na nb : Bool) (ma mb : Nat) :
    ratOf na ma * ratOf nb mb = ratOf (na != nb) (ma * mb) / (2 ^ 149 : Nat) := by
  cases na <;> cases nb <;> simp [ratOf, signed] <;> ring

theorem ratOf_div (na nb : Bool) (ma mb : Nat) :
    ratOf na ma / ratOf nb mb = ratOf (na != nb) (ma * 2 ^ 149) / mb := by
  cases na <;> cases nb <;> simp [ratOf, signed] <;> ring_nf

theorem ratOf_natAbs (z : Int) : ratOf (z < 0) z.natAbs = (z : ℚ) / 2 ^ 149 := by
  rcases lt_or_ge z 0 with h | h
  · simp [ratOf, signed, h, abs_of_neg]
  · simp [ratOf, signed, not_lt.2 h, abs_of_nonneg h]

/-- Distances do not change when both signs do. -/
theorem abs_ratOf_sub_not (n k : Bool) (mag num den : Nat) :
    |ratOf (!n) mag - ratOf (!k) num / den| = |ratOf n mag - ratOf k num / den| := by
  rw [ratOf_not, ratOf_not, neg_div, ← neg_sub', abs_neg]

theorem cast_ratOf_false (mag : Nat) : ((ratOf false mag : ℚ) : ℝ) = (mag : ℝ) / 2 ^ 149 := by
  rw [ratOf_false]
  push_cast
  rfl

end Sys2Proof.Machine
end

section
/-! PROOF. The primitives operand kind by operand kind: what each answers for NaN, infinities and finite values, NaN results,
comparison, and subtraction as addition (40_numerics.md R78 to R82, R86). -/

namespace Sys2Proof.Machine

/-! ## One equation per pair of operand kinds -/

section
variable {a b : Word} {na nb : Bool} {ma mb : Nat}

theorem fadd_nan (h : classify a = .nan ∨ classify b = .nan) : fadd a b = qnan := by
  rcases h with h | h
  · simp [fadd, h]
  · cases ha : classify a <;> simp [fadd, h, ha]

theorem fadd_inf_inf (ha : classify a = .inf na) (hb : classify b = .inf nb) :
    fadd a b = if na = nb then infinity na else qnan := by simp only [fadd, ha, hb]

theorem fadd_inf_fin (ha : classify a = .inf na) (hb : classify b = .fin nb mb) : fadd a b = infinity na := by
  simp only [fadd, ha, hb]

theorem fadd_fin_inf (ha : classify a = .fin na ma) (hb : classify b = .inf nb) : fadd a b = infinity nb := by
  simp only [fadd, ha, hb]

theorem fadd_fin_fin (ha : classify a = .fin na ma) (hb : classify b = .fin nb mb) :
    fadd a b = addFin na ma nb mb := by simp only [fadd, ha, hb]

theorem fmul_nan (h : classify a = .nan ∨ classify b = .nan) : fmul a b = qnan := by
  rcases h with h | h
  · simp [fmul, h]
  · cases ha : classify a <;> simp [fmul, h, ha]

theorem fmul_inf_inf (ha : classify a = .inf na) (hb : classify b = .inf nb) : fmul a b = infinity (na != nb) := by
  simp only [fmul, ha, hb]

theorem fmul_inf_fin (ha : classify a = .inf na) (hb : classify b = .fin nb mb) :
    fmul a b = if mb = 0 then qnan else infinity (na != nb) := by simp only [fmul, ha, hb]

theorem fmul_fin_inf (ha : classify a = .fin na ma) (hb : classify b = .inf nb) :
    fmul a b = if ma = 0 then qnan else infinity (na != nb) := by simp only [fmul, ha, hb]

theorem fmul_fin_fin (ha : classify a = .fin na ma) (hb : classify b = .fin nb mb) :
    fmul a b = packRound (na != nb) (ma * mb) (2 ^ 149) := by simp only [fmul, ha, hb]

theorem fdiv_nan (h : classify a = .nan ∨ classify b = .nan) : fdiv a b = qnan := by
  rcases h with h | h
  · simp [fdiv, h]
  · cases ha : classify a <;> simp [fdiv, h, ha]

theorem fdiv_inf_inf (ha : classify a = .inf na) (hb : classify b = .inf nb) : fdiv a b = qnan := by
  simp only [fdiv, ha, hb]

theorem fdiv_inf_fin (ha : classify a = .inf na) (hb : classify b = .fin nb mb) : fdiv a b = infinity (na != nb) := by
  simp only [fdiv, ha, hb]

theorem fdiv_fin_inf (ha : classify a = .fin na ma) (hb : classify b = .inf nb) : fdiv a b = zero (na != nb) := by
  simp only [fdiv, ha, hb]

theorem fdiv_fin_zero (ha : classify a = .fin na ma) (hb : classify b = .fin nb 0) :
    fdiv a b = if ma = 0 then qnan else infinity (na != nb) := by simp only [fdiv, ha, hb, if_true]

theorem fdiv_fin_fin (ha : classify a = .fin na ma) (hb : classify b = .fin nb mb) (hm : mb ≠ 0) :
    fdiv a b = packRound (na != nb) (ma * 2 ^ 149) mb := by simp only [fdiv, ha, hb, if_neg hm]

theorem fsqrt_nan (h : classify a = .nan) : fsqrt a = qnan := by simp only [fsqrt, h]

theorem fsqrt_inf (h : classify a = .inf na) : fsqrt a = if na then qnan else infinity false := by
  cases na <;> simp [fsqrt, h]

theorem fsqrt_zero (h : classify a = .fin na 0) : fsqrt a = zero na := by simp only [fsqrt, h, if_true]

theorem fsqrt_fin (h : classify a = .fin na ma) (hm : ma ≠ 0) : fsqrt a = if na then qnan else sqrtFin ma := by
  simp only [fsqrt, h, if_neg hm]

/-! ## Signs -/

theorem classify_fneg_nan (h : classify b = .nan) : classify (fneg b) = .nan := by rw [classify_fneg, h]

theorem classify_fneg_inf (h : classify b = .inf nb) : classify (fneg b) = .inf (!nb) := by rw [classify_fneg, h]

theorem classify_fneg_fin (h : classify b = .fin nb mb) : classify (fneg b) = .fin (!nb) mb := by
  rw [classify_fneg, h]

end

/-- A flipped sign passes through the rounding, which looks at the magnitude alone. -/
theorem classify_fneg_packRound (neg : Bool) (num den : Nat) :
    classify (fneg (packRound neg num den)) = classify (packRound (!neg) num den) := by
  rcases classify_packRound neg num den with ⟨hlt, h⟩ | ⟨heq, h⟩ <;>
    rcases classify_packRound (!neg) num den with ⟨hlt', h'⟩ | ⟨heq', h'⟩
  · rw [classify_fneg_fin h, h']
  · omega
  · omega
  · rw [classify_fneg_inf h, h']

/-- A factor's flipped sign is the product's (R79). -/
theorem classify_fmul_fneg (c y : Word) : classify (fmul (fneg c) y) = classify (fneg (fmul c y)) := by
  by_cases hn : classify c = .nan ∨ classify y = .nan
  · rw [fmul_nan hn, fmul_nan (hn.imp_left classify_fneg_nan)]; rfl
  rw [not_or] at hn
  cases hc : classify c with
  | nan => exact absurd hc hn.1
  | inf nc =>
    cases hy : classify y with
    | nan => exact absurd hy hn.2
    | inf ny =>
      rw [fmul_inf_inf hc hy, fmul_inf_inf (classify_fneg_inf hc) hy, classify_fneg_inf (classify_infinity _),
        classify_infinity, Bool.not_bne]
    | fin ny my =>
      rw [fmul_inf_fin hc hy, fmul_inf_fin (classify_fneg_inf hc) hy]
      split
      · rfl
      · rw [classify_fneg_inf (classify_infinity _), classify_infinity, Bool.not_bne]
  | fin nc mc =>
    cases hy : classify y with
    | nan => exact absurd hy hn.2
    | inf ny =>
      rw [fmul_fin_inf hc hy, fmul_fin_inf (classify_fneg_fin hc) hy]
      split
      · rfl
      · rw [classify_fneg_inf (classify_infinity _), classify_infinity, Bool.not_bne]
    | fin ny my =>
      rw [fmul_fin_fin hc hy, fmul_fin_fin (classify_fneg_fin hc) hy, classify_fneg_packRound, Bool.not_bne]

/-- Settles O55: the two second operands have the same value, and `fadd` asks for nothing else of them. -/
theorem subtractIsAddNegated : Obligations.SubtractIsAddNegated := by
  intro acc c y
  rw [fsub, fadd, fadd, classify_fmul_fneg]

/-! ## NaN results -/

/-- A result whose NaN can only be the one pattern of R86. -/
def OneNan (w : Word) : Prop := classify w = .nan → w = qnan

theorem oneNan_qnan : OneNan qnan := fun _ => rfl

theorem oneNan_infinity (neg : Bool) : OneNan (infinity neg) := fun h => by
  rw [classify_infinity] at h; cases h

theorem oneNan_zero (neg : Bool) : OneNan (zero neg) := fun h => by
  rw [classify_zero] at h; cases h

theorem oneNan_packRound (neg : Bool) (num den : Nat) : OneNan (packRound neg num den) := fun h => by
  rcases classify_packRound neg num den with ⟨_, h'⟩ | ⟨_, h'⟩ <;> (rw [h'] at h; cases h)

theorem oneNan_ite {c : Prop} [Decidable c] {x y : Word} (hx : OneNan x) (hy : OneNan y) :
    OneNan (if c then x else y) := by
  split <;> assumption

theorem oneNan_addFin (na : Bool) (ma : Nat) (nb : Bool) (mb : Nat) : OneNan (addFin na ma nb mb) :=
  oneNan_ite (oneNan_zero _) (oneNan_packRound _ _ _)

theorem oneNan_sqrtFin (mag : Nat) : OneNan (sqrtFin mag) :=
  oneNan_ite (oneNan_packRound _ _ _) (oneNan_packRound _ _ _)

theorem oneNan_fadd (a b : Word) : OneNan (fadd a b) := by
  unfold fadd
  split
  · exact oneNan_qnan
  · exact oneNan_qnan
  · exact oneNan_ite (oneNan_infinity _) oneNan_qnan
  · exact oneNan_infinity _
  · exact oneNan_infinity _
  · exact oneNan_addFin _ _ _ _

theorem oneNan_fmul (a b : Word) : OneNan (fmul a b) := by
  unfold fmul
  split
  · exact oneNan_qnan
  · exact oneNan_qnan
  · exact oneNan_infinity _
  · exact oneNan_ite oneNan_qnan (oneNan_infinity _)
  · exact oneNan_ite oneNan_qnan (oneNan_infinity _)
  · exact oneNan_packRound _ _ _

theorem oneNan_fdiv (a b : Word) : OneNan (fdiv a b) := by
  unfold fdiv
  split
  · exact oneNan_qnan
  · exact oneNan_qnan
  · exact oneNan_qnan
  · exact oneNan_infinity _
  · exact oneNan_zero _
  · exact oneNan_ite (oneNan_ite oneNan_qnan (oneNan_infinity _)) (oneNan_packRound _ _ _)

theorem oneNan_fsqrt (a : Word) : OneNan (fsqrt a) := by
  unfold fsqrt
  split
  · exact oneNan_qnan
  · exact oneNan_qnan
  · exact oneNan_infinity _
  · exact oneNan_ite (oneNan_zero _) (oneNan_ite oneNan_qnan (oneNan_sqrtFin _))

/-- Settles O49: each primitive ends in `QNAN`, an infinity, a zero or a rounded value, and only the first is a NaN. -/
theorem oneNanPattern : Obligations.OneNanPattern := fun a b =>
  ⟨oneNan_fadd a b, oneNan_fadd a (fneg b), oneNan_fmul a b, oneNan_fdiv a b, oneNan_fsqrt a⟩

/-! ## Special operands -/

theorem zero_eq (neg : Bool) : zero neg = if neg then 0x80000000#32 else 0x00000000#32 := by
  cases neg <;> rfl

/-- An exact sum of zero is +0, unless both terms have the sign bit (R78). -/
theorem addFin_cancel {na nb : Bool} {ma mb : Nat} (h : ratOf na ma + ratOf nb mb = 0) :
    addFin na ma nb mb = zero (na && nb) := by
  have hz : signed na ma + signed nb mb = 0 := by
    rw [ratOf_add, div_eq_zero_iff, Int.cast_eq_zero] at h
    exact h.resolve_right (by positivity)
  rw [addFin, if_pos hz]

theorem roundMag_zero_left (den : Nat) : roundMag 0 den = 0 := by
  simp [roundMag, roundShift, roundEven]

theorem packRound_zero_left (neg : Bool) (den : Nat) : packRound neg 0 den = zero neg := by
  rw [packRound, roundMag_zero_left, zero]

/-- Settles O50, clause by clause from the equation of each pair of operand kinds. -/
theorem specialOperands : Obligations.SpecialOperands := by
  refine ⟨fun a b h => ?_, fun a b n ha => ?_, fun a b na nb ma mb ha hb => ?_, fun a b na nb ha => ?_,
    fun a b na nb ma mb ha hb => ?_, fun a => ⟨fsqrt_nan, fun h => fsqrt_inf h, fun m hm h => fsqrt_fin h hm⟩,
    ?_, ?_, ?_⟩
  · -- a NaN operand
    exact ⟨fadd_nan h, fadd_nan (h.imp_right classify_fneg_nan), fmul_nan h, fdiv_nan h⟩
  · -- a sum or a difference with an infinite term (R78)
    refine ⟨fun hb => ⟨?_, ?_⟩, fun hb => ⟨?_, ?_⟩, fun nb mb hb => ⟨?_, ?_, ?_, ?_⟩⟩
    · rw [fadd_inf_inf ha hb, if_pos rfl, classify_infinity]
    · rw [fsub, fadd_inf_inf ha (classify_fneg_inf hb), if_neg (by simp)]; rfl
    · rw [fadd_inf_inf ha hb, if_neg (by simp)]; rfl
    · rw [fsub, fadd_inf_inf ha (classify_fneg_inf hb), if_pos (by simp), classify_infinity]
    · rw [fadd_inf_fin ha hb, classify_infinity]
    · rw [fadd_fin_inf hb ha, classify_infinity]
    · rw [fsub, fadd_inf_fin ha (classify_fneg_fin hb), classify_infinity]
    · rw [fsub, fadd_fin_inf hb (classify_fneg_inf ha), classify_infinity]
  · -- an exact sum or difference of zero (R78)
    refine ⟨fun h => ?_, fun h => ?_⟩
    · rw [fadd_fin_fin ha hb, addFin_cancel h, zero_eq]
    · rw [sub_eq_add_neg, ← ratOf_not] at h
      rw [fsub, fadd_fin_fin ha (classify_fneg_fin hb), addFin_cancel h, zero_eq]
  · -- a product or a quotient with an infinite operand (R79, R80)
    refine ⟨fun hb => ⟨?_, fdiv_inf_inf ha hb⟩, fun mb hb => ⟨fun hm => ⟨?_, ?_⟩, fun hm => ⟨?_, ?_⟩, ?_, ?_⟩⟩
    · rw [fmul_inf_inf ha hb, classify_infinity]
    · rw [fmul_inf_fin ha hb, if_pos hm]; rfl
    · rw [fmul_fin_inf hb ha, if_pos hm]; rfl
    · rw [fmul_inf_fin ha hb, if_neg hm, classify_infinity]
    · rw [fmul_fin_inf hb ha, if_neg hm, classify_infinity, bne_comm]
    · rw [fdiv_inf_fin ha hb, classify_infinity]
    · rw [fdiv_fin_inf hb ha, classify_zero, bne_comm]
  · -- a product or a quotient with a zero operand (R79, R80)
    refine ⟨fun hm => ?_, fun hm hm' => ?_, fun hm hm' => ?_, fun hm hm' => ?_⟩
    · rw [fmul_fin_fin ha hb, Nat.mul_eq_zero.2 hm, packRound_zero_left, classify_zero]
    · rw [fdiv_fin_zero ha (hm' ▸ hb), if_pos hm]; rfl
    · rw [fdiv_fin_zero ha (hm' ▸ hb), if_neg hm, classify_infinity]
    · rw [fdiv_fin_fin ha hb hm', hm, Nat.zero_mul, packRound_zero_left, classify_zero]
  · exact fsqrt_zero (show classify 0x80000000#32 = .fin true 0 by decide)
  · exact fsqrt_zero (show classify 0x00000000#32 = .fin false 0 by decide)
  · exact fsqrt_inf (show classify 0x7F800000#32 = .inf false by decide)

/-! ## Comparison -/

theorem leVal_nan {x y : FVal} (h : x = .nan ∨ y = .nan) : leVal x y = false := by
  rcases h with rfl | rfl
  · rfl
  · cases x <;> rfl

/-- The order of signed magnitudes is the order of the values (R82). -/
theorem leVal_fin (na nb : Bool) (ma mb : Nat) :
    leVal (.fin na ma) (.fin nb mb) = true ↔ ratOf na ma ≤ ratOf nb mb := by
  rw [ratOf, ratOf, div_le_div_iff_of_pos_right (by positivity), Int.cast_le]
  exact decide_eq_true_iff

/-- Settles O51: the order of R82, kind by kind. -/
theorem fleComparesValues : Obligations.FleComparesValues := by
  intro a b
  refine ⟨leVal_nan, fun na ma nb mb ha hb => ?_, fun na ma ha hb => ?_, fun na ma ha hb => ?_, fun ha hb => ?_,
    fun n ha hb => ?_⟩
  · rw [fle, ha, hb, leVal_fin]
  · rw [fle, fle, ha, hb]; exact ⟨rfl, rfl⟩
  · rw [fle, fle, ha, hb]; exact ⟨rfl, rfl⟩
  · rw [fle, fle, ha, hb]; exact ⟨rfl, rfl⟩
  · rw [fle, ha, hb]; cases n <;> rfl

end Sys2Proof.Machine
end

section
/-! PROOF. The one rounding (40_numerics.md R75): ties, overflow, and what makes a rounded magnitude the rounding of a rational;
then the sum, the difference, the product and the quotient as exact rationals rounded once (R78 to R80). -/

namespace Sys2Proof.Machine

/-! ## Ties -/

theorem roundEven_below {num den : Nat} (h : 2 * (num % den) < den) : roundEven num den = num / den := by
  rw [roundEven, if_neg]
  simp only [gt_iff_lt, Bool.or_eq_true, decide_eq_true_eq, Bool.and_eq_true, beq_iff_eq]
  omega

theorem roundEven_above {num den : Nat} (h : den < 2 * (num % den)) : roundEven num den = num / den + 1 := by
  rw [roundEven, if_pos (by simp [h])]

theorem roundEven_half {num den : Nat} (h : 2 * (num % den) = den) : roundEven num den % 2 = 0 := by
  simp only [roundEven, h, gt_iff_lt, lt_irrefl, decide_false, beq_self_eq_true, Bool.true_and, Bool.false_or, beq_iff_eq]
  split <;> omega

/-- If another integer is as near, the exact value lies halfway and the bits kept are even. -/
theorem roundEven_tie {num den j : Nat} (hd : 0 < den) (hj : j ≠ roundEven num den)
    (h : ((num : Int) - (den * j : Nat)).natAbs = ((num : Int) - (den * roundEven num den : Nat)).natAbs) :
    roundEven num den % 2 = 0 := by
  have hdm := Nat.div_add_mod num den
  have hr : num % den < den := Nat.mod_lt _ hd
  have hgap : ∀ {x y : Nat}, x < y → den * x + den ≤ den * y := fun hxy => Nat.mul_le_mul_left den hxy
  have hup : den * (num / den + 1) = den * (num / den) + den := Nat.mul_succ _ _
  rcases lt_trichotomy (2 * (num % den)) den with hlt | heq | hgt
  · rw [roundEven_below hlt] at hj h
    rcases Nat.lt_or_gt_of_ne hj with hjt | hjt <;> have := hgap hjt <;> omega
  · exact roundEven_half heq
  · rw [roundEven_above hgt] at hj h
    rcases Nat.lt_or_gt_of_ne hj with hjt | hjt <;> have := hgap hjt <;> omega

theorem roundMag_eq {num den : Nat} (h : roundMag num den < 0x7F800000) :
    roundMag num den = roundShift num den * 2 ^ 23 + roundEven num (den * 2 ^ roundShift num den) := by
  unfold roundMag at *; omega

/-- Above the subnormals the exact value is at least 2^23 times the last bit kept. -/
theorem lastBit_mul_le {num den : Nat} (h : 0 < roundShift num den) : den * 2 ^ roundShift num den * 2 ^ 23 ≤ num :=
  le_trans (Nat.mul_le_mul_left _ (roundShift_pos h).1) (Nat.mul_div_le _ _)

/-- If another magnitude is as near, the pattern chosen is even (R75). A magnitude that is no multiple of the last bit kept lies
below 2^23 times that bit, which is nearer than it and no nearer than the bits kept. -/
theorem roundMag_tie {num den p : Nat} (hd : 0 < den) (h : roundMag num den < 0x7F800000) (hp : p ≠ roundMag num den)
    (heq : ((num : Int) - (den * magN p : Nat)).natAbs = ((num : Int) - (den * magN (roundMag num den) : Nat)).natAbs) :
    roundMag num den % 2 = 0 := by
  have hne : magN p ≠ magN (roundMag num den) := fun hc => hp (magN_strictMono.injective hc)
  rw [magN_roundMag h] at heq hne
  rw [roundMag_eq h]
  set k := roundShift num den with hk
  have hD : 0 < den * 2 ^ k := Nat.mul_pos hd (by positivity)
  have hassoc : ∀ j, den * (j * 2 ^ k) = den * 2 ^ k * j := fun j => by ring
  rw [hassoc] at heq
  by_cases hdv : 2 ^ k ∣ magN p
  · obtain ⟨j, hj⟩ := hdv
    rw [Nat.mul_comm] at hj
    rw [hj, hassoc] at heq
    have hjt : j ≠ roundEven num (den * 2 ^ k) := fun hc => hne (by rw [hj, hc])
    have := roundEven_tie hD hjt heq
    omega
  · have hk0 : 0 < k := Nat.pos_of_ne_zero fun h0 => hdv (by rw [h0]; simp)
    have hnear := roundEven_nearest num (den * 2 ^ k) (2 ^ 23) hD
    have hfloor : den * 2 ^ k * 2 ^ 23 ≤ num := lastBit_mul_le hk0
    have hsmall : den * magN p < den * 2 ^ k * 2 ^ 23 := by
      calc den * magN p < den * 2 ^ (k + 23) := Nat.mul_lt_mul_of_pos_left (magN_small hdv) hd
        _ = den * 2 ^ k * 2 ^ 23 := by ring
    omega

/-- Settles O47: patterns below the infinity's have the magnitudes `magN`, of which a tie picks an even one. -/
theorem tiesGoToEven : Obligations.TiesGoToEven := by
  intro num den p hd hp h hne heq
  rw [fMag_withSign false p (by omega), fMag_withSign false _ (by omega)] at heq
  exact roundMag_tie hd h hne heq

/-! ## Overflow -/

/-- Below m - 1/2 the bits kept stay below m. -/
theorem roundEven_lt {num den m : Nat} (h : 2 * num + den < 2 * (den * m)) : roundEven num den < m := by
  by_contra hge
  rw [not_lt] at hge
  have hdm := Nat.div_add_mod num den
  have hmul := Nat.mul_le_mul_left den hge
  rcases roundEven_cases num den with ht | ht
  · rw [ht] at hmul; omega
  · have hup : den * (num / den + 1) = den * (num / den) + den := Nat.mul_succ _ _
    rw [ht, hup] at hmul
    have := roundEven_below (num := num) (den := den) (by omega)
    omega

/-- The pattern is the infinity's exactly from (2^24 - 1/2) * 2^253 units on: below, the last bit kept is at most 2^253, and
with it at 2^253 at most 2^24 - 1 is kept. -/
theorem roundMag_eq_infinity_iff {num den : Nat} (hd : 0 < den) :
    roundMag num den = 0x7F800000 ↔ den * ((2 ^ 25 - 1) * 2 ^ 252) ≤ num := by
  constructor
  · intro h
    by_contra hlt
    rw [not_le] at hlt
    have hshift : roundShift num den ≤ 253 := by
      by_contra hk
      rw [not_le] at hk
      have hpow : 2 ^ 254 ≤ 2 ^ roundShift num den := Nat.pow_le_pow_right (by norm_num) hk
      have := Nat.mul_le_mul_left den hpow
      have := lastBit_mul_le (num := num) (den := den) (by omega)
      omega
    have hround := round_le num den
    have htop : roundShift num den = 253 → roundEven num (den * 2 ^ roundShift num den) < 2 ^ 24 := by
      intro hk
      rw [hk]
      exact roundEven_lt (by omega)
    unfold roundMag at h
    omega
  · intro h
    have hbound : roundMag ((2 ^ 25 - 1) * 2 ^ 252) 1 = 0x7F800000 := by decide +kernel
    have hmono := roundMag_mono Nat.one_pos hd (n := (2 ^ 25 - 1) * 2 ^ 252) (n' := num) (by
      rw [Nat.mul_one, Nat.mul_comm]; exact h)
    exact le_antisymm (roundMag_le _ _) (hbound ▸ hmono)

theorem classify_packRound_inf_iff (neg : Bool) (num den : Nat) :
    classify (packRound neg num den) = .inf neg ↔ roundMag num den = 0x7F800000 := by
  rcases classify_packRound neg num den with ⟨hlt, h⟩ | ⟨heq, h⟩
  · simp [h, hlt.ne]
  · simp [h, heq]

/-- Settles O48: the infinity's pattern is the only one that is not finite. -/
theorem overflowRoundsToInfinity : Obligations.OverflowRoundsToInfinity := fun neg num den hd =>
  (classify_packRound_inf_iff neg num den).trans (roundMag_eq_infinity_iff hd)

end Sys2Proof.Machine
end

section
/-! PROOF. The exact result of a primitive as a rational, and the sum, the difference, the product and the quotient as it rounded
once (40_numerics.md R74, R75, R78 to R80). -/

namespace Sys2Proof.Machine

/-! ## The rounded value and the exact one -/

/-- A value of the other sign is further from the exact one than zero is. -/
theorem abs_ratOf_sub_opposite (neg : Bool) {mag : Nat} (num den : Nat) (hm : 0 < mag) :
    |ratOf neg 0 - ratOf neg num / den| < |ratOf (!neg) mag - ratOf neg num / den| := by
  have hplus : |ratOf false 0 - ratOf false num / den| < |ratOf true mag - ratOf false num / den| := by
    have hx : 0 ≤ ratOf false num / den := div_nonneg (ratOf_false_nonneg num) (Nat.cast_nonneg den)
    have hy : ratOf true mag < 0 :=
      lt_of_le_of_ne (ratOf_true_nonpos mag) fun h => hm.ne' ((ratOf_eq_zero_iff true mag).1 h)
    rw [ratOf_zero, abs_of_nonpos (by linarith), abs_of_nonpos (by linarith)]
    linarith
  cases neg with
  | false => exact hplus
  | true =>
    rw [← abs_ratOf_sub_not true true 0, ← abs_ratOf_sub_not (!true) true mag]
    exact hplus

/-- The distance of a value from an exact one of the same sign is the integers', scaled. -/
theorem abs_ratOf_sub {num den : Nat} (hd : 0 < den) (neg : Bool) (mag : Nat) :
    |ratOf neg mag - ratOf neg num / den| = (((num : Int) - (den * mag : Nat)).natAbs : ℚ) / (den * 2 ^ 149) := by
  have hplus : |ratOf false mag - ratOf false num / den| =
      (((num : Int) - (den * mag : Nat)).natAbs : ℚ) / (den * 2 ^ 149) := by
    have hpos : (0 : ℚ) < den * 2 ^ 149 := by positivity
    have hunits : ratOf false mag - ratOf false num / den = -((num : ℚ) - den * mag) / (den * 2 ^ 149) := by
      rw [ratOf_false, ratOf_false]; field_simp; ring
    rw [hunits, abs_div, abs_neg, abs_of_pos hpos, Nat.cast_natAbs]
    push_cast; rfl
  cases neg with
  | false => exact hplus
  | true => exact (abs_ratOf_sub_not false false mag num den).trans hplus

/-- The bound on the exact value in units of 2^-149 (R75). -/
theorem overflowBound_le_iff {num den : Nat} (hd : 0 < den) (neg : Bool) :
    overflowBound ≤ |ratOf neg num / den| ↔ den * ((2 ^ 25 - 1) * 2 ^ 252) ≤ num := by
  have hd' : (0 : ℚ) < den := Nat.cast_pos.2 hd
  rw [abs_div, abs_ratOf, Nat.abs_cast, le_div_iff₀ hd', le_div_iff₀ (by positivity), overflowBound,
    ← Nat.cast_le (α := ℚ)]
  push_cast
  constructor <;> intro h <;> linarith

/-- A pattern's lowest bit is its magnitude pattern's. -/
theorem getLsbD_zero_withSign (neg : Bool) {p : Nat} (h : p < 2 ^ 31) :
    (withSign neg p).getLsbD 0 = decide (p % 2 = 1) := by
  rw [BitVec.getLsbD, withSign_toNat neg p h, Nat.testBit_zero]
  cases neg <;> simp [Nat.add_mod]

section
variable {num den : Nat} (neg : Bool) (hd : 0 < den)
include hd

/-- A rounded magnitude is nearer than every other of its sign, or as near and even (R75). -/
theorem packRound_nearer_same {p : Nat} (h : roundMag num den < 0x7F800000) (hp : p ≠ roundMag num den) :
    |ratOf neg (magN (roundMag num den)) - ratOf neg num / den| < |ratOf neg (magN p) - ratOf neg num / den| ∨
      |ratOf neg (magN (roundMag num den)) - ratOf neg num / den| = |ratOf neg (magN p) - ratOf neg num / den| ∧
        (packRound neg num den).getLsbD 0 = false := by
  have hscale : (0 : ℚ) < den * 2 ^ 149 := by positivity
  rw [abs_ratOf_sub hd, abs_ratOf_sub hd, div_lt_div_iff_of_pos_right hscale, div_left_inj' hscale.ne', Nat.cast_lt,
    Nat.cast_inj]
  rcases (roundMag_nearest p hd h).lt_or_eq with hlt | heq
  · exact .inl hlt
  · refine .inr ⟨heq, ?_⟩
    rw [packRound, getLsbD_zero_withSign neg (by omega), roundMag_tie hd h hp heq.symm]
    rfl

/-- The same against every finite value: one of the other sign is a zero, or further away than zero. -/
theorem packRound_nearer {c : Word} {nc : Bool} {mc : Nat} (h : roundMag num den < 0x7F800000)
    (hc : classify c = .fin nc mc) (hne : ratOf nc mc ≠ ratOf neg (magN (roundMag num den))) :
    |ratOf neg (magN (roundMag num den)) - ratOf neg num / den| < |ratOf nc mc - ratOf neg num / den| ∨
      |ratOf neg (magN (roundMag num den)) - ratOf neg num / den| = |ratOf nc mc - ratOf neg num / den| ∧
        (packRound neg num den).getLsbD 0 = false := by
  have hsame : ∀ p, ratOf neg (magN p) ≠ ratOf neg (magN (roundMag num den)) → p ≠ roundMag num den :=
    fun p hne heq => hne (by rw [heq])
  obtain ⟨p, -, -, rfl⟩ := eq_withSign_of_fin hc
  rcases Bool.eq_or_eq_not nc neg with rfl | rfl
  · exact packRound_nearer_same nc hd h (hsame p hne)
  have hzero : ratOf neg (magN 0) = 0 := ratOf_zero neg
  rcases Nat.eq_zero_or_pos (magN p) with hp | hp
  · rw [hp, ratOf_zero, ← hzero] at hne ⊢
    exact packRound_nearer_same neg hd h (hsame 0 hne)
  · refine .inl (lt_of_le_of_lt ?_ (abs_ratOf_sub_opposite neg num den hp))
    by_cases h0 : 0 = roundMag num den
    · rw [← h0]; rfl
    · rcases packRound_nearer_same neg hd h h0 with hlt | ⟨heq, -⟩
      · exact hlt.le
      · exact heq.le

/-- The one rounding gives the exact value rounded once (R75). -/
theorem roundsTo_packRound : RoundsTo (packRound neg num den) (ratOf neg num / den) := by
  have hneg : ratOf neg num / den < 0 → neg = true := fun h => by
    cases neg with
    | true => rfl
    | false => exact absurd h (not_lt.2 (div_nonneg (ratOf_false_nonneg num) (Nat.cast_nonneg den)))
  have hpos : 0 < ratOf neg num / den → neg = false := fun h => by
    cases neg with
    | false => rfl
    | true => exact absurd h (not_lt.2 (div_nonpos_of_nonpos_of_nonneg (ratOf_true_nonpos num) (Nat.cast_nonneg den)))
  unfold RoundsTo
  split
  next hbound =>
    have hzero : ratOf neg num / den ≠ 0 := fun h0 => by
      rw [h0, abs_zero, overflowBound] at hbound; norm_num at hbound
    have hsign : decide (ratOf neg num / den < 0) = neg := by
      rcases lt_or_gt_of_ne hzero with h | h
      · exact (decide_eq_true h).trans (hneg h).symm
      · exact (decide_eq_false h.not_gt).trans (hpos h).symm
    rw [overflowBound_le_iff hd, ← roundMag_eq_infinity_iff hd] at hbound
    rw [hsign, (classify_packRound_inf_iff neg num den).2 hbound]
  next hbound =>
    rw [overflowBound_le_iff hd, ← roundMag_eq_infinity_iff hd] at hbound
    have hfin : roundMag num den < 0x7F800000 := lt_of_le_of_ne (roundMag_le num den) hbound
    exact ⟨neg, _, classify_withSign neg _ hfin, hneg, hpos, fun c nc mc => packRound_nearer neg hd hfin⟩

end

/-! ## The primitives -/

theorem roundsTo_addFin (na nb : Bool) (ma mb : Nat) :
    RoundsTo (addFin na ma nb mb) (ratOf na ma + ratOf nb mb) := by
  by_cases hz : signed na ma + signed nb mb = 0
  · have hsum : ratOf na ma + ratOf nb mb = ratOf (na && nb) 0 / (1 : Nat) := by
      rw [ratOf_add, hz, ratOf_zero]; simp
    rw [addFin_cancel (by rw [hsum, ratOf_zero, zero_div]), hsum, ← packRound_zero_left _ 1]
    exact roundsTo_packRound _ Nat.one_pos
  · have h := roundsTo_packRound (signed na ma + signed nb mb < 0)
      (num := (signed na ma + signed nb mb).natAbs) Nat.one_pos
    rw [ratOf_natAbs, ← ratOf_add, Nat.cast_one, div_one] at h
    rw [addFin, if_neg hz]
    exact h

/-- Settles O43: the exact sum of signed magnitudes is what `addFin` rounds, and `fsub` flips the second sign. -/
theorem faddNearest : Obligations.FaddNearest := by
  intro a b na nb ma mb ha hb
  refine ⟨?_, ?_⟩
  · rw [fadd_fin_fin ha hb]
    exact roundsTo_addFin na nb ma mb
  · rw [fsub, fadd_fin_fin ha (classify_fneg_fin hb), sub_eq_add_neg, ← ratOf_not]
    exact roundsTo_addFin na (!nb) ma mb

/-- Settles O44: `fmul` rounds the product, which counts units of 2^-298. -/
theorem fmulNearest : Obligations.FmulNearest := by
  intro a b na nb ma mb ha hb
  rw [fmul_fin_fin ha hb, ratOf_mul]
  exact roundsTo_packRound (na != nb) (by positivity)

/-- Settles O45: `fdiv` rounds the quotient of the magnitudes, scaled to units of 2^-149. -/
theorem fdivNearest : Obligations.FdivNearest := by
  intro a b na nb ma mb ha hb hm
  rw [fdiv_fin_fin ha hb hm, ratOf_div]
  exact roundsTo_packRound (na != nb) (Nat.pos_of_ne_zero hm)

end Sys2Proof.Machine
end

section
/-! PROOF. The square root against the real one (40_numerics.md R75, R81). An inexact root lies strictly between r and r + 1, and no
midpoint of two magnitudes lies there, so what is nearest to r + 1/2 is nearest to the root. -/

namespace Sys2Proof.Machine

theorem magN_lt_of_finite {p : Nat} (h : p < 0x7F800000) : magN p < 2 ^ 24 * 2 ^ 253 :=
  lt_of_lt_of_eq (magN_strictMono h) (by decide +kernel)

/-- Two magnitudes do not lie evenly around r + 1/2 where the nearer one is the rounded: the sum would be odd, one of them so
below 2^24, and 2^24 itself nearer than both. -/
theorem magN_roundMag_add_ne {r : Nat} (p : Nat) (hr : 2 ^ 24 ≤ r) (h : roundMag (2 * r + 1) 2 < 0x7F800000) :
    magN (roundMag (2 * r + 1) 2) + magN p ≠ 2 * r + 1 := by
  intro hsum
  have hodd : ∀ q, magN q % 2 = 1 → magN q < 2 ^ 24 := fun q hq => magN_small (k := 1) (by omega)
  have hround := hodd (roundMag (2 * r + 1) 2)
  have hother := hodd p
  have hnear := roundMag_nearest (2 ^ 24) Nat.two_pos h
  rw [show magN (2 ^ 24) = 2 ^ 24 from rfl] at hnear
  omega

/-- What is nearer to r + 1/2 is nearer to every y between r and r + 1, unless the midpoint is r + 1/2 itself. -/
theorem abs_sub_le_of_between {r m m' : Nat} {y : ℝ} (hlo : (r : ℝ) < y) (hhi : y < r + 1) (hne : m + m' ≠ 2 * r + 1)
    (h : (((2 * r + 1 : Nat) : Int) - (2 * m : Nat)).natAbs ≤ (((2 * r + 1 : Nat) : Int) - (2 * m' : Nat)).natAbs) :
    |(m : ℝ) - y| ≤ |(m' : ℝ) - y| := by
  rcases lt_trichotomy m m' with hlt | rfl | hgt
  · have hmid : 2 * r + 2 ≤ m + m' := by omega
    have hmid' : (2 * r + 2 : ℝ) ≤ m + m' := by exact_mod_cast hmid
    have hlt' : (m : ℝ) < m' := Nat.cast_lt.2 hlt
    exact abs_le_abs (by linarith) (by linarith)
  · exact le_rfl
  · have hmid : m + m' ≤ 2 * r := by omega
    have hmid' : (m + m' : ℝ) ≤ 2 * r := by exact_mod_cast hmid
    have hgt' : (m' : ℝ) < m := Nat.cast_lt.2 hgt
    rw [abs_sub_comm (m : ℝ), abs_sub_comm (m' : ℝ)]
    exact abs_le_abs (by linarith) (by linarith)

/-- The root of a finite magnitude is far below the overflow. -/
theorem isqrt_lt {mag : Nat} (h : mag < 2 ^ 24 * 2 ^ 253) : isqrt (mag * 2 ^ 149) < 2 ^ 213 := by
  by_contra hge
  have hsq := Nat.mul_le_mul (not_lt.1 hge) (not_lt.1 hge)
  have := (isqrt_spec (mag * 2 ^ 149)).1
  omega

/-- The root of a positive magnitude has 75 bits before the point. -/
theorem le_isqrt {mag : Nat} (h : 0 < mag) : 2 ^ 24 ≤ isqrt (mag * 2 ^ 149) := by
  by_contra hlt
  have hle : isqrt (mag * 2 ^ 149) + 1 ≤ 2 ^ 24 := not_le.1 hlt
  have hsq := Nat.mul_le_mul hle hle
  have := (isqrt_spec (mag * 2 ^ 149)).2
  omega

theorem roundMag_finite {num den : Nat} (hd : 0 < den) (h : num < den * ((2 ^ 25 - 1) * 2 ^ 252)) :
    roundMag num den < 0x7F800000 :=
  lt_of_le_of_ne (roundMag_le num den) fun hc => (not_le.2 h) ((roundMag_eq_infinity_iff hd).1 hc)

section
variable {n r : Nat}

/-- An exact root, rounded, is a nearest value. -/
theorem exact_root_nearest (hr : r * r = n) (hfin : roundMag r 1 < 0x7F800000) (p : Nat) :
    |(magN (roundMag r 1) : ℝ) - √(n : ℝ)| ≤ |(magN p : ℝ) - √(n : ℝ)| := by
  have hroot : √(n : ℝ) = r := by
    rw [← hr, Nat.cast_mul, Real.sqrt_mul_self (Nat.cast_nonneg r)]
  have hdist : ∀ m : Nat, |(m : ℝ) - r| = (((r : Int) - (1 * m : Nat)).natAbs : ℝ) := fun m => by
    rw [Nat.cast_natAbs, abs_sub_comm]
    push_cast
    rw [one_mul]
  rw [hroot, hdist, hdist]
  exact_mod_cast roundMag_nearest p Nat.one_pos hfin

/-- Where the root is not exact, the rounding of r + 1/2 is a nearest value to it. -/
theorem inexact_root_nearest (hlo : r * r < n) (hhi : n < (r + 1) * (r + 1)) (hr : 2 ^ 24 ≤ r)
    (hfin : roundMag (2 * r + 1) 2 < 0x7F800000) (p : Nat) :
    |(magN (roundMag (2 * r + 1) 2) : ℝ) - √(n : ℝ)| ≤ |(magN p : ℝ) - √(n : ℝ)| := by
  have hlo' : (r : ℝ) < √(n : ℝ) := by
    rw [Real.lt_sqrt (Nat.cast_nonneg r), sq]
    exact_mod_cast hlo
  have hhi' : √(n : ℝ) < r + 1 := by
    rw [Real.sqrt_lt' (by positivity), sq]
    exact_mod_cast hhi
  exact abs_sub_le_of_between hlo' hhi' (magN_roundMag_add_ne p hr hfin) (roundMag_nearest p Nat.two_pos hfin)

end

/-- The rounded root of a positive finite magnitude is finite and a nearest magnitude, in units of 2^-149. -/
theorem sqrtFin_nearest {mag : Nat} (hm : 0 < mag) (hb : mag < 2 ^ 24 * 2 ^ 253) :
    ∃ m, classify (sqrtFin mag) = .fin false m ∧
      ∀ p, |(m : ℝ) - √((mag * 2 ^ 149 : Nat) : ℝ)| ≤ |(magN p : ℝ) - √((mag * 2 ^ 149 : Nat) : ℝ)| := by
  have hlt := isqrt_lt hb
  obtain ⟨hlo, hhi⟩ := isqrt_spec (mag * 2 ^ 149)
  rw [sqrtFin]
  by_cases hexact : isqrt (mag * 2 ^ 149) * isqrt (mag * 2 ^ 149) = mag * 2 ^ 149
  · have hfin := roundMag_finite (num := isqrt (mag * 2 ^ 149)) Nat.one_pos (by omega)
    rw [if_pos hexact]
    exact ⟨_, classify_withSign false _ hfin, exact_root_nearest hexact hfin⟩
  · have hfin := roundMag_finite (num := 2 * isqrt (mag * 2 ^ 149) + 1) Nat.two_pos (by omega)
    rw [if_neg hexact]
    exact ⟨_, classify_withSign false _ hfin, inexact_root_nearest (lt_of_le_of_ne hlo hexact) hhi (le_isqrt hm) hfin⟩

/-- The real root of a value, in units of 2^-149. -/
theorem sqrt_ratOf (mag : Nat) :
    √((ratOf false mag : ℚ) : ℝ) = √((mag * 2 ^ 149 : Nat) : ℝ) / 2 ^ 149 := by
  have hsq : ((ratOf false mag : ℚ) : ℝ) = ((mag * 2 ^ 149 : Nat) : ℝ) / (2 ^ 149) ^ 2 := by
    rw [cast_ratOf_false, Nat.cast_mul, Nat.cast_pow, Nat.cast_ofNat]
    field_simp
  rw [hsq, Real.sqrt_div (Nat.cast_nonneg _), Real.sqrt_sq (by positivity)]

theorem abs_ratOf_sub_sqrt (m mag : Nat) :
    |((ratOf false m : ℚ) : ℝ) - √((ratOf false mag : ℚ) : ℝ)| = |(m : ℝ) - √((mag * 2 ^ 149 : Nat) : ℝ)| / 2 ^ 149 := by
  rw [sqrt_ratOf, cast_ratOf_false, ← sub_div, abs_div, abs_of_pos (show (0 : ℝ) < 2 ^ 149 by positivity)]

/-- What is nearest to a y ≥ 0 among the values with sign bit 0 is nearest among all: zero is nearer than what lies below it. -/
theorem nearest_of_magnitudes {x y : ℝ} (hy : 0 ≤ y) (h : ∀ p, |x - y| ≤ |((ratOf false (magN p) : ℚ) : ℝ) - y|)
    {c : Word} {nc : Bool} {mc : Nat} (hc : classify c = .fin nc mc) : |x - y| ≤ |((ratOf nc mc : ℚ) : ℝ) - y| := by
  obtain ⟨p, -, -, rfl⟩ := eq_withSign_of_fin hc
  cases nc with
  | false => exact h p
  | true =>
    have hneg : ((ratOf true (magN p) : ℚ) : ℝ) ≤ 0 := by exact_mod_cast ratOf_true_nonpos (magN p)
    have hzero : ((ratOf false (magN 0) : ℚ) : ℝ) = 0 := by exact_mod_cast ratOf_zero false
    refine le_trans (h 0) ?_
    rw [hzero, abs_of_nonpos (by linarith), abs_of_nonpos (by linarith)]
    linarith

/-- Settles O46: the rounded root is nearest in units of 2^-149; the root of zero is itself. -/
theorem fsqrtNearest : Obligations.FsqrtNearest := by
  intro a c ma nc mc ha hc
  rcases Nat.eq_zero_or_pos ma with rfl | hm
  · refine ⟨false, 0, by rw [fsqrt_zero ha, classify_zero], ?_⟩
    rw [ratOf_zero, Rat.cast_zero, Real.sqrt_zero, sub_zero, abs_zero]
    exact abs_nonneg _
  · obtain ⟨p, hp, -, hmag⟩ := eq_withSign_of_fin ha
    obtain ⟨m, hclass, hnear⟩ := sqrtFin_nearest hm (hmag ▸ magN_lt_of_finite hp)
    refine ⟨false, m, by rw [fsqrt_fin ha hm.ne', if_neg Bool.false_ne_true, hclass], ?_⟩
    refine nearest_of_magnitudes (Real.sqrt_nonneg _) (fun p => ?_) hc
    rw [abs_ratOf_sub_sqrt, abs_ratOf_sub_sqrt]
    exact div_le_div_of_nonneg_right (hnear p) (by positivity)

end Sys2Proof.Machine
end

section
/-! PROOF. The conversions at the ends of the datapath: samples widened exactly, and values quantized (40_numerics.md R83 to
R85). -/

namespace Sys2Proof.Machine

/-! ## Widening -/

/-- A sample in units of 2^-149 is itself a magnitude (R83). -/
theorem classify_fcvtU8 : ∀ n : Byte, classify (fcvtU8 n) = .fin false (n.toNat * 2 ^ 149) := by decide +kernel

/-- Settles O52: n * 2^149 units of 2^-149 are n. -/
theorem fcvtU8Exact : Obligations.FcvtU8Exact := by
  refine ⟨fun n => ⟨n.toNat * 2 ^ 149, classify_fcvtU8 n, ?_⟩, by decide +kernel, by decide +kernel,
    by decide +kernel, by decide +kernel⟩
  rw [ratOf_false, Nat.cast_mul, Nat.cast_pow, Nat.cast_ofNat, mul_div_cancel_right₀ _ (by positivity)]

/-! ## Quantizing -/

/-- Saturating is clamping into 0..255 (R84). -/
theorem saturate_toNat (r : Int) : ((saturate r).toNat : Int) = max 0 (min 255 r) := by
  unfold saturate
  split
  · next h => rw [min_eq_right (by omega), max_eq_left h.le]; rfl
  · next h =>
    split
    · next h' => rw [min_eq_left (by omega)]; rfl
    · next h' =>
      rw [BitVec.toNat_ofNat, Nat.mod_eq_of_lt (by omega), Int.toNat_of_nonneg (by omega)]
      omega

theorem floor_abs_ratOf (neg : Bool) (mag : Nat) : ⌊|ratOf neg mag| + 1 / 2⌋ = (roundHalfUp mag : Int) := by
  have hunits : |ratOf neg mag| + 1 / 2 = ((mag + 2 ^ 148 : Nat) : ℚ) / ((2 ^ 149 : Nat) : ℚ) := by
    rw [abs_ratOf]; push_cast; ring
  rw [hunits, Rat.floor_natCast_div_natCast, roundHalfUp]; rfl

/-- `RHA` on the exact value (R84). -/
theorem rha_eq (neg : Bool) (mag : Nat) :
    rha neg mag = if neg then -⌊|ratOf neg mag| + 1 / 2⌋ else ⌊|ratOf neg mag| + 1 / 2⌋ := by
  rw [floor_abs_ratOf, rha, signed]

theorem q8_fin {x : Word} {neg : Bool} {mag : Nat} (h : classify x = .fin neg mag) :
    q8 x = saturate (rha neg mag) := by rw [q8, h]

/-- Settles O53: the integer saturated is `RHA`'s. -/
theorem quantizerRoundsAndSaturates : Obligations.QuantizerRoundsAndSaturates := by
  refine ⟨by decide +kernel, fun x => ⟨fun h => by rw [q8, h], fun h => by rw [q8, h], fun h => by rw [q8, h],
    fun neg mag h => ?_⟩⟩
  rw [q8_fin h, rha_eq]
  intro r
  refine ⟨fun hr => ?_, fun hr => ?_, fun hlo hhi => ?_⟩
  · exact if_pos hr
  · rw [saturate, if_neg (by omega), if_pos hr]
  · rw [saturate_toNat, min_eq_right hhi, max_eq_right hlo]

/-- The floor respects the order, so rounding passes the clamp (R85). -/
theorem floor_clamp (q : ℚ) : ⌊max 0 (min 255 q) + 1 / 2⌋ = max 0 (min 255 ⌊q + 1 / 2⌋) := by
  have hmono : Monotone fun q : ℚ => ⌊q + 1 / 2⌋ := fun _ _ h => Int.floor_mono (add_le_add_left h _)
  have h0 : ⌊(0 : ℚ) + 1 / 2⌋ = 0 := by norm_num
  have h255 : ⌊(255 : ℚ) + 1 / 2⌋ = 255 := by norm_num
  calc ⌊max 0 (min 255 q) + 1 / 2⌋ = max ⌊(0 : ℚ) + 1 / 2⌋ (min ⌊(255 : ℚ) + 1 / 2⌋ ⌊q + 1 / 2⌋) :=
        (hmono.map_max).trans (congrArg _ hmono.map_min)
    _ = max 0 (min 255 ⌊q + 1 / 2⌋) := by rw [h0, h255]

/-- Settles O54: above zero `RHA` is the floor that the clamp passes; from zero down both sides are 0. -/
theorem clampFirstAgrees : Obligations.ClampFirstAgrees := by
  intro x neg mag h
  rw [q8_fin h, saturate_toNat, rha_eq, floor_clamp]
  cases neg with
  | false => rw [abs_of_nonneg (ratOf_false_nonneg mag), if_neg Bool.false_ne_true]
  | true =>
    have hleft : (0 : Int) ≤ ⌊|ratOf true mag| + 1 / 2⌋ := Int.floor_nonneg.2 (by positivity)
    have hright : ⌊ratOf true mag + 1 / 2⌋ ≤ 0 :=
      Int.floor_le_iff.2 (by push_cast; linarith [ratOf_true_nonpos mag])
    rw [if_pos rfl, max_eq_left (by omega), max_eq_left (by omega)]

end Sys2Proof.Machine
end

section
/-! PROOF. The pixel step of a running command, with its frame, for TOYCBCR (10_state.md R22, R28; 41_toycbcr.md R91); and the
writes of a pixel in any order (41_toycbcr.md R92; 43_toxyz.md R109). -/

namespace Sys2Proof.Machine

/-! ## The pixel step -/

/-- The pixel step of every running command: memory and the snapshot as its pixel rule leaves them, `PIX` one more, and nothing
else changed (R28). -/
theorem exec_pixel_frame {s : State} {i : Instr} (h : Running s i) (hlt : s.regs.pix < npixOf i) :
    ∃ t, exec i s = .next t ∧ t.mem = pixelMem i s.mem s.regs.pix.toNat ∧
      t.regs.snap = pixelSnap i s.mem s.regs.pix.toNat ∧ t.regs.pix.toNat = s.regs.pix.toNat + 1 ∧
      t.regs = { s.regs with snap := t.regs.snap, pix := t.regs.pix } ∧ t = { s with regs := t.regs, mem := t.mem } := by
  have hl : s.regs.latched = some i := h.latched_eq
  rw [latched_n hl] at hlt
  have hstep := exec_pixel h hlt
  rw [pixelRule_latched hl] at hstep
  exact ⟨_, hstep, rfl, rfl, pix_succ hlt, rfl, rfl⟩

/-- TOYCBCR's outputs from the bytes of a pixel: a sample widened into `S` and narrowed again is the byte read (R22, R91). -/
theorem toycbcrOut_snapshot8 (mem : List Host.Cell) (buf p : Nat) :
    toycbcrOut (snapshot8 mem buf p) =
      let r := fcvtU8 (readByte mem (ea8 buf p 0))
      let g := fcvtU8 (readByte mem (ea8 buf p 1))
      let b := fcvtU8 (readByte mem (ea8 buf p 2))
      ⟨q8 (accY r g b), q8 (accCb r g b), q8 (accCr r g b)⟩ := by
  simp only [toycbcrOut, snapshot8, BitVec.setWidth_setWidth_of_le _ (by decide : 8 ≤ 32), BitVec.setWidth_eq]

/-- Settles O11: the frame of the pixel step, whose memory is the byte pixel stored. -/
theorem toycbcrPixelStep : Obligations.ToycbcrPixelStep := by
  intro buf npix s h hlt
  obtain ⟨t, hexec, hmem, hsnap, hpix, hregs, hframe⟩ := exec_pixel_frame h hlt
  have hstored : t.mem = storePixel8 s.mem buf.toNat s.regs.pix.toNat
      (toycbcrOut (snapshot8 s.mem buf.toNat s.regs.pix.toNat)) := hmem
  rw [toycbcrOut_snapshot8] at hstored
  obtain ⟨hY, hCb, hCr⟩ := channels_of_storePixel8 (m := t.mem) fun a _ => congrArg (readByte · a) hstored
  refine ⟨t, hexec, hY, hCb, hCr, fun a h0 h1 h2 => ?_, hsnap, hpix, hregs, hframe⟩
  rw [hstored, readByte_storePixel8]
  exact (if_neg h2).trans ((if_neg h1).trans (if_neg h0))

/-! ## Writes in any order -/

/-- Memory after some byte writes, the first of the list first. -/
def writeCells (mem : List Host.Cell) (ws : List Host.Cell) : List Host.Cell :=
  ws.foldl (fun m c => writeByte m c.1 c.2) mem

/-- A memory after byte writes, seen as a function of the address, is the function updated at each address in turn. -/
theorem readByte_writeCells (mem ws : List Host.Cell) :
    readByte (writeCells mem ws) = ws.foldl (fun f c => Function.update f c.1 c.2) (readByte mem) := by
  refine (List.foldl_hom readByte fun m c => funext fun x => ?_).symm
  rw [Function.update_apply, readByte_writeByte]

/-- Byte writes to different addresses can be made in any order. -/
theorem readByte_writeCells_perm (mem : List Host.Cell) {ws ws' : List Host.Cell} (h : ws.Perm ws')
    (hne : (ws'.map Prod.fst).Nodup) : readByte (writeCells mem ws) = readByte (writeCells mem ws') := by
  rw [readByte_writeCells, readByte_writeCells]
  refine (h.symm.foldl_eq' (fun c hc d hd f => ?_) _).symm
  by_cases hcd : c.1 = d.1
  · rw [List.inj_on_of_nodup_map hne hc hd hcd]
  · exact Function.update_comm hcd _ _ _

/-- The four byte writes that a float write is (R36). -/
def elementCells (w : Nat × Word) : List Host.Cell :=
  [(w.1, w.2.extractLsb' 0 8), (w.1 + 1, w.2.extractLsb' 8 8), (w.1 + 2, w.2.extractLsb' 16 8),
    (w.1 + 3, w.2.extractLsb' 24 8)]

theorem foldl_write32 (mem : List Host.Cell) (ws : List (Nat × Word)) :
    ws.foldl (fun m c => write32 m c.1 c.2) mem = writeCells mem (ws.flatMap elementCells) := by
  rw [writeCells, List.foldl_flatMap]
  rfl

/-- The float writes of a pixel, with the addresses written out (R38). -/
theorem storePixel32_eq (mem : List Host.Cell) (b i : Nat) (o : Out32) :
    storePixel32 mem b i o =
      writeCells mem
        ([(b + 12 * i + 0, o.c0), (b + 12 * i + 4, o.c1), (b + 12 * i + 8, o.c2)].flatMap elementCells) := by
  have hea : ∀ c, ea32 b i c = b + 12 * i + 4 * c := fun c => by simp only [ea32]; omega
  rw [← foldl_write32, storePixel32, hea, hea, hea]
  rfl

/-- Settles O18: both pixels are byte writes to different addresses, 3 or 12 of them. -/
theorem writeOrderIrrelevant : Obligations.WriteOrderIrrelevant := by
  constructor
  · intro mem b i o ws h a
    exact congrFun (readByte_writeCells_perm mem h (by simp)) a
  · intro mem b i o ws h a
    have hcells := h.flatMap_right elementCells
    rw [foldl_write32, storePixel32_eq]
    exact congrFun (readByte_writeCells_perm mem hcells (by simp [elementCells, Nat.add_assoc])) a

end Sys2Proof.Machine
end

section
/-! PROOF. The gamma helpers outside the expected range (42_gamma.md R99, R102). Above 1 the lower bound of the argument is
carried through branch C, one primitive at a time; elsewhere the operand kinds decide. -/

namespace Sys2Proof.Machine

/-! ## Lower bounds -/

theorem one_lt_ratOf_iff (mag : Nat) : 1 < ratOf false mag ↔ 2 ^ 149 < mag := by
  rw [ratOf_false, one_lt_div (by positivity)]
  exact_mod_cast Iff.rfl

theorem magN_one : magN 0x3F800000 = 2 ^ 149 := by decide +kernel

/-- The values above 1 start at the pattern after 1's. -/
theorem aboveOne_iff_atLeast {w : Word} : AboveOne w ↔ AtLeast w (magN 0x3F800001) := by
  refine or_congr_right (exists_congr fun mag => and_congr_right fun hw => ?_)
  obtain ⟨p, -, -, rfl⟩ := eq_withSign_of_fin hw
  rw [one_lt_ratOf_iff, ← magN_one, magN_strictMono.lt_iff_lt, magN_strictMono.le_iff_le, Nat.succ_le_iff]

/-- A pattern at its lower bound is that bound's; any other keeps the next one. -/
theorem atLeast_succ {w : Word} {p : Nat} (h : AtLeast w (magN p)) (hne : w ≠ withSign false p) :
    AtLeast w (magN (p + 1)) := by
  refine h.imp_right fun ⟨k, hw, hle⟩ => ⟨k, hw, ?_⟩
  obtain ⟨q, -, rfl, rfl⟩ := eq_withSign_of_fin hw
  have hpq : p ≠ q := fun hc => hne (by rw [hc])
  exact magN_strictMono.monotone (lt_of_le_of_ne (magN_strictMono.le_iff_le.1 hle) hpq)

/-- What `fmul` keeps of two lower bounds (R79). -/
theorem fmul_atLeast_of_atLeast {a b : Word} {ma mb p0 : Nat} (ha : AtLeast a ma) (hb : AtLeast b mb) (hma : 0 < ma)
    (hmb : 0 < mb) (hp : roundMag (ma * mb) (2 ^ 149) = p0) : AtLeast (fmul a b) (magN p0) := by
  rcases ha with ha | ⟨k, ha, hle⟩ <;> rcases hb with hb | ⟨j, hb, hle'⟩
  · exact .inl (by rw [fmul_inf_inf ha hb]; exact classify_infinity _)
  · exact .inl (by rw [fmul_inf_fin ha hb, if_neg (by omega)]; exact classify_infinity _)
  · exact .inl (by rw [fmul_fin_inf ha hb, if_neg (by omega)]; exact classify_infinity _)
  · rw [fmul_fin_fin ha hb]
    exact packRound_atLeast (by positivity) (by positivity) (Nat.mul_le_mul_right _ (Nat.mul_le_mul hle hle')) hp

/-! ## The branch taken -/

theorem fle_false_of_atLeast {a b : Word} {m mb : Nat} (ha : AtLeast a m) (hb : classify b = .fin false mb)
    (hlt : mb < m) : fle a b = false := by
  rcases ha with ha | ⟨k, ha, hle⟩
  · rw [fle, ha, hb]; rfl
  · rw [fle, ha, hb]
    exact decide_eq_false (by simp only [signed, Bool.false_eq_true, if_false]; omega)

theorem fle_of_nonpos {a b : Word} {n : Bool} {m mb : Nat} (ha : classify a = .fin n m) (hle : ratOf n m ≤ 0)
    (hb : classify b = .fin false mb) : fle a b = true := by
  rw [fle, ha, hb, leVal_fin]
  exact hle.trans (ratOf_false_nonneg mb)

theorem fle_negInf {a b : Word} {nb : Bool} {mb : Nat} (ha : classify a = .inf true) (hb : classify b = .fin nb mb) :
    fle a b = true := by rw [fle, ha, hb]; rfl

theorem fle_nan {a b : Word} (ha : classify a = .nan) : fle a b = false := leVal_nan (.inl ha)

theorem classify_l0_2 : classify Lit.l0_2 = .fin false (magN 0x3E4CCCCD) := by decide +kernel

theorem classify_l0_6 : classify Lit.l0_6 = .fin false (magN 0x3F19999A) := by decide +kernel

theorem classify_l0_125 : classify Lit.l0_125 = .fin false (magN 0x3E000000) := by decide +kernel

theorem classify_l0_04 : classify Lit.l0_04 = .fin false (magN 0x3D23D70A) := by decide +kernel

theorem classify_l0_31 : classify Lit.l0_31 = .fin false (magN 0x3E9EB852) := by decide +kernel

theorem classify_l256 : classify Lit.l256 = .fin false (magN 0x43800000) := by decide +kernel

theorem classify_l33 : classify Lit.l33 = .fin false (magN 0x42040000) := by decide +kernel

theorem classify_l1 : classify Lit.l1 = .fin false (magN 0x3F800000) := by decide +kernel

theorem classify_l16 : classify Lit.l16 = .fin false (magN 0x41800000) := by decide +kernel

section
variable {v : Word}

theorem gammaForward_of_fle (h : fle v Lit.l0_2 = true) : gammaForward v = fmul v v := by
  rw [gammaForward, if_pos h, gammaForwardA]

theorem gammaForward_of_not_fle (h : fle v Lit.l0_2 = false) (h' : fle v Lit.l0_6 = false) :
    gammaForward v = gammaForwardC v := by
  rw [gammaForward, h, h']; rfl

theorem gammaForward_of_aboveOne (h : AboveOne v) : gammaForward v = gammaForwardC v := by
  have hv := aboveOne_iff_atLeast.1 h
  exact gammaForward_of_not_fle (fle_false_of_atLeast hv classify_l0_2 (magN_strictMono (by norm_num)))
    (fle_false_of_atLeast hv classify_l0_6 (magN_strictMono (by norm_num)))

theorem gammaReverse_of_fle (h : fle v Lit.l0_04 = true) : gammaReverse v = fsqrt v := by
  rw [gammaReverse, if_pos h, gammaReverseA]

theorem gammaReverse_of_not_fle (h : fle v Lit.l0_04 = false) (h' : fle v Lit.l0_31 = false) :
    gammaReverse v = gammaReverseC v := by
  rw [gammaReverse, h, h']; rfl

theorem gammaReverse_of_aboveOne (h : AboveOne v) : gammaReverse v = gammaReverseC v := by
  have hv := aboveOne_iff_atLeast.1 h
  exact gammaReverse_of_not_fle (fle_false_of_atLeast hv classify_l0_04 (magN_strictMono (by norm_num)))
    (fle_false_of_atLeast hv classify_l0_31 (magN_strictMono (by norm_num)))

/-! ## Branch C -/

theorem gammaForwardC_nan (h : classify v = .nan) : gammaForwardC v = qnan := by
  rw [gammaForwardC, fmul_nan (.inl h), fadd_nan (.inl classify_qnan), fsub, fadd_nan (.inl classify_qnan)]

theorem gammaForwardC_inf (h : classify v = .inf false) : gammaForwardC v = infinity false := by
  have hsquare : fmul v v = infinity false := by rw [fmul_inf_inf h h]; rfl
  have heighth : fmul Lit.l0_125 v = infinity false := by
    rw [fmul_fin_inf classify_l0_125 h, if_neg (by decide +kernel)]; rfl
  rw [gammaForwardC, hsquare, heighth, fadd_inf_inf (classify_infinity _) (classify_infinity _), if_pos rfl, fsub,
    fadd_inf_fin (classify_infinity _) (classify_fneg_fin classify_l0_125)]

/-- From 1 + 2^-23 on: the square is at least 1 + 2^-22, and so is the result. -/
theorem gammaForwardC_atLeast (h : AtLeast v (magN 0x3F800001)) : AtLeast (gammaForwardC v) (magN 0x3F800002) := by
  have hsquare : AtLeast (fmul v v) (magN 0x3F800002) :=
    fmul_atLeast_of_atLeast h h (by decide +kernel) (by decide +kernel) (by decide +kernel)
  have heighth : AtLeast (fmul Lit.l0_125 v) (magN 0x3E000001) :=
    fmul_atLeast classify_l0_125 (by decide +kernel) h (by decide +kernel)
  have hsum : AtLeast (fadd (fmul v v) (fmul Lit.l0_125 v)) (magN 0x3F900002) :=
    fadd_atLeast hsquare heighth (by decide +kernel) (by decide +kernel)
  exact fsub_atLeast hsum classify_l0_125 (magN_strictMono (by norm_num)) (by decide +kernel)

theorem gammaReverseC_nan (h : classify v = .nan) : gammaReverseC v = qnan := by
  rw [gammaReverseC, fmul_nan (.inr h), fadd_nan (.inl classify_qnan), fsqrt_nan classify_qnan, fsub,
    fadd_nan (.inl classify_qnan), fdiv_nan (.inl classify_qnan)]

theorem gammaReverseC_inf (h : classify v = .inf false) : gammaReverseC v = infinity false := by
  have hscaled : fmul Lit.l256 v = infinity false := by
    rw [fmul_fin_inf classify_l256 h, if_neg (by decide +kernel)]; rfl
  have hroot : fsqrt (infinity false) = infinity false := fsqrt_inf (classify_infinity false)
  rw [gammaReverseC, hscaled, fadd_inf_fin (classify_infinity _) classify_l33, hroot, fsub,
    fadd_inf_fin (classify_infinity _) (classify_fneg_fin classify_l1),
    fdiv_inf_fin (classify_infinity _) classify_l16]
  rfl

/-- From 1 + 2^-22 on: the radicand is at least 289 + 2^-14, whose root rounds up to 17 + 2^-19, and the result is at least
1 + 2^-23. One pattern lower the root rounds to 17. -/
theorem gammaReverseC_atLeast (h : AtLeast v (magN 0x3F800002)) : AtLeast (gammaReverseC v) (magN 0x3F800001) := by
  have hscaled : AtLeast (fmul Lit.l256 v) (magN 0x43800002) :=
    fmul_atLeast classify_l256 (by decide +kernel) h (by decide +kernel)
  have hradicand : AtLeast (fadd (fmul Lit.l256 v) Lit.l33) (magN 0x43908002) :=
    fadd_atLeast hscaled (.inr ⟨_, classify_l33, le_rfl⟩) (by decide +kernel) (by decide +kernel)
  have hroot : AtLeast (fsqrt (fadd (fmul Lit.l256 v) Lit.l33)) (magN 0x41880001) :=
    fsqrt_atLeast (h := isqrt (4 * (magN 0x43908002 * 2 ^ 149))) hradicand (by decide +kernel) (isqrt_spec _).1
      (by decide +kernel)
  have hless : AtLeast (fsub (fsqrt (fadd (fmul Lit.l256 v) Lit.l33)) Lit.l1) (magN 0x41800001) :=
    fsub_atLeast hroot classify_l1 (magN_strictMono (by norm_num)) (by decide +kernel)
  exact fdiv_atLeast hless classify_l16 (by decide +kernel) (by decide +kernel)

end

/-! ## The functions -/

theorem eq_zero_of_classify {v : Word} {n : Bool} (h : classify v = .fin n 0) : v = zero n := by
  obtain ⟨p, -, rfl, hp⟩ := eq_withSign_of_fin h
  rw [zero, magN_strictMono.injective (show magN 0 = magN p from hp)]

/-- Settles O56: branch A below zero, branch C above 1 with its lower bound, and the infinities and NaN as operands. -/
theorem gammaForwardTotal : Obligations.GammaForwardTotal := by
  refine fun v => ⟨rfl, fun m h => ?_, fun h => ?_, fun n h => ?_, fun h => ?_⟩
  · have hA := gammaForward_of_fle (fle_of_nonpos h (ratOf_true_nonpos m) classify_l0_2)
    refine ⟨hA, ?_⟩
    rw [hA, fmul_fin_fin h h]
    rcases classify_packRound false (m * m) (2 ^ 149) with ⟨-, hfin⟩ | ⟨-, hinf⟩
    · exact .inr ⟨_, hfin⟩
    · exact .inl hinf
  · rw [gammaForward_of_aboveOne h, aboveOne_iff_atLeast]
    exact (gammaForwardC_atLeast (aboveOne_iff_atLeast.1 h)).imp_right fun ⟨k, hk, hle⟩ =>
      ⟨k, hk, (magN_succ 0x3F800001).le.trans hle⟩
  · cases n with
    | true => rw [gammaForward_of_fle (fle_negInf h classify_l0_2), fmul_inf_inf h h]; rfl
    | false => rw [gammaForward_of_aboveOne (.inl h), gammaForwardC_inf h]; rfl
  · rw [gammaForward_of_not_fle (fle_nan h) (fle_nan h), gammaForwardC_nan h]; rfl

/-- Settles O57: branch A up to zero, branch C above 1 with its lower bound, one pattern later than 1's next, and +inf and NaN as
operands. -/
theorem gammaReverseTotal : Obligations.GammaReverseTotal := by
  refine fun v => ⟨rfl, fun m hm h => ?_, fun h => ?_, fun n h => ?_, fun h hne => ?_, fun h => ?_, fun h => ?_,
    fun h => ?_⟩
  · rw [gammaReverse_of_fle (fle_of_nonpos h (ratOf_true_nonpos m) classify_l0_04), fsqrt_fin h hm]; rfl
  · rw [gammaReverse_of_fle (fle_negInf h classify_l0_04), fsqrt_inf h]; rfl
  · rw [gammaReverse_of_fle (fle_of_nonpos h (ratOf_zero n).le classify_l0_04), fsqrt_zero h]
    exact (eq_zero_of_classify h).symm
  · rw [gammaReverse_of_aboveOne h, aboveOne_iff_atLeast]
    exact gammaReverseC_atLeast (atLeast_succ (aboveOne_iff_atLeast.1 h) hne)
  · rw [h]; decide +kernel
  · rw [gammaReverse_of_aboveOne (.inl h), gammaReverseC_inf h]; rfl
  · rw [gammaReverse_of_not_fle (fle_nan h) (fle_nan h), gammaReverseC_nan h]; rfl

end Sys2Proof.Machine
end

section
/-! PROOF. The pixel of TOXYZ: its step, with its frame, and what a NaN sample and a black pixel give (43_toxyz.md R106, R108,
R110); and what a NaN does to a pixel of TORGBFROMXYZ (44_torgbfromxyz.md R117). -/

namespace Sys2Proof.Machine

/-! ## The pixel step of TOXYZ -/

/-- An element's address with the pixel's 12 bytes counted out (R38). -/
theorem ea32_eq (b i c : Nat) : ea32 b i c = b + 12 * i + 4 * c := by rw [ea32]; omega

/-- Settles O12: the frame of the pixel step, whose memory is the float pixel stored. -/
theorem toxyzPixelStep : Obligations.ToxyzPixelStep := by
  intro buf npix m s h hlt
  simp only [← ea32_eq]
  obtain ⟨t, hexec, hmem, hsnap, hpix, hregs, hframe⟩ := exec_pixel_frame h hlt
  have hstored : t.mem = storePixel32 s.mem buf.toNat s.regs.pix.toNat
      (toxyzOut m (snapshot32 s.mem buf.toNat s.regs.pix.toNat)) := hmem
  obtain ⟨hX, hY, hZ⟩ := elements_of_storePixel32 (m := t.mem) fun a _ => congrArg (readByte · a) hstored
  refine ⟨t, hexec, hX, hY, hZ, fun a ha => ?_, hsnap, hpix, hregs, hframe⟩
  rw [hstored]
  exact readByte_storePixel32_outside _ _ ha

/-! ## A NaN in the pixel -/

/-- A NaN among three terms is the sum's, wherever it enters (R86). -/
theorem fadd_fadd_nan {p q r : Word} (h : classify p = .nan ∨ classify q = .nan ∨ classify r = .nan) :
    fadd (fadd p q) r = qnan := by
  rcases or_assoc.2 h with hpq | hr
  · rw [fadd_nan hpq, fadd_nan (.inl classify_qnan)]
  · exact fadd_nan (.inr hr)

theorem classify_fmul_nan (a : Word) {x : Word} (h : classify x = .nan) : classify (fmul a x) = .nan := by
  rw [fmul_nan (.inr h), classify_qnan]

theorem classify_linearise_nan {v : Word} (h : classify v = .nan) : classify (linearise v) = .nan := by
  have hv : classify (fdiv v Lit.l255) = .nan := by rw [fdiv_nan (.inl h), classify_qnan]
  rw [linearise, gammaForward_of_not_fle (fle_nan hv) (fle_nan hv), gammaForwardC_nan hv, classify_qnan]

theorem encode8_nan {v : Word} (h : classify v = .nan) : encode8 v = 0#8 := by
  rw [encode8, gammaReverse_of_not_fle (fle_nan h) (fle_nan h), gammaReverseC_nan h, fmul_nan (.inl classify_qnan), q8,
    classify_qnan]

section
variable {x y z : Word} (h : classify x = .nan ∨ classify y = .nan ∨ classify z = .nan)
include h

/-- A NaN channel makes every row of the matrix `QNAN`, a zero coefficient included (R108). -/
theorem matrixRow_nan (a b c : Word) : matrixRow a b c x y z = qnan :=
  fadd_fadd_nan (h.imp3 (classify_fmul_nan a) (classify_fmul_nan b) (classify_fmul_nan c))

theorem linR_nan : linR x y z = qnan :=
  fadd_fadd_nan (h.imp3 (classify_fmul_nan _) (fun hy => classify_fneg_nan (classify_fmul_nan _ hy))
    fun hz => classify_fneg_nan (classify_fmul_nan _ hz))

theorem linG_nan : linG x y z = qnan := matrixRow_nan h _ _ _

theorem linB_nan : linB x y z = qnan :=
  fadd_fadd_nan (h.imp3 (classify_fmul_nan _) (fun hy => classify_fneg_nan (classify_fmul_nan _ hy))
    (classify_fmul_nan _))

end

/-- Settles O59: each row has a NaN term, through `gammaForward` in TOXYZ; in TORGBFROMXYZ `Q8` of a NaN is 0. -/
theorem nanPoisonsPixel : Obligations.NanPoisonsPixel := by
  refine fun m p h => ⟨?_, ?_⟩
  · have hlin := h.imp3 classify_linearise_nan classify_linearise_nan classify_linearise_nan
    rw [toxyzOut, matrixRow_nan hlin, matrixRow_nan hlin, matrixRow_nan hlin]
    rfl
  · rw [torgbOut, linR_nan h, linG_nan h, linB_nan h, encode8_nan classify_qnan]

/-! ## The black pixel -/

theorem linearise_black : linearise 0#32 = zero false := by decide +kernel

/-- A finite coefficient's product with +0 is a zero of its sign (R79). -/
theorem fmul_zero_fin {c : Word} {n : Bool} {k : Nat} (h : classify c = .fin n k) : fmul c (zero false) = zero n := by
  rw [fmul_fin_fin h (classify_zero false), Nat.mul_zero, packRound_zero_left, Bool.bne_false]

theorem classify_fmul_zero_notFinite {c : Word} (h : classify c = .nan ∨ ∃ n, classify c = .inf n) :
    classify (fmul c (zero false)) = .nan := by
  rcases h with hnan | ⟨n, hinf⟩
  · rw [fmul_nan (.inl hnan), classify_qnan]
  · rw [fmul_inf_fin hinf (classify_zero false), if_pos rfl, classify_qnan]

/-- The sum of two zeros is -0 only if both are (R78). -/
theorem fadd_zero_zero (n k : Bool) : fadd (zero n) (zero k) = zero (n && k) := by
  rw [fadd_fin_fin (classify_zero n) (classify_zero k), addFin_cancel (by rw [ratOf_zero, ratOf_zero, add_zero])]

/-- Settles O60: a finite coefficient's term is a zero of its sign, and -0 needs all three; any other coefficient's is a NaN. -/
theorem blackPixelGivesZero : Obligations.BlackPixelGivesZero := by
  refine ⟨fun m0 m1 m2 n0 n1 n2 k0 k1 k2 h0 h1 h2 => ?_, fun m0 m1 m2 c hc h => ?_⟩ <;> rw [linearise_black]
  · rw [matrixRow, fmul_zero_fin h0, fmul_zero_fin h1, fmul_zero_fin h2, fadd_zero_zero, fadd_zero_zero, zero_eq]
  · have hterm := classify_fmul_zero_notFinite h
    rcases hc with rfl | rfl | rfl
    · exact fadd_fadd_nan (.inl hterm)
    · exact fadd_fadd_nan (.inr (.inl hterm))
    · exact fadd_fadd_nan (.inr (.inr hterm))

end Sys2Proof.Machine
end

section
/-! PROOF. The pixel of TORGBFROMXYZ: its step, with its frame (44_torgbfromxyz.md R114), and the byte that a linear value outside
[0, 1] gives (R116). -/

namespace Sys2Proof.Machine

/-! ## The pixel step of TORGBFROMXYZ -/

/-- Settles O13: the frame of the pixel step, whose memory is the byte pixel stored at A1 from the elements at A0. -/
theorem torgbfromxyzPixelStep : Obligations.TorgbfromxyzPixelStep := by
  intro inp out npix s h hlt
  simp only [← ea32_eq]
  obtain ⟨t, hexec, hmem, hsnap, hpix, hregs, hframe⟩ := exec_pixel_frame h hlt
  have hstored : t.mem = storePixel8 s.mem out.toNat s.regs.pix.toNat
      (torgbOut (snapshot32 s.mem inp.toNat s.regs.pix.toNat)) := hmem
  obtain ⟨hR, hG, hB⟩ := channels_of_storePixel8 (m := t.mem) fun a _ => congrArg (readByte · a) hstored
  refine ⟨t, hexec, hR, hG, hB, fun a h0 h1 h2 => ?_, hsnap, hpix, hregs, hframe⟩
  rw [hstored]
  exact readByte_storePixel8_outside _ _ (by simp only [ea8]; omega)

/-! ## Out of gamut -/

theorem classify_l255 : classify Lit.l255 = .fin false (magN 0x437F0000) := by decide +kernel

theorem magN_l255 : magN 0x437F0000 = 255 * 2 ^ 149 := by decide +kernel

theorem saturate_of_le {r : Int} (h : 255 ≤ r) : saturate r = 255#8 := by
  have hbyte := saturate_toNat r
  rw [min_eq_left h] at hbyte
  exact BitVec.eq_of_toNat_eq (Int.ofNat_inj.1 hbyte)

/-- From 255 up the quantizer saturates (R84). -/
theorem q8_of_atLeast {x : Word} (h : AtLeast x (magN 0x437F0000)) : q8 x = 255#8 := by
  rcases h with hinf | ⟨k, hfin, hle⟩
  · rw [q8, hinf]
  · rw [q8_fin hfin]
    rw [magN_l255] at hle
    refine saturate_of_le ?_
    simp only [rha, signed, roundHalfUp, Bool.false_eq_true, if_false]
    omega

/-- `gammaReverse` takes no value above 1 below 1, the one it takes to 1 included (R102; log entry 28). -/
theorem gammaReverse_atLeast_one {v : Word} (h : AboveOne v) : AtLeast (gammaReverse v) (magN 0x3F800000) := by
  obtain ⟨_, _, _, _, habove, hone, _, _⟩ := gammaReverseTotal v
  by_cases hv : v = 0x3F800001#32
  · rw [hone hv]
    exact .inr ⟨_, classify_l1, le_rfl⟩
  · exact (aboveOne_iff_atLeast.1 (habove h hv)).imp_right fun ⟨k, hk, hle⟩ =>
      ⟨k, hk, (magN_succ 0x3F800000).le.trans hle⟩

theorem encode8_of_aboveOne {v : Word} (h : AboveOne v) : encode8 v = 255#8 :=
  q8_of_atLeast (fmul_atLeast_of_atLeast (gammaReverse_atLeast_one h) (.inr ⟨_, classify_l255, le_rfl⟩)
    (by decide +kernel) (by decide +kernel) (by decide +kernel))

/-- `fsqrt` of a negative value is NaN, which the quantizer takes to 0 (R116). -/
theorem encode8_of_negative {v : Word} {m : Nat} (h : classify v = .fin true m) (hm : m ≠ 0) : encode8 v = 0#8 := by
  obtain ⟨_, hneg, _⟩ := gammaReverseTotal v
  have hnan : gammaReverse v = qnan := hneg m hm h
  rw [encode8, hnan, fmul_nan (.inl classify_qnan), q8, classify_qnan]

/-- Settles O58: the value's sign tells the case, NaN below zero and a product of at least 255 above 1. -/
theorem outOfGamutClamped : Obligations.OutOfGamutClamped := by
  refine fun v neg m h => ⟨fun hlt => ?_, fun hgt => ?_⟩
  · cases neg with
    | false => exact absurd hlt (ratOf_false_nonneg m).not_gt
    | true => exact encode8_of_negative h fun hm => hlt.ne ((ratOf_eq_zero_iff true m).2 hm)
  · cases neg with
    | false => exact encode8_of_aboveOne (.inr ⟨m, h, hgt⟩)
    | true => exact absurd hgt ((ratOf_true_nonpos m).trans zero_le_one).not_gt

end Sys2Proof.Machine
end

section
/-! PROOF. Reset and progress: what a reset leaves of memory, the packet presented after it, and the next step of a running
command left alone (70_reset_and_hazards.md R137 to R142, R150). -/

namespace Sys2Proof.Machine

/-! ## The next step of a running command -/

/-- Settles O24: the invariant gives a running command with `PIX` not past its count, so `exec` takes a pixel step or completes. -/
theorem busyBlockProgresses : Obligations.BusyBlockProgresses := by
  intro s hs hp hr he
  obtain ⟨_, _, _, hw, _, _⟩ := inv_iff.1 hs
  obtain ⟨hle, i, hi⟩ := busyWf_iff.1 hw hp
  have hstep := step_running hi hr he
  by_cases hlt : s.regs.pix < s.regs.n
  · have hpixel := exec_pixel hi hlt
    rw [pixelRule_latched hi.latched_eq] at hpixel
    exact ⟨_, hstep.trans hpixel, .inl ⟨hlt, hp, pix_succ hlt⟩⟩
  · have hn : s.regs.pix = s.regs.n := BitVec.le_antisymm hle (BitVec.not_lt.1 hlt)
    exact ⟨_, hstep.trans (exec_complete hi hn), .inr ⟨hn, rfl, rfl⟩⟩

/-! ## The reset -/

/-- Settles O26: the input `reset` sets `RST`, and with `RST` set every step is the reset. -/
theorem resetTakesPriority : Obligations.ResetTakesPriority :=
  ⟨fun _ _ hr he => step_input hr he,
    fun _ hr => ⟨_, step_reset hr, rfl, rfl, rfl, rfl, rfl, rfl, rfl, rfl, rfl⟩⟩

/-- A step with a reset requested leaves the memory of a reset. -/
theorem mem_of_step_reset {s t : State} (hr : s.rst = true) (h : step s = .next t) : t.mem = resetMem s := by
  rw [step_reset hr] at h
  cases h
  rfl

theorem resetMem_idle {s : State} (hp : s.phase = .idle) : resetMem s = s.mem := by
  simp only [resetMem, hp]

theorem resetMem_busy {s : State} {i : Instr} (hp : s.phase = .busy) (hl : s.regs.latched = some i) :
    resetMem s = fillFree s.draws (writeSpan i).base (writeSpan i).len s.mem := by
  simp only [resetMem, hp, hl]

/-- A reset in `BUSY` changes no byte outside the write footprint of the command it abandons (R139). -/
theorem readByte_reset_outside {s t : State} {i : Instr} (hr : s.rst = true) (hp : s.phase = .busy)
    (hl : s.regs.latched = some i) (h : step s = .next t) {a : Nat} (ha : (writeSpan i).has a = false) :
    readByte t.mem a = readByte s.mem a := by
  rw [mem_of_step_reset hr h, resetMem_busy hp hl]
  exact readByte_fillFree_outside _ _ _ _ (span_has_not.1 ha)

/-- Settles O27: the input buffer of a TORGBFROMXYZ that keeps its contract lies outside its write footprint (R56). -/
theorem resetSparesMemoryOutside : Obligations.ResetSparesMemoryOutside := by
  refine ⟨?_, ?_, ?_⟩
  · intro s t hr hp h
    exact (mem_of_step_reset hr h).trans (resetMem_idle hp)
  · intro s t i hr hp hl h a ha
    exact readByte_reset_outside hr hp hl h ha
  · intro s t inp out npix hr hi h a hlo hhi
    obtain ⟨hp, hl, hb⟩ := hi
    have hread : (readSpan (.torgbfromxyz inp out npix)).has a = true := span_has.2 ⟨hlo, hhi⟩
    have hwrite := meets_eq_false_iff.1 (meets_of_breach_torgbfromxyz hb) a hread
    exact readByte_reset_outside hr hp hl h (Bool.eq_false_of_not_eq_true hwrite)

/-! ## A packet after the reset -/

/-- Presenting on an empty `CMD` the packet of a command whose contract is kept holds it there (R17). -/
theorem step_present {s : State} {i : Instr} {rest : List Input} (hr : s.rst = false) (hc : s.cmd = none)
    (he : s.env = .present (encode i) :: rest) (hb : breach s.owned i = none) :
    step s = .next { s with env := rest, cmd := some (encode i), presented := s.presented + 1 } := by
  have hheld : heldBreach { s with env := rest, cmd := some (encode i) } = none := by
    rw [heldBreach, heldCmd_of_decode rfl (decode_encode i)]; exact hb
  rw [step_input hr he]
  simp only [inputStep, hc, presentPacket, hheld]

/-- Settles O28: the reset leaves an `IDLE` block with an empty `CMD`, the presentation an offered command, and the third step
accepts it. -/
theorem readyAfterReset : Obligations.ReadyAfterReset := by
  intro s i hr he hb
  have hpresent := step_present (s := resetStep s) rfl rfl he hb
  have hoffered : Offered
      { resetStep s with env := [], cmd := some (encode i), presented := (resetStep s).presented + 1 } i :=
    ⟨rfl, rfl, rfl, rfl, hb⟩
  rw [runSteps_succ (step_reset hr), runSteps_succ hpresent, runSteps_succ (step_offered hoffered)]
  exact ⟨_, rfl, rfl, latched_latch _ _, latch_pix _ _, rfl⟩

end Sys2Proof.Machine
end
